-- ==== Sys2Proof/Word.lean ====
section
/-! DEFINITION. The fixed-width types of `oscillator_core` (00_scope.md R13, R14, R16). -/

namespace Sys2Proof

/-- One byte of the host window (20_memory.md R100). -/
abbrev Byte := BitVec 8

/-- One word of the host data bus (00_scope.md R13). -/
abbrev Word := BitVec 32

/-- A byte offset in the host window: 22 bits (00_scope.md R13, 20_memory.md R100). -/
abbrev Offset := BitVec 22

/-- A 16-bit sample as it is stored, two's complement (00_scope.md R10, R11, R14). -/
abbrev Sample := BitVec 16

/-- The caller-owned random-generator state (10_state.md R37). -/
abbrev RngState := BitVec 64

/-- An IEEE 754 binary64 value, held as its encoding (00_scope.md R13, R16).
A structure and not a bare bit vector, so that no bit-vector addition can be taken for a real one. -/
structure F64 where
  bits : BitVec 64
  deriving DecidableEq, Repr, Inhabited

end Sys2Proof
end

