-- ==== Sys2Proof/Syntax.lean ====
section
/-! DEFINITION. The commands of `oscillator_core`: one constructor per row of spec/opcode_table.json
(30_encoding.md R143). Their only operand is the 2-bit selector SEL (R141). -/

namespace Sys2Proof

inductive Instr where
  /-- NOP, 48_note_and_control.md R421. -/
  | nop
  /-- TBL_PRESET, 40_waveform_table.md R207; SEL is the preset. -/
  | tblPreset (sel : BitVec 2)
  /-- TBL_COMMIT, 40_waveform_table.md R212. -/
  | tblCommit
  /-- STG_CLEAR, 40_waveform_table.md R215. -/
  | stgClear
  /-- RENDER_TONE, 47_renderers.md R384. -/
  | renderTone
  /-- RENDER_EFFECT, 47_renderers.md R388. -/
  | renderEffect
  /-- NOTE_RESOLVE, 48_note_and_control.md R424. -/
  | noteResolve
  /-- LOOKUP, 40_waveform_table.md R218. -/
  | lookup
  /-- OSC_GEN, 42_oscillator.md R281; SEL is the wave kind. -/
  | oscGen (sel : BitVec 2)
  /-- ENV_EVAL, 41_envelope.md R250; SEL[0] is the envelope, SEL[1] must be 0. -/
  | envEval (sel : BitVec 2)
  deriving DecidableEq, Repr

end Sys2Proof
end

