-- ==== Sys2Proof/WellFormed.lean ====
section
/-! DEFINITION. Which commands the encoding admits (30_encoding.md R142, R145): every selector value for TBL_PRESET and
OSC_GEN, and for ENV_EVAL only those with SEL[1] = 0. -/

namespace Sys2Proof

/-- The selector check of 30_encoding.md R142: "bit 9 must be 0" for ENV_EVAL. -/
def envSelOk (sel : BitVec 2) : Bool := !sel.getLsbD 1

/-- A command term that some legal command word encodes. -/
def Instr.wellFormed : Instr → Bool
  | .nop => true
  | .tblPreset _ => true
  | .tblCommit => true
  | .stgClear => true
  | .renderTone => true
  | .renderEffect => true
  | .noteResolve => true
  | .lookup => true
  | .oscGen _ => true
  | .envEval sel => envSelOk sel

end Sys2Proof
end

