-- ==== Sys2Proof/Decode.lean ====
section
/-! DEFINITION. The command word: decoding, total on every 32-bit word and rejecting by name, and encoding
(30_encoding.md R140 to R145). -/

namespace Sys2Proof

/-- Why a command word is illegal (30_encoding.md R145). -/
inductive DecodeError where
  /-- RSV (bits 31:10) is not 0. -/
  | reservedBits
  /-- OP (bits 7:0) is not in the opcode map. -/
  | unassignedOp
  /-- SEL is not 0 on an opcode whose SEL must be 0. -/
  | selNotZero
  /-- ENV_EVAL with SEL[1] = 1. -/
  | envSelHigh
  deriving DecidableEq, Repr

/-- OP, bits 7:0 (R140). -/
def opField (w : Word) : BitVec 8 := w.extractLsb' 0 8

/-- SEL, bits 9:8 (R140). -/
def selField (w : Word) : BitVec 2 := w.extractLsb' 8 2

/-- RSV, bits 31:10 (R140). -/
def rsvField (w : Word) : BitVec 22 := w.extractLsb' 10 22

/-- A command whose SEL must be 0 (R142). -/
def requireNoSel (sel : BitVec 2) (i : Instr) : Except DecodeError Instr :=
  if sel = 0 then .ok i else .error .selNotZero

/-- The opcode map of R143, on the fields OP and SEL. -/
def decodeOp (op : BitVec 8) (sel : BitVec 2) : Except DecodeError Instr :=
  if op = 0x00#8 then requireNoSel sel .nop
  else if op = 0x01#8 then .ok (.tblPreset sel)
  else if op = 0x02#8 then requireNoSel sel .tblCommit
  else if op = 0x03#8 then requireNoSel sel .stgClear
  else if op = 0x10#8 then requireNoSel sel .renderTone
  else if op = 0x11#8 then requireNoSel sel .renderEffect
  else if op = 0x20#8 then requireNoSel sel .noteResolve
  else if op = 0x30#8 then requireNoSel sel .lookup
  else if op = 0x31#8 then .ok (.oscGen sel)
  else if op = 0x32#8 then (if envSelOk sel then .ok (.envEval sel) else .error .envSelHigh)
  else .error .unassignedOp

/-- Decoding (R144), total on every word. -/
def decode (w : Word) : Except DecodeError Instr :=
  if rsvField w = 0 then decodeOp (opField w) (selField w) else .error .reservedBits

/-- Format C (R140): RSV = 0, SEL in bits 9:8, OP in bits 7:0. -/
def formatC (op : BitVec 8) (sel : BitVec 2) : Word := (0#22 ++ sel) ++ op

/-- The command word of an instruction (R142, R143). -/
def encode : Instr → Word
  | .nop => formatC 0x00#8 0
  | .tblPreset sel => formatC 0x01#8 sel
  | .tblCommit => formatC 0x02#8 0
  | .stgClear => formatC 0x03#8 0
  | .renderTone => formatC 0x10#8 0
  | .renderEffect => formatC 0x11#8 0
  | .noteResolve => formatC 0x20#8 0
  | .lookup => formatC 0x30#8 0
  | .oscGen sel => formatC 0x31#8 sel
  | .envEval sel => formatC 0x32#8 sel

/-- One row of the opcode map of R143. -/
structure OpcodeRow where
  mnemonic : String
  matchBits : Word
  mask : Word
  deriving DecidableEq, Repr

/-- The opcode map of R143, row by row as the spec prints it. -/
def opcodeMap : List OpcodeRow :=
  [⟨"NOP", 0x00000000#32, 0xFFFFFFFF#32⟩,
   ⟨"TBL_PRESET", 0x00000001#32, 0xFFFFFCFF#32⟩,
   ⟨"TBL_COMMIT", 0x00000002#32, 0xFFFFFFFF#32⟩,
   ⟨"STG_CLEAR", 0x00000003#32, 0xFFFFFFFF#32⟩,
   ⟨"RENDER_TONE", 0x00000010#32, 0xFFFFFFFF#32⟩,
   ⟨"RENDER_EFFECT", 0x00000011#32, 0xFFFFFFFF#32⟩,
   ⟨"NOTE_RESOLVE", 0x00000020#32, 0xFFFFFFFF#32⟩,
   ⟨"LOOKUP", 0x00000030#32, 0xFFFFFFFF#32⟩,
   ⟨"OSC_GEN", 0x00000031#32, 0xFFFFFCFF#32⟩,
   ⟨"ENV_EVAL", 0x00000032#32, 0xFFFFFEFF#32⟩]

/-- A word matches a row of the opcode map (R143). -/
def OpcodeRow.matchesWord (r : OpcodeRow) (w : Word) : Bool := w &&& r.mask == r.matchBits

/-- The table's mnemonic of each command (R143). -/
def Instr.mnemonic : Instr → String
  | .nop => "NOP"
  | .tblPreset _ => "TBL_PRESET"
  | .tblCommit => "TBL_COMMIT"
  | .stgClear => "STG_CLEAR"
  | .renderTone => "RENDER_TONE"
  | .renderEffect => "RENDER_EFFECT"
  | .noteResolve => "NOTE_RESOLVE"
  | .lookup => "LOOKUP"
  | .oscGen _ => "OSC_GEN"
  | .envEval _ => "ENV_EVAL"

/-- A word as the opcode table numbers its bits: bits above `nbits` are 0. -/
def tableWord (nbits w : Nat) : Word := BitVec.ofNat 32 (w % 2 ^ nbits)

/-- The instruction the decoder reads from the bits `w` of a table row. -/
def decodeTableWord (nbits w : Nat) : Option Instr :=
  match decode (tableWord nbits w) with
  | .ok i => some i
  | .error _ => none

end Sys2Proof
end

