-- ==== Sys2Proof/Config.lean ====
section
/-! DEFINITION. What one implementation of `oscillator_core` fixes: the parameters P1 to P22 of 92_eei_decisions.md
table P, and the free values the spec leaves open. Nothing here has a value: `Config.raw` and the other opaque
constants have no body, so no proof can see what they are. Machine/Parameters.lean says which constraints table P puts
on them (`Config.Legal`) and derives the configuration the machine runs with (`Config.machine`). -/

namespace Sys2Proof

/-- The short-table policies of 40_waveform_table.md R211 (parameter P4). -/
inductive ShortPolicy where
  | reject
  | zeroPad
  | repeatSeq
  | resample
  deriving DecidableEq, Repr, Inhabited

/-- The configuration parameters of 92_eei_decisions.md table P, one field each, named as the table names them.
`wrapNonFinite` is the model's own: what `wrap` gives on an operand that is not finite, which 00_scope.md R17 leaves
open (log entry 10). The parameter LATENCY (P23) is `Config.latency` below. -/
structure Config where
  /-- P1 `PCM_CAP`: PCM RAM size in samples. -/
  pcmCap : Nat
  /-- P2 `SIN`. -/
  sin : F64 → F64
  /-- P3 `POW2`. -/
  pow2 : F64 → F64
  /-- P4 `SHORT_POLICY`. -/
  shortPolicy : ShortPolicy
  /-- P5 `DECAY_SHAPE`. -/
  decayShape : F64 → F64
  /-- P6 `EFFECT_ENV`, of (A, S, D, PU, t). -/
  effectEnv : F64 → F64 → F64 → F64 → F64 → F64
  /-- P7 `ENV_TIME`. -/
  envTime : F64 → F64
  /-- P8 `FREQ_MAP`. -/
  freqMap : F64 → F64
  /-- P9 `LIMIT_MAP`. -/
  limitMap : F64 → F64
  /-- P10 `FRAMP_MAP`. -/
  frampMap : F64 → F64
  /-- P11 `FDRAMP_MAP`. -/
  fdrampMap : F64 → F64
  /-- P12 `ARP_FRAC`. -/
  arpFrac : F64 → F64
  /-- P13 `NOISE_SEGS`. -/
  noiseSegs : Nat
  /-- P14 `RNG_NEXT`. -/
  rngNext : RngState → F64 × RngState
  /-- P15 `LPF_ALPHA`. -/
  lpfAlpha : F64 → F64
  /-- P16 `RES_FB`. -/
  resFb : F64 → F64
  /-- P17 `HPF_ALPHA`. -/
  hpfAlpha : F64 → F64
  /-- P18 `PHASER_LEN`. -/
  phaserLen : Nat
  /-- P19 `PHA_SCALE`. -/
  phaScale : F64
  /-- P20 `PHA_WET`. -/
  phaWet : F64
  /-- P21 `REPEAT_SEG`. -/
  repeatSeg : F64 → Nat
  /-- P22 `MASTER_GAIN`. -/
  masterGain : F64
  /-- `wrap` of a value that is not finite (log entry 10). -/
  wrapNonFinite : F64 → F64
  deriving Inhabited

/-- The parameters as the implementation gives them, before the constraints of table P are applied (log entry 1). -/
opaque Config.raw : Config

/-- P23 `LATENCY`: how many steps pass between the accept of a command and its complete step, a free value for each
value of the model's counter (70_reset_and_hazards.md R497, log entry 2). -/
opaque Config.latency : Nat → Nat

/-- What a read of a result returns while BUSY: any value, a free value for each value of the model's counter
(70_reset_and_hazards.md R490, log entry 3). -/
opaque Config.busyRead : Nat → Word

/-- What a byte of the PCM RAM that no render has written since the last reset holds: any value, for each reset (its
epoch) and each byte offset (10_state.md R55, log entry 4). -/
opaque Config.pcmPowerOn : Nat → Nat → Byte

/-- `floor` of a value that is not finite, which 00_scope.md R17 does not define (log entry 11). -/
opaque Config.floorNonFinite : F64 → Int

/-- The sign of a NaN that an operation makes, which 00_scope.md R16 does not give (log entry 9). -/
opaque Config.nanSign : Bool

/-- The payload of a NaN that an operation makes, below the bit that makes it quiet (log entry 9). -/
opaque Config.nanPayload : BitVec 51

end Sys2Proof
end

