-- ==== Sys2Proof/Machine/Float.lean ====
section
/-! DEFINITION. IEEE 754 binary64 arithmetic with round-to-nearest, ties-to-even, each operation rounded once
(00_scope.md R16), and the exact helpers `floor`, `ceil`, `real` of R17. Every finite binary64 value is an integer
multiple of 2^-1074, its UNIT here: an operation computes its exact result as a ratio in units, and `roundMag` rounds
that ratio once. -/

namespace Sys2Proof
namespace F64

/-- The sign bit. -/
def signBit (x : F64) : Bool := x.bits.getLsbD 63

/-- The biased exponent field, encoding bits 62:52. -/
def expField (x : F64) : Nat := (x.bits.extractLsb' 52 11).toNat

/-- The fraction field, encoding bits 51:0. -/
def fracField (x : F64) : Nat := (x.bits.extractLsb' 0 52).toNat

/-- The encoding without its sign, bits 62:0; it grows with the magnitude. -/
def magBits (x : F64) : Nat := (x.bits.extractLsb' 0 63).toNat

def isNaN (x : F64) : Bool := x.expField == 2047 && x.fracField != 0

def isInf (x : F64) : Bool := x.expField == 2047 && x.fracField == 0

/-- `finite(x)` of R17: neither NaN nor an infinity. -/
def isFinite (x : F64) : Bool := x.expField != 2047

/-- How many units of 2^-1074 make 1.0. -/
def unitsPerOne : Nat := 2 ^ 1074

/-- The magnitude of a finite value, in units. -/
def magUnits (x : F64) : Nat :=
  if x.expField = 0 then x.fracField else (2 ^ 52 + x.fracField) * 2 ^ (x.expField - 1)

/-- A finite value, in units. -/
def units (x : F64) : Int := if x.signBit then -(x.magUnits : Int) else (x.magUnits : Int)

/-- The encoding of infinity without its sign. -/
def infMag : Nat := 2047 * 2 ^ 52

/-- The encoding with the given sign and magnitude bits. -/
def ofSign (neg : Bool) (mag : Nat) : F64 :=
  ⟨BitVec.ofNat 64 (if neg then 2 ^ 63 + mag else mag)⟩

/-- The magnitude bits of the binary64 value nearest to `num / den` units, ties to even; infinity on overflow (R16).
`shift` is how many low bits of the integer part do not fit the 53-bit significand. -/
def roundMag (num den : Nat) : Nat :=
  let shift := (num / den).log2 - 52
  let d := den * 2 ^ shift
  let m := num / d
  let r := num % d
  let m' := if d < 2 * r ∨ (d = 2 * r ∧ m % 2 = 1) then m + 1 else m
  min (shift * 2 ^ 52 + m') infMag

/-- The exact value of `z` units, an integer, rounded once; `zeroSign` is the sign of an exact zero. -/
def roundUnits (zeroSign : Bool) (z : Int) : F64 :=
  if z = 0 then ofSign zeroSign 0 else ofSign (decide (z < 0)) (roundMag z.natAbs 1)

/-- The NaN that an operation makes: a quiet NaN whose sign and payload are free values, since the spec does not give
its bits (log entry 9). -/
def nan : F64 := ⟨BitVec.ofBool Config.nanSign ++ 0xFFF#12 ++ Config.nanPayload⟩

def zero : F64 := ⟨0x0000000000000000#64⟩

def one : F64 := ⟨0x3FF0000000000000#64⟩

def inf (neg : Bool) : F64 := ofSign neg infMag

/-- The value with its sign turned. -/
def neg (x : F64) : F64 := ⟨x.bits ^^^ 0x8000000000000000#64⟩

/-- `abs(x)` of R17. -/
def abs (x : F64) : F64 := ofSign false x.magBits

/-- `a + b` of R16. An exact zero sum is -0.0 only when both operands are negative zeros. -/
def add (x y : F64) : F64 :=
  if x.isNaN || y.isNaN then nan
  else if x.isInf then (if y.isInf && x.signBit != y.signBit then nan else x)
  else if y.isInf then y
  else roundUnits (x.signBit && y.signBit) (x.units + y.units)

/-- `a - b` of R16. -/
def sub (x y : F64) : F64 := add x (neg y)

/-- `a * b` of R16. -/
def mul (x y : F64) : F64 :=
  let s := x.signBit != y.signBit
  if x.isNaN || y.isNaN then nan
  else if x.isInf || y.isInf then (if x.magBits = 0 ∨ y.magBits = 0 then nan else inf s)
  else ofSign s (roundMag (x.magUnits * y.magUnits) unitsPerOne)

/-- `a / b` of R16. -/
def div (x y : F64) : F64 :=
  let s := x.signBit != y.signBit
  if x.isNaN || y.isNaN then nan
  else if x.isInf then (if y.isInf then nan else inf s)
  else if y.isInf then ofSign s 0
  else if y.magBits = 0 then (if x.magBits = 0 then nan else inf s)
  else ofSign s (roundMag (x.magUnits * unitsPerOne) y.magUnits)

/-- The order of the non-NaN values as integers; both zeros are 0. -/
def orderKey (x : F64) : Int := if x.signBit then -(x.magBits : Int) else (x.magBits : Int)

/-- `a < b` of R16: false when an operand is NaN. -/
def lt (x y : F64) : Bool := !x.isNaN && !y.isNaN && decide (x.orderKey < y.orderKey)

/-- `a <= b` of R16: false when an operand is NaN. -/
def le (x y : F64) : Bool := !x.isNaN && !y.isNaN && decide (x.orderKey ≤ y.orderKey)

/-- `a == b` of R16: false when an operand is NaN; -0.0 equals 0.0. -/
def eq (x y : F64) : Bool := !x.isNaN && !y.isNaN && decide (x.orderKey = y.orderKey)

/-- `a != b` of R16: true when an operand is NaN. -/
def ne (x y : F64) : Bool := !eq x y

/-- `floor(x)` of R17, exact; for a value that is not finite R17 gives none and the result is free (log entry 11). -/
def floor (x : F64) : Int :=
  if x.isFinite then x.units / (unitsPerOne : Int) else Config.floorNonFinite x

/-- `ceil(x)` of R17, the least integer `>= x`. -/
def ceil (x : F64) : Int := -(floor (neg x))

/-- `real(k)` of R17: the binary64 value of an integer. -/
def ofInt (k : Int) : F64 := roundUnits false (k * unitsPerOne)

/-- `real(k)` of R17 for a natural number. -/
def ofNat (k : Nat) : F64 := ofInt k

/-- The binary64 value nearest to the decimal `num / den` (R16). -/
def lit (num den : Nat) : F64 := ofSign false (roundMag (num * unitsPerOne) den)

end F64
end Sys2Proof
end

