-- ==== Sys2Proof/Machine/Numeric.lean ====
section
/-! DEFINITION. The named constants and helper functions of 00_scope.md section 4 (R9, R16 to R20), and the conversions
between samples and the integers they stand for (R14). -/

namespace Sys2Proof
namespace F64

/-- `SR = 44100.0` (R9). -/
def sampleRate : F64 := ⟨0x40E5888000000000#64⟩

/-- `TWO_PI` (R16). -/
def twoPi : F64 := ⟨0x401921FB54442D18#64⟩

def minusOne : F64 := ⟨0xBFF0000000000000#64⟩

def two : F64 := ⟨0x4000000000000000#64⟩

def four : F64 := ⟨0x4010000000000000#64⟩

def half : F64 := ⟨0x3FE0000000000000#64⟩

/-- 12.0, the semitones of an octave (48_note_and_control.md R423). -/
def twelve : F64 := ⟨0x4028000000000000#64⟩

/-- 440.0 (48_note_and_control.md R423). -/
def concertA : F64 := ⟨0x407B800000000000#64⟩

/-- 1023.0, the last table index (40_waveform_table.md R203, R216). -/
def tableSpan : F64 := ⟨0x408FF80000000000#64⟩

/-- 32767.0, the full scale of the table and of the effect output (R20, 47_renderers.md R393). -/
def fullScale : F64 := ⟨0x40DFFFC000000000#64⟩

/-- `clamp(x, lo, hi)` of R17. -/
def clamp (x lo hi : F64) : F64 := if x.lt lo then lo else if hi.lt x then hi else x

/-- `clamp01(x)` of R17. -/
def clamp01 (x : F64) : F64 := clamp x zero one

/-- A finite value with `lo <= x <= hi` (10_state.md R47). -/
def inRange (lo hi x : F64) : Bool := x.isFinite && le lo x && le x hi

/-- The range [0, 1]. -/
def inUnit (x : F64) : Bool := inRange zero one x

/-- The range [-1, 1]. -/
def inBipolar (x : F64) : Bool := inRange minusOne one x

/-- "finite, >= 0" (10_state.md R49); it admits -0.0 (60_exceptions.md R443). -/
def isNonneg (x : F64) : Bool := x.isFinite && le zero x

/-- A phase: a value in [0, 1) (00_scope.md R26). -/
def isPhase (x : F64) : Bool := x.isFinite && le zero x && lt x one

/-- `wrap(x)` of R17, for a finite value `x - real(floor(x))` with a result of 1.0 folded to 0.0; for another value the
free value `cfg.wrapNonFinite x`, which Machine/Parameters.lean keeps in [0, 1) (log entry 10). -/
def wrap (cfg : Config) (x : F64) : F64 :=
  if x.isFinite then
    let r := x.sub (ofInt x.floor)
    if r.eq one then zero else r
  else cfg.wrapNonFinite x

/-- `quant(v)` of R19, as the integer it yields. -/
def quantInt (v : F64) : Int := if v.isFinite then max (-32768) (min 32767 v.floor) else 0

/-- `tconv(v)` of R20, as the integer it yields. -/
def tconvInt (v : F64) : Int :=
  if v.isNaN then 0 else ((clamp v minusOne one).mul fullScale).floor

/-- `quant(v)` of R19, as a stored sample. -/
def quant (v : F64) : Sample := BitVec.ofInt 16 v.quantInt

/-- `tconv(v)` of R20, as a stored sample. -/
def tconv (v : F64) : Sample := BitVec.ofInt 16 v.tconvInt

/-- The low word of the encoding, bits 31:0 (10_state.md R47). -/
def lowWord (x : F64) : Word := x.bits.extractLsb' 0 32

/-- The high word of the encoding, bits 63:32 (10_state.md R47). -/
def highWord (x : F64) : Word := x.bits.extractLsb' 32 32

/-- The value with encoding `{hi, lo}` (00_scope.md R15). -/
def ofWords (hi lo : Word) : F64 := ⟨hi ++ lo⟩

/-- The register after a write of its low word (10_state.md R51). -/
def withLow (x : F64) (v : Word) : F64 := ofWords x.highWord v

/-- The register after a write of its high word (10_state.md R51). -/
def withHigh (x : F64) (v : Word) : F64 := ofWords v x.lowWord

end F64

/-- `{hi, lo}` of the RNG state after a write of its low word (10_state.md R37). -/
def rngWithLow (r : RngState) (v : Word) : RngState := r.extractLsb' 32 32 ++ v

/-- The RNG state after a write of its high word (10_state.md R37). -/
def rngWithHigh (r : RngState) (v : Word) : RngState := v ++ r.extractLsb' 0 32

end Sys2Proof
end

