-- ==== Sys2Proof/Machine/State.lean ====
section
/-! DEFINITION. Everything `oscillator_core` holds (10_state.md), as plain data, and its reset state
(70_reset_and_hazards.md R482). -/

namespace Sys2Proof
namespace Machine

/-- What stops the machine with a fault: nothing. The spec gives every host access and every command an effect: a
misaligned access answers PSLVERR (60_exceptions.md R452), a command error completes with an ERRCODE (R442)
(log entry 22). -/
inductive Fault where
  deriving DecidableEq, Repr

/-- Why the model gives an instruction no meaning. -/
inductive Refusal where
  /-- Raised by `exec` for an instruction that has no meaning yet; safe. No arm raises it. -/
  | notModelled (mnemonic : String)
  deriving DecidableEq, Repr

/-- The error codes of 60_exceptions.md R440; codes 7 to 15 are never produced. -/
inductive ErrCode where
  | none
  | invalidNote
  | emptyWavetable
  | invalidParameter
  | illegalCommand
  | capacityExceeded
  | shortWavetable
  deriving DecidableEq, Repr

/-- `STATUS.END_REASON` (10_state.md R33); 3 is never produced. -/
inductive EndReason where
  /-- 0: the last command was not a render, or failed. -/
  | none
  /-- 1: the last render ended at the envelope end. -/
  | envelope
  /-- 2: the last render ended by the frequency limit. -/
  | limit
  deriving DecidableEq, Repr

/-- The stored fields of `STATUS` (10_state.md R33). BUSY is the view of the sequencer and is not stored. -/
structure Status where
  done : Bool
  err : Bool
  ovr : Bool
  errCode : ErrCode
  endReason : EndReason
  deriving DecidableEq, Repr

/-- The binary64 parameter registers, by name (10_state.md R47, R49, R50). -/
inductive PReg where
  | baseFreq | freqLimit | freqRamp | freqDramp | duty | dutyRamp | vibStrength | vibSpeed | arpSpeed | arpMod
  | envAttack | envSustain | envDecay | envPunch | lpfFreq | lpfRamp | lpfResonance | hpfFreq | hpfRamp
  | phaOffset | phaRamp | repeatSpeed
  | pitchHz | tAttack | tDecay | tSustain | tRelease | tSustainLevel | tblDuty
  | uPhase | uTime | uDuty
  deriving DecidableEq, Repr

/-- The binary64 parameter registers (10_state.md R47, R49, R50), each held as its 64-bit value. -/
structure Params where
  baseFreq : F64
  freqLimit : F64
  freqRamp : F64
  freqDramp : F64
  duty : F64
  dutyRamp : F64
  vibStrength : F64
  vibSpeed : F64
  arpSpeed : F64
  arpMod : F64
  envAttack : F64
  envSustain : F64
  envDecay : F64
  envPunch : F64
  lpfFreq : F64
  lpfRamp : F64
  lpfResonance : F64
  hpfFreq : F64
  hpfRamp : F64
  phaOffset : F64
  phaRamp : F64
  repeatSpeed : F64
  pitchHz : F64
  tAttack : F64
  tDecay : F64
  tSustain : F64
  tRelease : F64
  tSustainLevel : F64
  tblDuty : F64
  uPhase : F64
  uTime : F64
  uDuty : F64
  deriving DecidableEq, Repr

/-- The snapshot taken at command accept (00_scope.md R22): a copy of every register that some command reads
(log entry 15). `TBL` and `STG` are not copied, since nothing can change them while BUSY. -/
structure Snapshot where
  params : Params
  waveType : BitVec 2
  note : Word
  rng : RngState
  stgCount : Word
  deriving DecidableEq, Repr

/-- The sequencer (10_state.md R56). `wait` is how many further steps pass before the complete step (LATENCY, P23,
log entry 2). -/
inductive Sequencer where
  | idle
  | busy (cmd : Word) (snap : Snapshot) (wait : Nat)
  deriving DecidableEq, Repr

/-- What the outside does to the block (20_memory.md R103, R114; log entry 6). -/
inductive HostEvent where
  /-- `MemRead(a, 4)`. -/
  | read (a : Offset)
  /-- `MemWrite(a, 4, v)`. -/
  | write (a : Offset) (v : Word)
  /-- The hardware reset, PRESETN low (70_reset_and_hazards.md R480). -/
  | presetn
  deriving DecidableEq, Repr

/-- The block's answer to the last completed bus access: PRDATA of a read, and PSLVERR (20_memory.md R103, R114;
log entry 7). -/
inductive BusResponse where
  /-- No access has completed since the hardware reset. -/
  | none
  | readOk (data : Word)
  | writeOk
  /-- A misaligned read: PSLVERR = 1, read data 0. -/
  | readError
  /-- A misaligned write: PSLVERR = 1. -/
  | writeError
  deriving DecidableEq, Repr

/-- The host-visible sample memories, TBL and PCM, as the bytes of their windows (20_memory.md R101, R102), in one
canonical form (Machine/Ops.lean, `Memory.wf`; log entry 19). -/
abbrev Memory := List Host.Cell

/-- The whole state of the block (10_state.md). -/
structure State where
  /-- 0x100 to 0x1AF and 0x200 to 0x24F (R47, R49, R50). -/
  params : Params
  /-- `WAVE_TYPE.WAVE` (R48). -/
  waveType : BitVec 2
  /-- `NOTE` (R43). -/
  note : Word
  /-- `RNG` (R37). -/
  rng : RngState
  /-- `FN_IN_LO`, the holding register (R40). -/
  fnInLo : Word
  /-- `STG_COUNT` (R38). -/
  stgCount : Word
  /-- `STG[0 .. 1023]` (R54). -/
  stg : Vector Sample 1024
  /-- `TBL` and `PCM` (R53, R55). -/
  mem : Memory
  /-- Model field: which reset the unwritten PCM bytes come from (log entry 4). -/
  pcmEpoch : Nat
  /-- `LEN` (R34). -/
  len : Word
  /-- `DURATION` (R41). -/
  duration : F64
  /-- `RESULT` (R42). -/
  result : F64
  /-- `STATUS` (R33), less BUSY. -/
  status : Status
  /-- `ERR_ADDR` (R45). -/
  errAddr : Word
  /-- `IRQ_EN` (R35). -/
  irqEn : BitVec 3
  /-- The sequencer (R56). -/
  seq : Sequencer
  /-- The response port (20_memory.md R103). -/
  response : BusResponse
  /-- Model field: the host events still to come, first one first (log entry 6). -/
  inputs : List HostEvent
  /-- Model field: the counter that free values are drawn with (log entry 18). -/
  free : Nat
  deriving DecidableEq, Repr

/-- `STATUS` at reset: 0 (R482). -/
def Status.reset : Status :=
  { done := false, err := false, ovr := false, errCode := .none, endReason := .none }

/-- The parameter registers at reset (10_state.md R47, R49, R50, column "reset"). -/
def Params.reset : Params where
  baseFreq := ⟨0x3FD3333333333333#64⟩       -- 0.3
  freqLimit := ⟨0#64⟩
  freqRamp := ⟨0#64⟩
  freqDramp := ⟨0#64⟩
  duty := ⟨0x3FE0000000000000#64⟩           -- 0.5
  dutyRamp := ⟨0#64⟩
  vibStrength := ⟨0#64⟩
  vibSpeed := ⟨0#64⟩
  arpSpeed := ⟨0#64⟩
  arpMod := ⟨0#64⟩
  envAttack := ⟨0#64⟩
  envSustain := ⟨0x3FD3333333333333#64⟩     -- 0.3
  envDecay := ⟨0x3FD999999999999A#64⟩       -- 0.4
  envPunch := ⟨0#64⟩
  lpfFreq := ⟨0x3FF0000000000000#64⟩        -- 1.0
  lpfRamp := ⟨0#64⟩
  lpfResonance := ⟨0#64⟩
  hpfFreq := ⟨0#64⟩
  hpfRamp := ⟨0#64⟩
  phaOffset := ⟨0#64⟩
  phaRamp := ⟨0#64⟩
  repeatSpeed := ⟨0#64⟩
  pitchHz := ⟨0x407B800000000000#64⟩        -- 440.0
  tAttack := ⟨0#64⟩
  tDecay := ⟨0#64⟩
  tSustain := ⟨0#64⟩
  tRelease := ⟨0#64⟩
  tSustainLevel := ⟨0x3FE6666666666666#64⟩  -- 0.7
  tblDuty := ⟨0x3FE0000000000000#64⟩        -- 0.5
  uPhase := ⟨0#64⟩
  uTime := ⟨0#64⟩
  uDuty := ⟨0x3FE0000000000000#64⟩          -- 0.5

/-- The block right after reset (70_reset_and_hazards.md R482), with no host event to come. The values of `stg`,
`response`, `inputs`, `free` and `pcmEpoch` are the model's (log entries 4 to 7 and 18). -/
def State.reset : State where
  params := Params.reset
  waveType := 0
  note := 0
  rng := 0
  fnInLo := 0
  stgCount := 0
  stg := Vector.replicate 1024 0
  mem := []
  pcmEpoch := 0
  len := 0
  duration := ⟨0#64⟩
  result := ⟨0#64⟩
  status := Status.reset
  errAddr := 0
  irqEn := 0
  seq := .idle
  response := .none
  inputs := []
  free := 0

end Machine
end Sys2Proof
end

