-- ==== Sys2Proof/Machine/Ops.lean ====
section
/-! DEFINITION. The shared operations over the memories and the registers: the sample memories in their one canonical
form, accepting a command, completing it with success or with an error (the block's whole "trap entry",
60_exceptions.md R446), and the two resets. -/

namespace Sys2Proof
namespace Machine

/-! ## The sample memories -/

/-- The table window begins here: 2048 bytes (20_memory.md R100, R101). -/
def tblBase : Nat := 0x800

/-- The PCM window begins here: 2 * PCM_CAP bytes (20_memory.md R100, R102). -/
def pcmBase : Nat := 0x100000

/-- What a byte that is not listed reads as: 0 in the table (10_state.md R53, reset value), no value in the PCM RAM
(R55: unspecified until a render writes it). -/
def Memory.unlisted (a : Nat) : Option Byte :=
  if tblBase ≤ a ∧ a < tblBase + 2048 then some 0 else none

/-- The byte listed for an address. -/
def Memory.find? : Memory → Nat → Option Byte
  | [], _ => none
  | (b, v) :: m, a => if b = a then some v else Memory.find? m a

/-- The value a byte has been given, by a command or by the reset; none for a PCM byte no render has written. -/
def Memory.read (m : Memory) (a : Nat) : Option Byte := (Memory.find? m a).or (Memory.unlisted a)

/-- The canonical form: addresses strictly rising, and no entry equal to what an unlisted address reads as. -/
abbrev Memory.wf (m : Memory) : Prop :=
  m.Pairwise (fun x y => x.1 < y.1) ∧ ∀ c ∈ m, Memory.unlisted c.1 ≠ some c.2

/-- Consecutive bytes from an address on, as canonical entries. -/
def Memory.block : Nat → List Byte → Memory
  | _, [] => []
  | a, v :: vs =>
    if Memory.unlisted a = some v then Memory.block (a + 1) vs else (a, v) :: Memory.block (a + 1) vs

/-- The only way the sample memories are written: consecutive bytes at once (40_waveform_table.md R200,
47_renderers.md R380). -/
def Memory.writeBlock (m : Memory) (base : Nat) (vs : List Byte) : Memory :=
  m.filter (fun c => decide (c.1 < base)) ++ Memory.block base vs ++
    m.filter (fun c => decide (base + vs.length ≤ c.1))

/-- A sample as its two bytes, low byte first (20_memory.md R102, R107). -/
def sampleBytes (v : Sample) : List Byte := [v.extractLsb' 0 8, v.extractLsb' 8 8]

/-- Samples as bytes in ascending address order (20_memory.md R102). -/
def samplesBytes (vs : List Sample) : List Byte := vs.flatMap sampleBytes

/-- A byte of the sample memories as the block holds it: a PCM byte that nothing has written since the last reset
holds a free value (log entry 4). -/
def State.byteAt (s : State) (a : Nat) : Byte :=
  (Memory.read s.mem a).getD (Config.pcmPowerOn s.pcmEpoch a)

/-- The sample whose low byte stands at `a`. -/
def State.sampleAt (s : State) (a : Nat) : Sample := s.byteAt (a + 1) ++ s.byteAt a

/-- `TBL[k]` (00_scope.md R15). -/
def State.tbl (s : State) (k : Nat) : Sample := s.sampleAt (tblBase + 2 * k)

/-- `PCM[n]` (00_scope.md R15). -/
def State.pcm (s : State) (n : Nat) : Sample := s.sampleAt (pcmBase + 2 * n)

/-- Writes `TBL[0 ..]` (40_waveform_table.md R200). -/
def State.storeTable (s : State) (vs : List Sample) : State :=
  { s with mem := Memory.writeBlock s.mem tblBase (samplesBytes vs) }

/-- Writes `PCM[0 ..]` (47_renderers.md R380). -/
def State.storePcm (s : State) (vs : List Sample) : State :=
  { s with mem := Memory.writeBlock s.mem pcmBase (samplesBytes vs) }

/-! ## Commands -/

/-- The sequencer runs a command: `STATUS.BUSY` (10_state.md R33, R56). -/
def State.busy (s : State) : Bool :=
  match s.seq with
  | .idle => false
  | .busy _ _ _ => true

/-- The registers a command reads, as they stand now. -/
def State.snapshot (s : State) : Snapshot :=
  { params := s.params, waveType := s.waveType, note := s.note, rng := s.rng, stgCount := s.stgCount }

/-- The operands of the running command: its snapshot (00_scope.md R22). In an idle state, the registers themselves:
a command accepted now and completed at once, LATENCY 0 (log entry 8). -/
def State.operands (s : State) : Snapshot :=
  match s.seq with
  | .idle => s.snapshot
  | .busy _ snap _ => snap

/-- The accept step (00_scope.md R22, 10_state.md R33): the snapshot is taken, BUSY is set, DONE, ERR, ERRCODE and
END_REASON are cleared, OVR is left. `wait` steps pass before the complete step. -/
def State.acceptWith (s : State) (w : Word) (wait : Nat) : State :=
  { s with
    seq := .busy w s.snapshot wait
    status := { s.status with done := false, err := false, errCode := .none, endReason := .none } }

/-- The accept step with an unknown latency (log entry 2). -/
def State.accept (s : State) (w : Word) : State :=
  { s.acceptWith w (Config.latency s.free) with free := s.free + 1 }

/-- The word of the command whose complete step comes now: the block's "fetch" (10_state.md R56). -/
def State.ready? (s : State) : Option Word :=
  match s.seq with
  | .idle => none
  | .busy _ _ (_ + 1) => none
  | .busy w _ 0 => some w

/-- A successful completion (60_exceptions.md R442); `reason` is `none` but for a render. -/
def State.finish (s : State) (reason : EndReason) : State :=
  { s with
    seq := .idle
    errAddr := 0
    status := { s.status with done := true, err := false, errCode := .none, endReason := reason } }

/-- `raise Error(CODE, addr)` (60_exceptions.md R442): the command ends, none of its results is written, and the error
is recorded in STATUS and ERR_ADDR. -/
def State.raiseError (s : State) (code : ErrCode) (addr : Word) : State :=
  { s with
    seq := .idle
    errAddr := addr
    status := { s.status with done := true, err := true, errCode := code, endReason := .none } }

/-- The completion of a render with its samples (47_renderers.md R380): `PCM[0 .. N-1]`, LEN, DURATION, END_REASON. -/
def State.finishRender (s : State) (vs : List Sample) (reason : EndReason) : State :=
  { (s.storePcm vs).finish reason with
    len := BitVec.ofNat 32 vs.length
    duration := (F64.ofNat vs.length).div F64.sampleRate }

/-- The completion of a command that answers one binary64 value (10_state.md R42). -/
def State.finishResult (s : State) (v : F64) : State := { s.finish .none with result := v }

/-! ## Resets -/

/-- The reset of 70_reset_and_hazards.md R482: every field as after reset. The host's further events stay, and the
model's counters move on, so that the contents of the PCM RAM are unknown anew (log entries 4, 6, 18). -/
def State.toReset (s : State) : State :=
  { State.reset with inputs := s.inputs, pcmEpoch := s.pcmEpoch + 1, free := s.free + 1 }

end Machine
end Sys2Proof
end

