-- ==== Sys2Proof/Machine/Flags.lean ====
section
/-! DEFINITION. The STATUS bits as the host sees them, their acknowledgement, and the interrupt line (10_state.md R33,
R58, 60_exceptions.md R440, R447 to R450). -/

namespace Sys2Proof
namespace Machine

/-- The code of an error in `STATUS.ERRCODE` (60_exceptions.md R440). -/
def ErrCode.code : ErrCode → BitVec 4
  | .none => 0
  | .invalidNote => 1
  | .emptyWavetable => 2
  | .invalidParameter => 3
  | .illegalCommand => 4
  | .capacityExceeded => 5
  | .shortWavetable => 6

/-- The code in `STATUS.END_REASON` (10_state.md R33). -/
def EndReason.code : EndReason → BitVec 2
  | .none => 0
  | .envelope => 1
  | .limit => 2

/-- A STATUS word from its fields (10_state.md R33): BUSY 0, DONE 1, ERR 2, OVR 3, ERRCODE 7:4, END_REASON 9:8. -/
def statusBits (busy done err ovr : Bool) (code : BitVec 4) (reason : BitVec 2) : Word :=
  0#22 ++ reason ++ code ++ BitVec.ofBool ovr ++ BitVec.ofBool err ++ BitVec.ofBool done ++ BitVec.ofBool busy

/-- The current `STATUS` word (10_state.md R33). -/
def State.statusWord (s : State) : Word :=
  statusBits s.busy s.status.done s.status.err s.status.ovr s.status.errCode.code s.status.endReason.code

/-- A free value for ERRCODE: any code the block produces, 0 to 6 (60_exceptions.md R440). -/
def anyErrCode (b : BitVec 4) : BitVec 4 := if b.toNat ≤ 6 then b else 0

/-- A free value for END_REASON: any value the block produces, 0 to 2 (10_state.md R33). -/
def anyEndReason (b : BitVec 2) : BitVec 2 := if b.toNat ≤ 2 then b else 0

/-- What a read of STATUS returns while BUSY: BUSY, DONE, ERR and OVR as they are, ERRCODE and END_REASON any value
that the block produces, drawn from `v` (70_reset_and_hazards.md R490, log entry 3). -/
def State.busyStatusWord (s : State) (v : Word) : Word :=
  statusBits s.busy s.status.done s.status.err s.status.ovr (anyErrCode (v.extractLsb' 4 4))
    (anyEndReason (v.extractLsb' 8 2))

/-- A write to STATUS: a 1 in DONE, ERR or OVR clears that bit, everything else is ignored (10_state.md R33). This is
how the host acknowledges a completion, the block's "return" (60_exceptions.md R447). -/
def State.ackStatus (s : State) (v : Word) : State :=
  { s with status := { s.status with
      done := s.status.done && !v.getLsbD 1
      err := s.status.err && !v.getLsbD 2
      ovr := s.status.ovr && !v.getLsbD 3 } }

/-- A write dropped because BUSY = 1 (10_state.md R52). -/
def State.dropWrite (s : State) : State := { s with status := { s.status with ovr := true } }

/-- The level interrupt output (60_exceptions.md R450). -/
def State.irq (s : State) : Bool :=
  (s.status.done && s.irqEn.getLsbD 0) || (s.status.err && s.irqEn.getLsbD 1) || (s.status.ovr && s.irqEn.getLsbD 2)

end Machine
end Sys2Proof
end

