-- ==== Sys2Proof/Machine/Operands.lean ====
section
/-! DEFINITION. The parameter registers as operands: their offsets and domains (10_state.md R47, R49, R50), how a
register is read and written by name, and the domain check of 60_exceptions.md R443. -/

namespace Sys2Proof
namespace Machine

/-- The byte offset of a register's low word; its high word is 4 above (10_state.md R47, R49, R50). -/
def PReg.offset : PReg → Nat
  | .baseFreq => 0x100
  | .freqLimit => 0x108
  | .freqRamp => 0x110
  | .freqDramp => 0x118
  | .duty => 0x120
  | .dutyRamp => 0x128
  | .vibStrength => 0x130
  | .vibSpeed => 0x138
  | .arpSpeed => 0x140
  | .arpMod => 0x148
  | .envAttack => 0x150
  | .envSustain => 0x158
  | .envDecay => 0x160
  | .envPunch => 0x168
  | .lpfFreq => 0x170
  | .lpfRamp => 0x178
  | .lpfResonance => 0x180
  | .hpfFreq => 0x188
  | .hpfRamp => 0x190
  | .phaOffset => 0x198
  | .phaRamp => 0x1A0
  | .repeatSpeed => 0x1A8
  | .pitchHz => 0x200
  | .tAttack => 0x208
  | .tDecay => 0x210
  | .tSustain => 0x218
  | .tRelease => 0x220
  | .tSustainLevel => 0x228
  | .tblDuty => 0x230
  | .uPhase => 0x238
  | .uTime => 0x240
  | .uDuty => 0x248

/-- The domains a register can have (10_state.md R47, R49, R50). -/
inductive Domain where
  /-- [0, 1]. -/
  | unit
  /-- [-1, 1]. -/
  | bipolar
  /-- finite, >= 0. -/
  | nonneg
  /-- finite. -/
  | finite
  deriving DecidableEq, Repr

/-- The domain of a register (10_state.md R47, R49, R50). -/
def PReg.domain : PReg → Domain
  | .baseFreq => .unit
  | .freqLimit => .unit
  | .freqRamp => .bipolar
  | .freqDramp => .bipolar
  | .duty => .unit
  | .dutyRamp => .bipolar
  | .vibStrength => .unit
  | .vibSpeed => .unit
  | .arpSpeed => .unit
  | .arpMod => .bipolar
  | .envAttack => .unit
  | .envSustain => .unit
  | .envDecay => .unit
  | .envPunch => .unit
  | .lpfFreq => .unit
  | .lpfRamp => .bipolar
  | .lpfResonance => .unit
  | .hpfFreq => .unit
  | .hpfRamp => .bipolar
  | .phaOffset => .bipolar
  | .phaRamp => .bipolar
  | .repeatSpeed => .unit
  | .pitchHz => .nonneg
  | .tAttack => .nonneg
  | .tDecay => .nonneg
  | .tSustain => .nonneg
  | .tRelease => .nonneg
  | .tSustainLevel => .unit
  | .tblDuty => .unit
  | .uPhase => .finite
  | .uTime => .nonneg
  | .uDuty => .unit

/-- A value lies in a domain (60_exceptions.md R443). -/
def Domain.admits : Domain → F64 → Bool
  | .unit, v => v.inUnit
  | .bipolar, v => v.inBipolar
  | .nonneg, v => v.isNonneg
  | .finite, v => v.isFinite

/-- `x[NAME]` of a parameter register (00_scope.md R15). -/
def Params.get (p : Params) : PReg → F64
  | .baseFreq => p.baseFreq
  | .freqLimit => p.freqLimit
  | .freqRamp => p.freqRamp
  | .freqDramp => p.freqDramp
  | .duty => p.duty
  | .dutyRamp => p.dutyRamp
  | .vibStrength => p.vibStrength
  | .vibSpeed => p.vibSpeed
  | .arpSpeed => p.arpSpeed
  | .arpMod => p.arpMod
  | .envAttack => p.envAttack
  | .envSustain => p.envSustain
  | .envDecay => p.envDecay
  | .envPunch => p.envPunch
  | .lpfFreq => p.lpfFreq
  | .lpfRamp => p.lpfRamp
  | .lpfResonance => p.lpfResonance
  | .hpfFreq => p.hpfFreq
  | .hpfRamp => p.hpfRamp
  | .phaOffset => p.phaOffset
  | .phaRamp => p.phaRamp
  | .repeatSpeed => p.repeatSpeed
  | .pitchHz => p.pitchHz
  | .tAttack => p.tAttack
  | .tDecay => p.tDecay
  | .tSustain => p.tSustain
  | .tRelease => p.tRelease
  | .tSustainLevel => p.tSustainLevel
  | .tblDuty => p.tblDuty
  | .uPhase => p.uPhase
  | .uTime => p.uTime
  | .uDuty => p.uDuty

/-- `x[NAME] <- v` of a parameter register (00_scope.md R15). -/
def Params.set (p : Params) (r : PReg) (v : F64) : Params :=
  match r with
  | .baseFreq => { p with baseFreq := v }
  | .freqLimit => { p with freqLimit := v }
  | .freqRamp => { p with freqRamp := v }
  | .freqDramp => { p with freqDramp := v }
  | .duty => { p with duty := v }
  | .dutyRamp => { p with dutyRamp := v }
  | .vibStrength => { p with vibStrength := v }
  | .vibSpeed => { p with vibSpeed := v }
  | .arpSpeed => { p with arpSpeed := v }
  | .arpMod => { p with arpMod := v }
  | .envAttack => { p with envAttack := v }
  | .envSustain => { p with envSustain := v }
  | .envDecay => { p with envDecay := v }
  | .envPunch => { p with envPunch := v }
  | .lpfFreq => { p with lpfFreq := v }
  | .lpfRamp => { p with lpfRamp := v }
  | .lpfResonance => { p with lpfResonance := v }
  | .hpfFreq => { p with hpfFreq := v }
  | .hpfRamp => { p with hpfRamp := v }
  | .phaOffset => { p with phaOffset := v }
  | .phaRamp => { p with phaRamp := v }
  | .repeatSpeed => { p with repeatSpeed := v }
  | .pitchHz => { p with pitchHz := v }
  | .tAttack => { p with tAttack := v }
  | .tDecay => { p with tDecay := v }
  | .tSustain => { p with tSustain := v }
  | .tRelease => { p with tRelease := v }
  | .tSustainLevel => { p with tSustainLevel := v }
  | .tblDuty => { p with tblDuty := v }
  | .uPhase => { p with uPhase := v }
  | .uTime => { p with uTime := v }
  | .uDuty => { p with uDuty := v }

/-- The effect registers 0x100 to 0x1A8, in order of offset (10_state.md R47). -/
def effectRegs : List PReg :=
  [.baseFreq, .freqLimit, .freqRamp, .freqDramp, .duty, .dutyRamp, .vibStrength, .vibSpeed, .arpSpeed, .arpMod, .envAttack,
   .envSustain, .envDecay, .envPunch, .lpfFreq, .lpfRamp, .lpfResonance, .hpfFreq, .hpfRamp, .phaOffset, .phaRamp, .repeatSpeed]

/-- The tone and unit-operand registers 0x200 to 0x248, in order of offset (10_state.md R49, R50). -/
def toneRegs : List PReg :=
  [.pitchHz, .tAttack, .tDecay, .tSustain, .tRelease, .tSustainLevel, .tblDuty, .uPhase, .uTime, .uDuty]

/-- Every parameter register, in order of offset. -/
def allRegs : List PReg := effectRegs ++ toneRegs

/-- A register's value in a snapshot lies in its domain. -/
def Snapshot.inDomain (o : Snapshot) (r : PReg) : Bool := r.domain.admits (o.params.get r)

/-- The first register of a list whose value is outside its domain; the lists are in ascending order of offset
(60_exceptions.md R443). -/
def Snapshot.firstBad (o : Snapshot) (regs : List PReg) : Option PReg := regs.find? (fun r => !o.inDomain r)

/-- The domain check at the start of a complete step (60_exceptions.md R443): the rest of the command runs only when
every register of the list is in its domain, else INVALID_PARAMETER with the lowest failing offset. -/
def State.checked (s : State) (regs : List PReg) (rest : State) : State :=
  match s.operands.firstBad regs with
  | some r => s.raiseError .invalidParameter (BitVec.ofNat 32 r.offset)
  | none => rest

/-- The wave kinds (10_state.md R48, 30_encoding.md R142). -/
inductive Wave where
  | square
  | sawtooth
  | sine
  | noise
  deriving DecidableEq, Repr

/-- The wave kind of a 2-bit WAVE or SEL field: 0 Square, 1 Sawtooth, 2 Sine, 3 Noise. -/
def Wave.ofBits (b : BitVec 2) : Wave :=
  if b = 0 then .square else if b = 1 then .sawtooth else if b = 2 then .sine else .noise

/-- The table presets (30_encoding.md R142). -/
inductive Preset where
  | sine
  | square
  | saw
  | triangle
  deriving DecidableEq, Repr

/-- The preset of a SEL field: 0 sine, 1 square, 2 saw, 3 triangle. -/
def Preset.ofBits (b : BitVec 2) : Preset :=
  if b = 0 then .sine else if b = 1 then .square else if b = 2 then .saw else .triangle

end Machine
end Sys2Proof
end

