-- ==== Sys2Proof/Machine/Parameters.lean ====
section
/-! DEFINITION. The configuration parameters of 92_eei_decisions.md table P: their constraints (`Config.Legal`), the
configuration the machine runs with (`Config.machine`: unknown values that meet the constraints, log entry 1), and the
reference configuration of table P (`Config.reference`), which no rule of the machine uses. -/

namespace Sys2Proof
namespace Config

/-- The operands on which 2^x is a normal binary64 number, where `POW2` is constrained (log entry 13). -/
def pow2Domain (x : F64) : Bool :=
  F64.inRange ⟨0xC08FF00000000000#64⟩ ⟨0x408FF80000000000#64⟩ x

/-- A finite value that is an integer. -/
def isIntegral (x : F64) : Bool := x.isFinite && x.eq (F64.ofInt x.floor)

/-- The binary64 value of 2^k for -1022 <= k <= 1023. -/
def exactPow2 (k : Int) : F64 := ⟨BitVec.ofNat 64 ((k + 1023).toNat * 2 ^ 52)⟩

/-- A finite value above 0. -/
def isPositive (x : F64) : Bool := x.isFinite && F64.zero.lt x

/-- A value equal to 0.0: both zeros, as `==` of 00_scope.md R16 reads it. -/
def isZero (x : F64) : Bool := x.eq F64.zero

/-- The operand domain (0, 1] of `REPEAT_SEG` (P21). -/
def repeatDomain (r : F64) : Bool := r.isFinite && F64.zero.lt r && r.le F64.one

/-- The operands of `EFFECT_ENV` (P6) that an effect command can give it: durations and a time that are finite and
>= 0, and a punch in [0, 1] (41_envelope.md R251, R252). -/
def envDomain (a s d pu t : F64) : Bool :=
  a.isNonneg && s.isNonneg && d.isNonneg && pu.inUnit && t.isNonneg

/-- The end `W = (A + S) + D` of the effect envelope (41_envelope.md R251). -/
def envEnd (a s d : F64) : F64 := (a.add s).add d

/-- The range [0, 1 + PU] of the effect envelope (41_envelope.md R252). -/
def envRange (pu v : F64) : Bool := F64.inRange F64.zero (F64.one.add pu) v

/-- The constraints of table P, and those of the rules table P refers to. -/
structure Legal (c : Config) : Prop where
  pcmCap_even : c.pcmCap % 2 = 0
  pcmCap_low : 2 ≤ c.pcmCap
  pcmCap_high : c.pcmCap ≤ 0x180000
  sin_range : ∀ x, (c.sin x).inBipolar = true
  pow2_integral : ∀ x, pow2Domain x = true → isIntegral x = true → c.pow2 x = exactPow2 x.floor
  pow2_positive : ∀ x, pow2Domain x = true → isIntegral x = false → isPositive (c.pow2 x) = true
  decayShape_zero : c.decayShape F64.zero = F64.zero
  /-- DEDUCED: P5's `DECAY_SHAPE(0) = 0` binds the operand -0.0 too, which U_TIME admits, as a number: the value there
  is one of the two zeros. 41_envelope.md R243 has the value 1.0 at every `t = B1` (log entry 26). -/
  decayShape_zeros : ∀ u, isZero u = true → isZero (c.decayShape u) = true
  /-- P5 says this on [0, 1). `(t - B1) / D` can round to 1.0, and 41_envelope.md R249 keeps the envelope in range there
  too (log entry 14). -/
  decayShape_range : ∀ u, u.inUnit = true → (c.decayShape u).inUnit = true
  effectEnv_attack : ∀ a s d pu t, envDomain a s d pu t = true → t.lt a = true →
    c.effectEnv a s d pu t = t.div a
  effectEnv_end : ∀ a s d pu t, envDomain a s d pu t = true → t.lt a = false → (envEnd a s d).le t = true →
    c.effectEnv a s d pu t = F64.zero
  effectEnv_range : ∀ a s d pu t, envDomain a s d pu t = true → t.lt a = false → (envEnd a s d).le t = false →
    envRange pu (c.effectEnv a s d pu t) = true
  envTime_range : ∀ v, v.inUnit = true → (c.envTime v).isNonneg = true
  freqMap_range : ∀ v, v.inUnit = true → (c.freqMap v).isNonneg = true
  limitMap_range : ∀ v, v.inUnit = true → (c.limitMap v).isNonneg = true
  frampMap_range : ∀ r, r.inBipolar = true → (c.frampMap r).isFinite = true
  fdrampMap_range : ∀ d, d.inBipolar = true → (c.fdrampMap d).isFinite = true
  arpFrac_range : ∀ s, s.inUnit = true → (c.arpFrac s).inUnit = true
  noiseSegs_low : 1 ≤ c.noiseSegs
  rngNext_range : ∀ s, (c.rngNext s).1.inBipolar = true
  lpfAlpha_range : ∀ v, v.inUnit = true → (c.lpfAlpha v).inUnit = true
  resFb_range : ∀ r, r.inUnit = true → (c.resFb r).inUnit = true
  resFb_zero : c.resFb F64.zero = F64.zero
  /-- DESIGN CHOICE: P16's `RES_FB(0) = 0` binds the operand -0.0 too, which LPF_RESONANCE admits: the value there is
  one of the two zeros. 44_filter.md R333 does not say (log entry 27). -/
  resFb_zeros : ∀ r, isZero r = true → isZero (c.resFb r) = true
  hpfAlpha_range : ∀ v, v.inUnit = true → (c.hpfAlpha v).inUnit = true
  phaserLen_low : 2 ≤ c.phaserLen
  phaScale_range : c.phaScale.isNonneg = true
  phaWet_finite : c.phaWet.isFinite = true
  repeatSeg_low : ∀ r, repeatDomain r = true → 1 ≤ c.repeatSeg r
  masterGain_range : isPositive c.masterGain = true
  wrapNonFinite_range : ∀ x, x.isFinite = false → (c.wrapNonFinite x).isPhase = true

/-- A function kept inside `cod` on `dom`: where it leaves `cod` it answers `dflt`. -/
def restrict (dom cod : F64 → Bool) (dflt : F64) (f : F64 → F64) (x : F64) : F64 :=
  if dom x && !cod (f x) then dflt else f x

/-- A function that answers `v` at the encoding `x0`. Used at +0.0, where the spec writes the value; what holds at the
other zero is the model's reading, in `zeroAtZero` (log entries 26, 27). -/
def pinAt (x0 v : F64) (f : F64 → F64) (x : F64) : F64 := if x = x0 then v else f x

/-- A function from [0, 1] to [0, 1] that takes zero to zero: 0.0 to 0.0, and -0.0, which the register domains admit
(60_exceptions.md R443), to one of the two zeros (log entries 26, 27). -/
def zeroAtZero (f : F64 → F64) : F64 → F64 :=
  pinAt F64.zero F64.zero (restrict isZero isZero F64.zero (restrict F64.inUnit F64.inUnit F64.zero f))

/-- A value kept inside `ok`. -/
def keep {α : Type} (ok : α → Bool) (dflt v : α) : α := if ok v then v else dflt

/-- P1's constraint: even, 2 <= PCM_CAP <= 0x180000. -/
def pcmCapOk (n : Nat) : Bool := n % 2 == 0 && decide (2 ≤ n) && decide (n ≤ 0x180000)

/-- `POW2` kept to its constraints. -/
def legalPow2 (f : F64 → F64) (x : F64) : F64 :=
  if pow2Domain x then
    if isIntegral x then exactPow2 x.floor else keep isPositive F64.one (f x)
  else f x

/-- `EFFECT_ENV` kept to the constraints of 41_envelope.md R252. -/
def legalEffectEnv (f : F64 → F64 → F64 → F64 → F64 → F64) (a s d pu t : F64) : F64 :=
  if envDomain a s d pu t then
    if t.lt a then t.div a
    else if (envEnd a s d).le t then F64.zero
    else keep (envRange pu) F64.zero (f a s d pu t)
  else f a s d pu t

/-- `RNG_NEXT` kept to values in [-1, 1]. -/
def legalRngNext (f : RngState → F64 × RngState) (s : RngState) : F64 × RngState :=
  (keep F64.inBipolar F64.zero (f s).1, (f s).2)

/-- `REPEAT_SEG` kept to lengths of at least 1 on (0, 1]. -/
def legalRepeatSeg (f : F64 → Nat) (r : F64) : Nat := if repeatDomain r then max 1 (f r) else f r

/-- The configuration with every parameter kept to its constraints. A configuration that meets them all is unchanged
(Laws/Parameters.lean, `legalise_of_legal`), so no implementation is left out. -/
def legalise (c : Config) : Config where
  pcmCap := keep pcmCapOk 2 c.pcmCap
  sin := restrict (fun _ => true) F64.inBipolar F64.zero c.sin
  pow2 := legalPow2 c.pow2
  shortPolicy := c.shortPolicy
  decayShape := zeroAtZero c.decayShape
  effectEnv := legalEffectEnv c.effectEnv
  envTime := restrict F64.inUnit F64.isNonneg F64.zero c.envTime
  freqMap := restrict F64.inUnit F64.isNonneg F64.zero c.freqMap
  limitMap := restrict F64.inUnit F64.isNonneg F64.zero c.limitMap
  frampMap := restrict F64.inBipolar F64.isFinite F64.zero c.frampMap
  fdrampMap := restrict F64.inBipolar F64.isFinite F64.zero c.fdrampMap
  arpFrac := restrict F64.inUnit F64.inUnit F64.zero c.arpFrac
  noiseSegs := max 1 c.noiseSegs
  rngNext := legalRngNext c.rngNext
  lpfAlpha := restrict F64.inUnit F64.inUnit F64.zero c.lpfAlpha
  resFb := zeroAtZero c.resFb
  hpfAlpha := restrict F64.inUnit F64.inUnit F64.zero c.hpfAlpha
  phaserLen := max 2 c.phaserLen
  phaScale := keep F64.isNonneg F64.zero c.phaScale
  phaWet := keep F64.isFinite F64.zero c.phaWet
  repeatSeg := legalRepeatSeg c.repeatSeg
  masterGain := keep isPositive F64.one c.masterGain
  wrapNonFinite := restrict (fun x => !x.isFinite) F64.isPhase F64.zero c.wrapNonFinite

/-- The configuration the machine runs with: unknown, and legal (log entry 1). -/
def machine : Config := legalise raw

/-! ## The reference configuration of table P

A configuration for tests only. `SIN` and `POW2` are arguments, because their reference values are functions of a C
library that the spec does not write out. -/

/-- 3528.0 (43_modulation.md R301). -/
def refHz : F64 := ⟨0x40AB900000000000#64⟩

/-- `FREQ_MAP(v) = 3528.0 * ((v * v) + 0.001)` (43_modulation.md R301). -/
def refFreqMap (v : F64) : F64 := refHz.mul ((v.mul v).add (F64.lit 1 1000))

/-- `LIMIT_MAP(v) = if v > 0.0 then FREQ_MAP(v) else 0.0` (43_modulation.md R301). -/
def refLimitMap (v : F64) : F64 := if F64.zero.lt v then refFreqMap v else F64.zero

/-- The reference effect envelope (41_envelope.md R252). -/
def refEffectEnv (a s d pu t : F64) : F64 :=
  let e2 := a.add s
  let w := e2.add d
  if t.lt a then t.div a
  else if t.lt e2 then F64.one
  else if t.lt w then (F64.one.add pu).mul (F64.one.sub ((t.sub e2).div d))
  else F64.zero

/-- The reference generator, a 64-bit linear congruential one (42_oscillator.md R279). -/
def refRngNext (s : RngState) : F64 × RngState :=
  let s' := s * 6364136223846793005#64 + 1442695040888963407#64
  ((((F64.ofNat (s' >>> 11).toNat).mul ⟨0x3CA0000000000000#64⟩).mul F64.two).sub F64.one, s')

/-- `REPEAT_SEG(r) = floor(((1.0 - r) * (1.0 - r)) * 20000.0) + 32` (46_repeat.md R370). -/
def refRepeatSeg (r : F64) : Nat :=
  ((((F64.one.sub r).mul (F64.one.sub r)).mul ⟨0x40D3880000000000#64⟩).floor + 32).toNat

/-- The reference values of table P, with `SIN` and `POW2` given. -/
def reference (sinRef pow2Ref : F64 → F64) : Config where
  pcmCap := 1048576
  sin := sinRef
  pow2 := pow2Ref
  shortPolicy := .reject
  decayShape := fun u => u
  effectEnv := refEffectEnv
  envTime := fun v => v
  freqMap := refFreqMap
  limitMap := refLimitMap
  frampMap := fun r => refHz.mul r
  fdrampMap := fun d => refHz.mul d
  arpFrac := fun s => F64.one.sub s
  noiseSegs := 32
  rngNext := refRngNext
  lpfAlpha := fun c => c
  resFb := fun r => r
  hpfAlpha := fun c => c
  phaserLen := 32
  phaScale := ⟨0x403F000000000000#64⟩
  phaWet := F64.one
  repeatSeg := refRepeatSeg
  masterGain := F64.half
  wrapNonFinite := fun _ => F64.zero

end Config
end Sys2Proof
end

