-- ==== Sys2Proof/Machine/Waveform.lean ====
section
/-! DEFINITION. The waveform table (40_waveform_table.md): staging, presets, commit, interpolated lookup, and the
commands TBL_PRESET, TBL_COMMIT, STG_CLEAR and LOOKUP. -/

namespace Sys2Proof
namespace Machine

/-! ## Staging -/

/-- Append one value to the staging buffer (40_waveform_table.md R201, 10_state.md R54). -/
def State.stage (s : State) (v : Sample) : State :=
  { s with
    stg := if h : s.stgCount.toNat < 1024 then s.stg.set s.stgCount.toNat v h else s.stg
    stgCount := if s.stgCount.toNat < 2 ^ 32 - 1 then s.stgCount + 1 else s.stgCount }

/-- `STG[k]` (10_state.md R54); no rule reads it at 1024 or above. -/
def State.stgAt (s : State) (k : Nat) : Sample := if h : k < 1024 then s.stg[k] else 0

/-! ## Presets -/

/-- The preset generators of R204. -/
def presetAt (cfg : Config) (d p : F64) : Preset → F64
  | .sine => cfg.sin (p.mul F64.twoPi)
  | .square => if p.lt d then F64.one else F64.minusOne
  | .saw => (F64.two.mul p).sub F64.one
  | .triangle => F64.one.sub (F64.four.mul (p.sub F64.half).abs)

/-- The sample point `p_i = real(i) / 1023.0` (R203). -/
def tablePoint (i : Nat) : F64 := (F64.ofNat i).div F64.tableSpan

/-- The table of a preset (R205). -/
def presetTable (cfg : Config) (preset : Preset) (d : F64) : List Sample :=
  (List.range 1024).map (fun i => (presetAt cfg d (tablePoint i) preset).tconv)

/-- The registers TBL_PRESET checks (60_exceptions.md R443). -/
def presetOperands : Preset → List PReg
  | .square => [.tblDuty]
  | .sine => []
  | .saw => []
  | .triangle => []

/-- The complete step of TBL_PRESET (R207). -/
def tblPresetStep (cfg : Config) (sel : BitVec 2) (s : State) : State :=
  s.checked (presetOperands (.ofBits sel))
    ((s.storeTable (presetTable cfg (.ofBits sel) s.operands.params.tblDuty)).finish .none)

/-! ## Commit -/

/-- One entry under the RESAMPLE policy (R211). -/
def resampleAt (stg : Nat → Sample) (n k : Nat) : Sample :=
  if n = 1 then stg 0
  else
    let x := ((F64.ofNat k).mul (F64.ofNat (n - 1))).div F64.tableSpan
    let j := (min x.floor ((n : Int) - 2)).toNat
    let fr := x.sub (F64.ofNat j)
    BitVec.ofInt 16
      ((F64.ofInt (stg j).toInt).add (fr.mul (F64.ofInt ((stg (j + 1)).toInt - (stg j).toInt)))).floor

/-- The table made from 1 <= n < 1024 staged values, or none where the policy rejects them (R211). -/
def shortTable (policy : ShortPolicy) (stg : Nat → Sample) (n : Nat) : Option (List Sample) :=
  match policy with
  | .reject => none
  | .zeroPad => some ((List.range 1024).map (fun k => if k < n then stg k else 0))
  | .repeatSeq => some ((List.range 1024).map (fun k => stg (k % n)))
  | .resample => some ((List.range 1024).map (resampleAt stg n))

/-- The commit source rule (R210): the table, or the error. -/
def commitTable (cfg : Config) (stg : Nat → Sample) (n : Nat) : Except ErrCode (List Sample) :=
  if n = 0 then .error .emptyWavetable
  else if n < 1024 then
    match shortTable cfg.shortPolicy stg n with
    | none => .error .shortWavetable
    | some vs => .ok vs
  else .ok ((List.range 1024).map stg)

/-- The complete step of TBL_COMMIT (R212). -/
def tblCommitStep (cfg : Config) (s : State) : State :=
  match commitTable cfg s.stgAt s.operands.stgCount.toNat with
  | .error code => s.raiseError code 0
  | .ok vs => { (s.storeTable vs).finish .none with stgCount := 0 }

/-- The complete step of STG_CLEAR (R215). -/
def stgClearStep (s : State) : State := { s.finish .none with stgCount := 0 }

/-! ## Lookup -/

/-- `lookup(phase)` (R216) over a table. -/
def lookupAt (cfg : Config) (tbl : Nat → Sample) (phase : F64) : F64 :=
  let p := phase.wrap cfg
  let xk := p.mul F64.tableSpan
  let k := min xk.floor 1022
  let fr := xk.sub (F64.ofInt k)
  let lo := (tbl k.toNat).toInt
  let hi := (tbl (k.toNat + 1)).toInt
  (F64.ofInt lo).add (fr.mul (F64.ofInt (hi - lo)))

/-- The complete step of LOOKUP (R218). -/
def lookupStep (cfg : Config) (s : State) : State :=
  s.checked [.uPhase] (s.finishResult (lookupAt cfg s.tbl s.operands.params.uPhase))

/-! ## The commands -/

/-- TBL_PRESET (R207). -/
def execTblPreset (sel : BitVec 2) (s : State) : Host.Outcome State Fault Refusal :=
  .next (tblPresetStep Config.machine sel s)

/-- TBL_COMMIT (R212). -/
def execTblCommit (s : State) : Host.Outcome State Fault Refusal := .next (tblCommitStep Config.machine s)

/-- STG_CLEAR (R215). -/
def execStgClear (s : State) : Host.Outcome State Fault Refusal := .next (stgClearStep s)

/-- LOOKUP (R218). -/
def execLookup (s : State) : Host.Outcome State Fault Refusal := .next (lookupStep Config.machine s)

end Machine
end Sys2Proof
end

