-- ==== Sys2Proof/Machine/Bus.lean ====
section
/-! DEFINITION. The host's accesses: the address map (20_memory.md R100 to R104), what a read returns, what a write does
idle and BUSY (10_state.md R31 to R52), misaligned accesses (60_exceptions.md R452), and the passing of time between
the core's complete steps (20_memory.md R109). -/

namespace Sys2Proof
namespace Machine

/-- What stands at an aligned offset of the host window (20_memory.md R100). -/
inductive Loc where
  | id | cmd | status | len | irqEn | ctrl | rngLo | rngHi | stgCount | smpIn | fnInLo | fnInHi
  | durationLo | durationHi | resultLo | resultHi | note | sampleRate | errAddr | caps | waveType
  /-- The low word of a parameter register. -/
  | paramLo (r : PReg)
  /-- The high word of a parameter register. -/
  | paramHi (r : PReg)
  /-- A word of the table or PCM window, at this byte offset. -/
  | sampleWord (a : Nat)
  /-- Reserved, RAZ/WI. -/
  | reserved
  deriving DecidableEq, Repr

/-- The control and status registers (10_state.md R31 to R46). -/
def controlMap : List (Nat × Loc) :=
  [(0x000, .id), (0x004, .cmd), (0x008, .status), (0x00C, .len), (0x010, .irqEn), (0x014, .ctrl), (0x018, .rngLo),
   (0x01C, .rngHi), (0x020, .stgCount), (0x024, .smpIn), (0x028, .fnInLo), (0x02C, .fnInHi), (0x030, .durationLo),
   (0x034, .durationHi), (0x038, .resultLo), (0x03C, .resultHi), (0x040, .note), (0x044, .sampleRate),
   (0x048, .errAddr), (0x04C, .caps)]

/-- The low and high words of the parameter registers (10_state.md R47, R49, R50), and WAVE_TYPE (R48). -/
def paramMap : List (Nat × Loc) :=
  allRegs.map (fun r => (r.offset, .paramLo r)) ++ allRegs.map (fun r => (r.offset + 4, .paramHi r)) ++
    [(0x1B0, .waveType)]

/-- Every register of the host window, by offset. -/
def registerMap : List (Nat × Loc) := controlMap ++ paramMap

/-- The address map (20_memory.md R100) on an aligned offset. -/
def locOf (cfg : Config) (a : Nat) : Loc :=
  if tblBase ≤ a ∧ a < tblBase + 2048 then .sampleWord a
  else if pcmBase ≤ a ∧ a < pcmBase + 2 * cfg.pcmCap then .sampleWord a
  else (registerMap.lookup a).getD .reserved

/-- A word of a sample window (20_memory.md R101, R102). -/
def State.windowWord (s : State) (a : Nat) : Word := s.sampleAt (a + 2) ++ s.sampleAt a

/-- The locations whose reads return any value while BUSY (70_reset_and_hazards.md R490). -/
def Loc.isResult : Loc → Bool
  | .len | .durationLo | .durationHi | .resultLo | .resultHi | .errAddr | .rngLo | .rngHi | .stgCount => true
  | .paramLo .pitchHz | .paramHi .pitchHz => true
  | .sampleWord _ => true
  | _ => false

/-- The current contents of a location, as a read returns them while idle (10_state.md R31 to R50; write-only and
reserved locations read 0, 20_memory.md R104). -/
def State.readLoc (cfg : Config) (s : State) : Loc → Word
  | .id => 0x50465831#32
  | .cmd => 0
  | .status => s.statusWord
  | .len => s.len
  | .irqEn => s.irqEn.setWidth 32
  | .ctrl => 0
  | .rngLo => s.rng.extractLsb' 0 32
  | .rngHi => s.rng.extractLsb' 32 32
  | .stgCount => s.stgCount
  | .smpIn => 0
  | .fnInLo => 0
  | .fnInHi => 0
  | .durationLo => s.duration.lowWord
  | .durationHi => s.duration.highWord
  | .resultLo => s.result.lowWord
  | .resultHi => s.result.highWord
  | .note => s.note
  | .sampleRate => 44100#32
  | .errAddr => s.errAddr
  | .caps => BitVec.ofNat 32 cfg.pcmCap
  | .waveType => s.waveType.setWidth 32
  | .paramLo r => (s.params.get r).lowWord
  | .paramHi r => (s.params.get r).highWord
  | .sampleWord a => s.windowWord a
  | .reserved => 0

/-- What a read returns: while BUSY, any value `v` for a result, and for the result fields of STATUS
(70_reset_and_hazards.md R490, log entry 3); otherwise the current contents. -/
def State.busRead (cfg : Config) (s : State) (v : Word) (l : Loc) : Word :=
  if s.busy then
    if l = .status then s.busyStatusWord v else if l.isResult then v else s.readLoc cfg l
  else s.readLoc cfg l

/-- A write that only a block that is not BUSY performs; while BUSY it is dropped and sets OVR (10_state.md R52). -/
def State.whenIdle (s t : State) : State := if s.busy then s.dropWrite else t

/-- A write of `v` to a location (10_state.md R31 to R52); writes to read-only and reserved locations are ignored
(20_memory.md R104). CTRL.SRST performs the soft reset (70_reset_and_hazards.md R481). -/
def State.writeLoc (s : State) (v : Word) : Loc → State
  | .cmd => s.whenIdle (s.accept v)
  | .status => s.ackStatus v
  | .irqEn => { s with irqEn := v.extractLsb' 0 3 }
  | .ctrl => if v.getLsbD 0 then s.toReset else s
  | .rngLo => s.whenIdle { s with rng := rngWithLow s.rng v }
  | .rngHi => s.whenIdle { s with rng := rngWithHigh s.rng v }
  | .smpIn => s.whenIdle (s.stage (v.extractLsb' 0 16))
  | .fnInLo => s.whenIdle { s with fnInLo := v }
  | .fnInHi => s.whenIdle (s.stage (F64.ofWords v s.fnInLo).tconv)
  | .note => { s with note := v }
  | .waveType => { s with waveType := v.extractLsb' 0 2 }
  | .paramLo r => { s with params := s.params.set r ((s.params.get r).withLow v) }
  | .paramHi r => { s with params := s.params.set r ((s.params.get r).withHigh v) }
  | .id | .len | .stgCount | .durationLo | .durationHi | .resultLo | .resultHi | .sampleRate | .errAddr | .caps => s
  | .sampleWord _ => s
  | .reserved => s

/-- PRDATA of the last completed access, where it was a read (20_memory.md R103, R114). -/
def BusResponse.prdata : BusResponse → Option Word
  | .none => .none
  | .readOk data => some data
  | .writeOk => .none
  | .readError => some 0
  | .writeError => .none

/-- PSLVERR of the last completed access (60_exceptions.md R452). -/
def BusResponse.pslverr : BusResponse → Bool
  | .none => false
  | .readOk _ => false
  | .writeOk => false
  | .readError => true
  | .writeError => true

/-- Misaligned: `a[1:0] != 0` (20_memory.md R103). -/
def misaligned (a : Offset) : Bool := a.toNat % 4 != 0

/-- One host event (20_memory.md R103, R104, R109): its effect and the response on the bus. A read moves the model's
counter on, so that the next free value is another one (log entry 18). -/
def State.hostEvent (cfg : Config) (s : State) : HostEvent → State
  | .read a =>
    if misaligned a then { s with response := .readError }
    else { s with
      response := .readOk (s.busRead cfg (Config.busyRead s.free) (locOf cfg a.toNat))
      free := s.free + 1 }
  | .write a v =>
    if misaligned a then { s with response := .writeError }
    else { s.writeLoc v (locOf cfg a.toNat) with response := .writeOk }
  | .presetn => s.toReset

/-- One step of latency passes (70_reset_and_hazards.md R497, log entry 2). -/
def Sequencer.tick : Sequencer → Sequencer
  | .idle => .idle
  | .busy w snap n => .busy w snap (n - 1)

/-- One step in which the core completes nothing: the next host event, if there is one, happens, and one step of the
latency passes (20_memory.md R109). An idle block with no event to come stays as it is (60_exceptions.md R460). -/
def State.elapse (cfg : Config) (s : State) : State :=
  match s.inputs with
  | [] => { s with seq := s.seq.tick }
  | e :: es => State.hostEvent cfg { s with inputs := es, seq := s.seq.tick } e

end Machine
end Sys2Proof
end

