-- ==== Sys2Proof/Machine/Note.lean ====
section
/-! DEFINITION. The note resolver and the control command NOP (48_note_and_control.md). -/

namespace Sys2Proof
namespace Machine

/-- The four bytes of `NOTE`, first character first (10_state.md R43). -/
def noteBytes (w : Word) : List Byte :=
  [w.extractLsb' 0 8, w.extractLsb' 8 8, w.extractLsb' 16 8, w.extractLsb' 24 8]

/-- The note string: up to the first zero byte, or all four (R420). -/
def noteString (w : Word) : List Byte := (noteBytes w).takeWhile (fun b => b != 0)

/-- The letter offsets of R423, for `A` (0x41) to `G` (0x47); none for another character (R422). -/
def letterOffset (b : Byte) : Option Int :=
  if b = 0x43#8 then some (-9)
  else if b = 0x44#8 then some (-7)
  else if b = 0x45#8 then some (-5)
  else if b = 0x46#8 then some (-4)
  else if b = 0x47#8 then some (-2)
  else if b = 0x41#8 then some 0
  else if b = 0x42#8 then some 2
  else none

/-- The accidental: `#` (0x23) +1, `b` (0x62) -1 (R422, R423). -/
def accidentalOffset (b : Byte) : Option Int :=
  if b = 0x23#8 then some 1 else if b = 0x62#8 then some (-1) else none

/-- The octave term of R423: 12 * (octave - 4) for a digit `0` to `8` (0x30 to 0x38) (R422). -/
def octaveOffset (b : Byte) : Option Int :=
  if 0x30 ≤ b.toNat ∧ b.toNat ≤ 0x38 then some (12 * ((b.toNat : Int) - 0x30 - 4)) else none

/-- The semitone offset of a note name, or none where the string does not match the grammar (R422, R423). -/
def noteOffset : List Byte → Option Int
  | [l, o] =>
    match letterOffset l, octaveOffset o with
    | some x, some z => some (x + z)
    | _, _ => none
  | [l, a, o] =>
    match letterOffset l, accidentalOffset a, octaveOffset o with
    | some x, some y, some z => some (x + y + z)
    | _, _, _ => none
  | _ => none

/-- `freq = 440.0 * POW2(real(offset) / 12.0)` (R423). -/
def noteFrequency (cfg : Config) (offset : Int) : F64 :=
  F64.concertA.mul (cfg.pow2 ((F64.ofInt offset).div F64.twelve))

/-- The complete step of NOTE_RESOLVE (R424). -/
def noteResolveStep (cfg : Config) (s : State) : State :=
  match noteOffset (noteString s.operands.note) with
  | none => s.raiseError .invalidNote 0
  | some k =>
    { s.finishResult (noteFrequency cfg k) with params := { s.params with pitchHz := noteFrequency cfg k } }

/-- NOTE_RESOLVE (R424). -/
def execNoteResolve (s : State) : Host.Outcome State Fault Refusal := .next (noteResolveStep Config.machine s)

/-- NOP (R421): it completes, and does nothing else. -/
def execNop (s : State) : Host.Outcome State Fault Refusal := .next (s.finish .none)

end Machine
end Sys2Proof
end

