-- ==== Sys2Proof/Machine/Envelope.lean ====
section
/-! DEFINITION. The envelopes (41_envelope.md) and the command ENV_EVAL. -/

namespace Sys2Proof
namespace Machine

/-- The end `B4 = ((A + D) + S) + R` of the tone envelope (R241). -/
def toneEnd (a d sus r : F64) : F64 := ((a.add d).add sus).add r

/-- `tone_env(t)` (R241, R242), from the tone registers. -/
def toneEnv (cfg : Config) (p : Params) (t : F64) : F64 :=
  let b1 := p.tAttack
  let b2 := b1.add p.tDecay
  let b3 := b2.add p.tSustain
  let b4 := b3.add p.tRelease
  let l := p.tSustainLevel
  if t.lt b1 then t.div p.tAttack
  else if t.lt b2 then F64.one.add ((l.sub F64.one).mul (cfg.decayShape ((t.sub b1).div p.tDecay)))
  else if t.lt b3 then l
  else if t.lt b4 then l.mul (F64.one.sub ((t.sub b3).div p.tRelease))
  else F64.zero

/-- `effect_env(t)` (R251, R252), from the effect registers. -/
def effectEnv (cfg : Config) (p : Params) (t : F64) : F64 :=
  cfg.effectEnv (cfg.envTime p.envAttack) (cfg.envTime p.envSustain) (cfg.envTime p.envDecay) p.envPunch t

/-- The end `W = (A + S) + D` of the effect envelope (R251). -/
def effectEnd (cfg : Config) (p : Params) : F64 :=
  Config.envEnd (cfg.envTime p.envAttack) (cfg.envTime p.envSustain) (cfg.envTime p.envDecay)

/-- The registers ENV_EVAL checks, by SEL[0] (60_exceptions.md R443). -/
def envOperands (effect : Bool) : List PReg :=
  if effect then [.envAttack, .envSustain, .envDecay, .envPunch, .uTime]
  else [.tAttack, .tDecay, .tSustain, .tRelease, .tSustainLevel, .uTime]

/-- The envelope ENV_EVAL evaluates, by SEL[0] (R250). -/
def envValue (cfg : Config) (effect : Bool) (p : Params) : F64 :=
  if effect then effectEnv cfg p p.uTime else toneEnv cfg p p.uTime

/-- The complete step of ENV_EVAL (R250). A term with SEL[1] = 1 is no command: ILLEGAL_COMMAND, as its word would be
(30_encoding.md R145, log entry 24). -/
def envEvalStep (cfg : Config) (sel : BitVec 2) (s : State) : State :=
  if sel.getLsbD 1 then s.raiseError .illegalCommand 0
  else s.checked (envOperands (sel.getLsbD 0)) (s.finishResult (envValue cfg (sel.getLsbD 0) s.operands.params))

/-- ENV_EVAL (R250). -/
def execEnvEval (sel : BitVec 2) (s : State) : Host.Outcome State Fault Refusal :=
  .next (envEvalStep Config.machine sel s)

end Machine
end Sys2Proof
end

