-- ==== Sys2Proof/Machine/Oscillator.lean ====
section
/-! DEFINITION. The oscillator core (42_oscillator.md) and the command OSC_GEN. -/

namespace Sys2Proof
namespace Machine

/-- The phase advance `wrap(phase + f / SR)` (R270). -/
def advancePhase (cfg : Config) (phase f : F64) : F64 := (phase.add (f.div F64.sampleRate)).wrap cfg

/-- Square (R272). -/
def genSquare (phase duty : F64) : F64 := if phase.lt duty then F64.one else F64.minusOne

/-- Sawtooth (R273). -/
def genSaw (phase : F64) : F64 := (F64.two.mul phase).sub F64.one

/-- Sine (R274). -/
def genSine (cfg : Config) (phase : F64) : F64 := cfg.sin (F64.twoPi.mul phase)

/-- The noise hold of a render (R275, R276). -/
structure NoiseHold where
  /-- `nz_seg`: none, for the spec's -1, before the first draw, so that no sub-interval, not even the free one of a
  phase product that is not finite (log entry 11), is taken for it (R276). -/
  seg : Option Int
  /-- `nz_val`. -/
  val : F64
  /-- `rng`, the working copy. -/
  rng : RngState
  deriving DecidableEq, Repr

/-- The noise hold at render start (R276, 47_renderers.md R389). -/
def NoiseHold.start (rng : RngState) : NoiseHold := { seg := none, val := F64.zero, rng := rng }

/-- `gen_noise(phase)` (R275, R276): the hold after it, whose `val` is the sample; the first sample of a render always
draws. -/
def NoiseHold.next (cfg : Config) (h : NoiseHold) (phase : F64) : NoiseHold :=
  let seg := (phase.mul (F64.ofNat cfg.noiseSegs)).floor
  if h.seg = some seg then h
  else { seg := some seg, val := (cfg.rngNext h.rng).1, rng := (cfg.rngNext h.rng).2 }

/-- `generate(wave, phase, duty)` (R277), with the noise hold of a render: the sample and the hold after it. -/
def generate (cfg : Config) (wave : Wave) (phase duty : F64) (h : NoiseHold) : F64 × NoiseHold :=
  match wave with
  | .square => (genSquare phase duty, h)
  | .sawtooth => (genSaw phase, h)
  | .sine => (genSine cfg phase, h)
  | .noise => ((h.next cfg phase).val, h.next cfg phase)

/-- The registers OSC_GEN checks, by wave kind (60_exceptions.md R443). -/
def oscOperands : Wave → List PReg
  | .square => [.uPhase, .uDuty]
  | .sawtooth => [.uPhase]
  | .sine => [.uPhase]
  | .noise => [.uPhase]

/-- The complete step of OSC_GEN (R281); noise draws exactly once (R282). -/
def oscGenStep (cfg : Config) (sel : BitVec 2) (s : State) : State :=
  let o := s.operands
  let p := o.params.uPhase.wrap cfg
  s.checked (oscOperands (.ofBits sel))
    (match Wave.ofBits sel with
     | .square => s.finishResult (genSquare p o.params.uDuty)
     | .sawtooth => s.finishResult (genSaw p)
     | .sine => s.finishResult (genSine cfg p)
     | .noise => { s.finishResult (cfg.rngNext o.rng).1 with rng := (cfg.rngNext o.rng).2 })

/-- OSC_GEN (R281). -/
def execOscGen (sel : BitVec 2) (s : State) : Host.Outcome State Fault Refusal :=
  .next (oscGenStep Config.machine sel s)

end Machine
end Sys2Proof
end

