-- ==== Sys2Proof/Machine/Effect.lean ====
section
/-! DEFINITION. The stages of an effect render: modulation stack (43_modulation.md), filters (44_filter.md), phaser
(45_phaser.md) and repeat controller (46_repeat.md), over the internal state of a render (10_state.md R57). That state
lives inside one complete step only (00_scope.md R24, log entry 16). -/

namespace Sys2Proof
namespace Machine

/-- What a render fixes at its start (47_renderers.md R389, R391). -/
structure EffectPlan where
  /-- The effect registers. -/
  regs : Params
  wave : Wave
  /-- `F0`, Hz. -/
  f0 : F64
  /-- `FL`, Hz. -/
  fl : F64
  /-- `R0`, Hz per second. -/
  r0 : F64
  /-- `DD`, Hz per second squared. -/
  dd : F64
  arpAt : Int
  lpOn : Bool
  hpOn : Bool
  phOn : Bool
  repOn : Bool
  seg : Nat
  deriving DecidableEq, Repr

/-- The internal state of an effect render (10_state.md R57), named as the spec names it. -/
structure Render where
  phase : F64
  fofs : F64
  slide : F64
  dutyC : F64
  arpM : F64
  lpY : F64
  lpV : F64
  hpZ : F64
  /-- `buf[0 .. PHASER_LEN - 1]`. -/
  buf : List F64
  /-- The write index `w`. -/
  w : Nat
  noise : NoiseHold
  repCtr : Nat
  deriving DecidableEq, Repr

/-- The start of a render (47_renderers.md R389); `nEnv` is its envelope length. -/
def effectPlan (cfg : Config) (o : Snapshot) (nEnv : Nat) : EffectPlan :=
  let p := o.params
  let repOn := p.repeatSpeed.ne F64.zero
  { regs := p
    wave := .ofBits o.waveType
    f0 := cfg.freqMap p.baseFreq
    fl := cfg.limitMap p.freqLimit
    r0 := cfg.frampMap p.freqRamp
    dd := cfg.fdrampMap p.freqDramp
    arpAt := ((cfg.arpFrac p.arpSpeed).mul (F64.ofNat nEnv)).floor
    lpOn := p.lpfFreq.ne F64.one
    hpOn := p.hpfFreq.ne F64.zero
    phOn := !(p.phaOffset.eq F64.zero && p.phaRamp.eq F64.zero)
    repOn := repOn
    seg := if repOn then cfg.repeatSeg p.repeatSpeed else 0 }

/-- The internal state at render start (47_renderers.md R389). -/
def Render.start (cfg : Config) (pl : EffectPlan) (rng : RngState) : Render :=
  { phase := F64.zero, fofs := F64.zero, slide := pl.r0, dutyC := pl.regs.duty, arpM := F64.one
    lpY := F64.zero, lpV := F64.zero, hpZ := F64.zero
    buf := List.replicate cfg.phaserLen F64.zero, w := 0
    noise := .start rng, repCtr := 0 }

/-! ## Modulation -/

/-- `facc = F0 + fofs` (43 R302). -/
def Render.facc (pl : EffectPlan) (r : Render) : F64 := pl.f0.add r.fofs

/-- The arpeggio step before sample `n` (43 R307). -/
def Render.arpeggio (pl : EffectPlan) (n : Nat) (r : Render) : Render :=
  if (n : Int) = pl.arpAt then { r with arpM := F64.one.add pl.regs.arpMod } else r

/-- The vibrato multiplier at time `t` (43 R306). -/
def vibrato (cfg : Config) (pl : EffectPlan) (t : F64) : F64 :=
  F64.one.add (pl.regs.vibStrength.mul (cfg.sin ((F64.twoPi.mul pl.regs.vibSpeed).mul t)))

/-- The instantaneous frequency `(facc * vib) * arp_m` (43 R308). -/
def Render.frequency (cfg : Config) (pl : EffectPlan) (t : F64) (r : Render) : F64 :=
  ((r.facc pl).mul (vibrato cfg pl t)).mul r.arpM

/-- The ramp and duty updates after a sample (43 R303, R309). -/
def Render.modulate (pl : EffectPlan) (r : Render) : Render :=
  { r with
    fofs := r.fofs.add (r.slide.div F64.sampleRate)
    slide := r.slide.add (pl.dd.div F64.sampleRate)
    dutyC := (r.dutyC.add (pl.regs.dutyRamp.div F64.sampleRate)).clamp01 }

/-! ## Filters -/

/-- The low-pass update for input `x` at time `t` (44 R331 to R333): the state whose `lp_y` is the output. -/
def Render.lowpass (cfg : Config) (pl : EffectPlan) (t x : F64) (r : Render) : Render :=
  let c := (pl.regs.lpfFreq.add (pl.regs.lpfRamp.mul t)).clamp01
  let alpha := cfg.lpfAlpha c
  let v := ((cfg.resFb pl.regs.lpfResonance).mul r.lpV).add (alpha.mul (x.sub r.lpY))
  { r with lpV := v, lpY := r.lpY.add v }

/-- The low-pass stage with its bypass (44 R330): output and state. -/
def Render.lowpassStage (cfg : Config) (pl : EffectPlan) (t x : F64) (r : Render) : F64 × Render :=
  if pl.lpOn then ((r.lowpass cfg pl t x).lpY, r.lowpass cfg pl t x) else (x, r)

/-- The high-pass update for input `x` at time `t` (44 R336). -/
def Render.highpass (cfg : Config) (pl : EffectPlan) (t x : F64) (r : Render) : Render :=
  let c := (pl.regs.hpfFreq.add (pl.regs.hpfRamp.mul t)).clamp01
  { r with hpZ := r.hpZ.add ((cfg.hpfAlpha c).mul (x.sub r.hpZ)) }

/-- The high-pass stage with its bypass (44 R335): output `x1 - hp_z` and state. -/
def Render.highpassStage (cfg : Config) (pl : EffectPlan) (t x : F64) (r : Render) : F64 × Render :=
  if pl.hpOn then (x.sub (r.highpass cfg pl t x).hpZ, r.highpass cfg pl t x) else (x, r)

/-! ## Phaser -/

/-- The delay of the phaser at time `t`, in samples (45 R352). -/
def phaserDelay (cfg : Config) (pl : EffectPlan) (t : F64) : F64 :=
  (cfg.phaScale.mul (pl.regs.phaOffset.add (pl.regs.phaRamp.mul t))).clamp F64.zero
    (F64.ofNat (cfg.phaserLen - 1))

/-- `buf[(w - k) mod PHASER_LEN]` (45 R353). -/
def tapAt (buf : List F64) (len w : Nat) (k : Int) : F64 :=
  buf.getD (((w : Int) - k) % (len : Int)).toNat F64.zero

/-- The delayed value read from the buffer (45 R353). -/
def delayed (buf : List F64) (len w : Nat) (d : F64) : F64 :=
  let di := d.floor
  let fr := d.sub (F64.ofInt di)
  let a0 := tapAt buf len w di
  if fr.eq F64.zero then a0 else a0.add (fr.mul ((tapAt buf len w (di + 1)).sub a0))

/-- The phaser update for input `x` at time `t` (45 R353): output and state. -/
def Render.phaser (cfg : Config) (pl : EffectPlan) (t x : F64) (r : Render) : F64 × Render :=
  let buf := r.buf.set r.w x
  (x.add (cfg.phaWet.mul (delayed buf cfg.phaserLen r.w (phaserDelay cfg pl t))),
   { r with buf := buf, w := (r.w + 1) % cfg.phaserLen })

/-- The phaser stage with its bypass (45 R350). -/
def Render.phaserStage (cfg : Config) (pl : EffectPlan) (t x : F64) (r : Render) : F64 × Render :=
  if pl.phOn then r.phaser cfg pl t x else (x, r)

/-! ## Repeat -/

/-- The resets at a segment boundary (46 R371): the ramp accumulators and the duty, nothing else. -/
def Render.retrigger (pl : EffectPlan) (r : Render) : Render :=
  { r with fofs := F64.zero, slide := pl.r0, dutyC := pl.regs.duty }

/-- The repeat step after a sample's modulation updates (46 R372). -/
def Render.repeatStep (pl : EffectPlan) (r : Render) : Render :=
  if pl.repOn then
    if pl.seg ≤ r.repCtr + 1 then { r.retrigger pl with repCtr := 0 } else { r with repCtr := r.repCtr + 1 }
  else r

/-! ## One sample -/

/-- The oscillator part of a sample: arpeggio, frequency, phase advance, generation (47 R388, R392): the raw sample
and the state. -/
def Render.oscillate (cfg : Config) (pl : EffectPlan) (n : Nat) (t : F64) (r : Render) : F64 × Render :=
  let r1 := r.arpeggio pl n
  let phase := advancePhase cfg r1.phase (r1.frequency cfg pl t)
  let g := generate cfg pl.wave phase r1.dutyC r1.noise
  (g.1, { r1 with phase := phase, noise := g.2 })

/-- Sample time `t = real(n) / SR` (00_scope.md R26). -/
def sampleTime (n : Nat) : F64 := (F64.ofNat n).div F64.sampleRate

/-- The output scale of an effect sample (47 R393). -/
def effectOutput (cfg : Config) (x amp : F64) : Sample :=
  (((x.mul amp).mul cfg.masterGain).mul F64.fullScale).quant

/-- One pass of the loop of 47 R388 after its two end tests: the sample written and the state for the next one. -/
def Render.sample (cfg : Config) (pl : EffectPlan) (n : Nat) (r : Render) : Sample × Render :=
  let t := sampleTime n
  let amp := effectEnv cfg pl.regs t
  let osc := r.oscillate cfg pl n t
  let lp := osc.2.lowpassStage cfg pl t osc.1
  let hp := lp.2.highpassStage cfg pl t lp.1
  let ph := hp.2.phaserStage cfg pl t hp.1
  (effectOutput cfg ph.1 amp, (ph.2.modulate pl).repeatStep pl)

end Machine
end Sys2Proof
end

