-- ==== Sys2Proof/Machine/Render.lean ====
section
/-! DEFINITION. The renderers (47_renderers.md): RENDER_TONE and RENDER_EFFECT. -/

namespace Sys2Proof
namespace Machine

/-- A length `ceil(x * SR)` in samples (R383, R391), or none when it is not a length the PCM RAM could hold: above
PCM_CAP (R381), or not finite, for which 00_scope.md R17 gives no `ceil` (log entry 12). -/
def renderLength (cfg : Config) (x : F64) : Option Nat :=
  let y := x.mul F64.sampleRate
  if y.isFinite && decide (y.ceil.toNat ≤ cfg.pcmCap) then some y.ceil.toNat else none

/-! ## Tone render -/

/-- The registers RENDER_TONE checks (60_exceptions.md R443). -/
def toneOperands : List PReg := [.pitchHz, .tAttack, .tDecay, .tSustain, .tRelease, .tSustainLevel]

/-- The samples from `i` on, `k` of them, at the running phase (R384, R385). -/
def toneSamples (cfg : Config) (tbl : Nat → Sample) (p : Params) (inc : F64) : Nat → Nat → F64 → List Sample
  | 0, _, _ => []
  | k + 1, i, phase =>
    ((lookupAt cfg tbl phase).mul (toneEnv cfg p (sampleTime i))).quant ::
      toneSamples cfg tbl p inc k (i + 1) ((phase.add inc).wrap cfg)

/-- The complete step of RENDER_TONE (R384). -/
def renderToneStep (cfg : Config) (s : State) : State :=
  let p := s.operands.params
  s.checked toneOperands
    (match renderLength cfg (toneEnd p.tAttack p.tDecay p.tSustain p.tRelease) with
     | none => s.raiseError .capacityExceeded 0
     | some n =>
       s.finishRender (toneSamples cfg s.tbl p (p.pitchHz.div F64.sampleRate) n 0 F64.zero) .envelope)

/-! ## Effect render -/

/-- What an effect render yields: its samples, why it ended, and the working RNG state. -/
structure EffectResult where
  samples : List Sample
  reason : EndReason
  rng : RngState
  deriving DecidableEq, Repr

/-- The loop of R388 from sample `n` on, with `k` samples left to the envelope end: the envelope test first (R391),
then the limit test (R394), then the sample. -/
def effectSamples (cfg : Config) (pl : EffectPlan) : Nat → Nat → Render → EffectResult
  | 0, _, r => { samples := [], reason := .envelope, rng := r.noise.rng }
  | k + 1, n, r =>
    if (r.facc pl).lt pl.fl then { samples := [], reason := .limit, rng := r.noise.rng }
    else
      let one := r.sample cfg pl n
      let rest := effectSamples cfg pl k (n + 1) one.2
      { rest with samples := one.1 :: rest.samples }

/-- The whole effect render of a snapshot, for an envelope length `nEnv` (R388, R389). -/
def effectRender (cfg : Config) (o : Snapshot) (nEnv : Nat) : EffectResult :=
  let pl := effectPlan cfg o nEnv
  effectSamples cfg pl nEnv 0 (.start cfg pl o.rng)

/-- The completion of an effect render (R388): PCM, LEN, DURATION, END_REASON, RNG. -/
def State.finishEffect (s : State) (e : EffectResult) : State :=
  { s.finishRender e.samples e.reason with rng := e.rng }

/-- The complete step of RENDER_EFFECT (R388). -/
def renderEffectStep (cfg : Config) (s : State) : State :=
  let o := s.operands
  s.checked effectRegs
    (match renderLength cfg (effectEnd cfg o.params) with
     | none => s.raiseError .capacityExceeded 0
     | some n => s.finishEffect (effectRender cfg o n))

/-! ## The commands -/

/-- RENDER_TONE (R384). -/
def execRenderTone (s : State) : Host.Outcome State Fault Refusal := .next (renderToneStep Config.machine s)

/-- RENDER_EFFECT (R388). -/
def execRenderEffect (s : State) : Host.Outcome State Fault Refusal := .next (renderEffectStep Config.machine s)

end Machine
end Sys2Proof
end

