-- ==== Sys2Proof/Machine/Dispatch.lean ====
section
/-! DEFINITION. One arm per command (opcode_table.json): the meaning of each is the complete step of its rule. -/

namespace Sys2Proof
namespace Machine

def exec (i : Instr) (s : State) : Host.Outcome State Fault Refusal :=
  match i with
  | .nop => Sys2Proof.Machine.execNop s
  | .tblPreset sel => Sys2Proof.Machine.execTblPreset sel s
  | .tblCommit => Sys2Proof.Machine.execTblCommit s
  | .stgClear => Sys2Proof.Machine.execStgClear s
  | .renderTone => Sys2Proof.Machine.execRenderTone s
  | .renderEffect => Sys2Proof.Machine.execRenderEffect s
  | .noteResolve => Sys2Proof.Machine.execNoteResolve s
  | .lookup => Sys2Proof.Machine.execLookup s
  | .oscGen sel => Sys2Proof.Machine.execOscGen sel s
  | .envEval sel => Sys2Proof.Machine.execEnvEval sel s

end Machine
end Sys2Proof
end

