-- ==== Sys2Proof/Machine/Step.lean ====
section
/-! DEFINITION. One step of the block (00_scope.md R21, R22, 20_memory.md R109): the core's complete step where one is
due, otherwise the next host event or the passing of time. -/

namespace Sys2Proof
namespace Machine

/-- One step: the accepted command whose latency is over is decoded and runs (an illegal word completes with
ILLEGAL_COMMAND, 60_exceptions.md R441); otherwise `State.elapse`. -/
def step (s : State) : Host.Outcome State Fault Refusal :=
  match s.ready? with
  | some w =>
    match decode w with
    | .ok i => exec i s
    | .error _ => .next (s.raiseError .illegalCommand 0)
  | none => .next (s.elapse Config.machine)

/-- The state in which the command word with the bits `w` has been accepted and its latency is over, so that the very
next step runs it (log entry 6). -/
def State.withFetchWord (s : State) (nbits w : Nat) : State := s.acceptWith (tableWord nbits w) 0

end Machine
end Sys2Proof
end

