-- ==== Sys2Proof/Machine/Parametric.lean ====
section
/-! DEFINITION. The commands under any configuration: `exec` is `execIn Config.machine` (Laws/Exec.lean,
`exec_eq_execIn`). It serves claims about every configuration that meets table P, and tests on the reference
configuration, whose values the machine's own configuration does not show (log entry 1). -/

namespace Sys2Proof
namespace Machine

/-- The state after the complete step of a command under a configuration. -/
def completeIn (cfg : Config) (s : State) : Instr → State
  | .nop => s.finish .none
  | .tblPreset sel => tblPresetStep cfg sel s
  | .tblCommit => tblCommitStep cfg s
  | .stgClear => stgClearStep s
  | .renderTone => renderToneStep cfg s
  | .renderEffect => renderEffectStep cfg s
  | .noteResolve => noteResolveStep cfg s
  | .lookup => lookupStep cfg s
  | .oscGen sel => oscGenStep cfg sel s
  | .envEval sel => envEvalStep cfg sel s

/-- The meaning of a command under a configuration. -/
def execIn (cfg : Config) (i : Instr) (s : State) : Host.Outcome State Fault Refusal := .next (completeIn cfg s i)

end Machine
end Sys2Proof
end

