-- ==== Sys2Proof/Safety.lean ====
section
/-! DEFINITION. What counts as a safe run, and the invariant of the block's state that every step keeps. -/

namespace Sys2Proof
namespace Machine

/-- The byte offsets of the sample windows (20_memory.md R100). -/
def inWindow (cap a : Nat) : Prop :=
  (tblBase ≤ a ∧ a < tblBase + 2048) ∨ (pcmBase ≤ a ∧ a < pcmBase + 2 * cap)

/-- The invariant of the block. It rules out states no run reaches, such as a staged count that changed under a running
command. -/
structure Inv (s : State) : Prop where
  /-- The sample memories are in canonical form. -/
  memWf : Memory.wf s.mem
  /-- They hold bytes of the table and PCM windows only (20_memory.md R100). -/
  memRange : ∀ c ∈ s.mem, inWindow Config.machine.pcmCap c.1
  /-- LEN is the length of a buffer the PCM RAM holds (47_renderers.md R381, R395). -/
  lenLe : s.len.toNat ≤ Config.machine.pcmCap
  /-- DURATION is real(LEN) / SR and changes with LEN (10_state.md R41). -/
  duration : s.duration = (F64.ofNat s.len.toNat).div F64.sampleRate
  /-- From accept to completion the completion status is clear (10_state.md R33). -/
  busyClear : s.busy = true →
    s.status.done = false ∧ s.status.err = false ∧ s.status.errCode = .none ∧ s.status.endReason = .none
  /-- What the snapshot says of the registers a host cannot write while BUSY still holds (10_state.md R52). -/
  busySnap : ∀ w o n, s.seq = .busy w o n → o.rng = s.rng ∧ o.stgCount = s.stgCount
  /-- ERR is set only with an error code (60_exceptions.md R442). -/
  errCode : s.status.err = true → s.status.errCode ≠ .none
  /-- A failed command has no end reason (10_state.md R33). -/
  endReason : s.status.errCode ≠ .none → s.status.endReason = .none
  /-- ERR_ADDR names a register after INVALID_PARAMETER and is 0 after any other outcome (10_state.md R45). -/
  errAddr : s.busy = false →
    if s.status.errCode = .invalidParameter then ∃ r : PReg, s.errAddr = BitVec.ofNat 32 r.offset else s.errAddr = 0

/-- A run of `k` steps is safe when no step faults or is refused. -/
def SafeRun (k : Nat) (s : State) : Prop := ∃ t, Host.Core.run core k s = .next t

/-- A host event that resets the block (70_reset_and_hazards.md R480, R481). -/
def HostEvent.resets : HostEvent → Bool
  | .read _ => false
  | .write a v => a == 0x014#22 && v.getLsbD 0
  | .presetn => true

end Machine
end Sys2Proof
end

