-- ==== Sys2Proof/Certificates/Slice0/Obligations.lean ====
section
/-! DEFINITION. The statements about `oscillator_core`, from the numbered rules of spec/. Each docstring names the rules
it formalises and, where a clause is the model's own choice, the log entry. -/

namespace Sys2Proof
namespace Claims
open Machine

/-! ## The words the statements use -/

/-- A successful completion with no result of its own (60_exceptions.md R442). -/
def succeeded (s : State) (reason : EndReason) : State :=
  { s with
    seq := .idle
    errAddr := 0
    status :=
      { done := true, err := false, ovr := s.status.ovr, errCode := .none, endReason := reason } }

/-- A completion with an error (60_exceptions.md R442). -/
def failed (s : State) (code : ErrCode) (addr : Word) : State :=
  { s with
    seq := .idle
    errAddr := addr
    status :=
      { done := true, err := true, ovr := s.status.ovr, errCode := code, endReason := .none } }

/-- The block after one host event. -/
def after (s : State) (e : HostEvent) : State := State.hostEvent Config.machine s e

/-- A byte offset of the host window. -/
def at22 (a : Nat) : Offset := BitVec.ofNat 22 a

/-- The command's meaning under a configuration answers `t`; for the machine's own configuration that is `exec`. -/
def runs (cfg : Config) (i : Instr) (s t : State) : Prop :=
  execIn cfg i s = .next t ∧ (cfg = Config.machine → exec i s = .next t)

/-- Every byte of the sample memories outside `[lo, lo + len)` reads as before. -/
def sameBytesOutside (s t : State) (lo len : Nat) : Prop :=
  ∀ a, a < lo ∨ lo + len ≤ a → t.byteAt a = s.byteAt a

/-- A row of the register tables of 10_state.md R47, R49, R50: the register, its offset, its domain and its reset
value. No bound means that the domain has none on that side. -/
structure RegRow where
  reg : PReg
  offset : Nat
  lo : Option F64
  hi : Option F64
  reset : F64

/-- The row's domain admits a value (10_state.md R47: finite and between the bounds). -/
def RegRow.admits (row : RegRow) (v : F64) : Bool :=
  v.isFinite && row.lo.all (fun l => l.le v) && row.hi.all (fun h => v.le h)

/-- A register with range [0, 1]. -/
def unipolar (reg : PReg) (offset : Nat) (reset : F64) : RegRow := ⟨reg, offset, some F64.zero, some F64.one, reset⟩

/-- A register with range [-1, 1]. -/
def bipolar (reg : PReg) (offset : Nat) (reset : F64) : RegRow :=
  ⟨reg, offset, some F64.minusOne, some F64.one, reset⟩

/-- A register with domain "finite, >= 0". -/
def nonneg (reg : PReg) (offset : Nat) (reset : F64) : RegRow := ⟨reg, offset, some F64.zero, none, reset⟩

/-- 10_state.md R47. -/
def effectRows : List RegRow :=
  [unipolar .baseFreq 0x100 (.lit 3 10), unipolar .freqLimit 0x108 (.lit 0 1),
   bipolar .freqRamp 0x110 (.lit 0 1), bipolar .freqDramp 0x118 (.lit 0 1),
   unipolar .duty 0x120 (.lit 5 10), bipolar .dutyRamp 0x128 (.lit 0 1),
   unipolar .vibStrength 0x130 (.lit 0 1), unipolar .vibSpeed 0x138 (.lit 0 1),
   unipolar .arpSpeed 0x140 (.lit 0 1), bipolar .arpMod 0x148 (.lit 0 1),
   unipolar .envAttack 0x150 (.lit 0 1), unipolar .envSustain 0x158 (.lit 3 10),
   unipolar .envDecay 0x160 (.lit 4 10), unipolar .envPunch 0x168 (.lit 0 1)] ++
  [unipolar .lpfFreq 0x170 (.lit 1 1), bipolar .lpfRamp 0x178 (.lit 0 1),
   unipolar .lpfResonance 0x180 (.lit 0 1), unipolar .hpfFreq 0x188 (.lit 0 1),
   bipolar .hpfRamp 0x190 (.lit 0 1), bipolar .phaOffset 0x198 (.lit 0 1),
   bipolar .phaRamp 0x1A0 (.lit 0 1), unipolar .repeatSpeed 0x1A8 (.lit 0 1)]

/-- 10_state.md R49, R50. -/
def toneRows : List RegRow :=
  [nonneg .pitchHz 0x200 (.lit 440 1), nonneg .tAttack 0x208 (.lit 0 1), nonneg .tDecay 0x210 (.lit 0 1),
   nonneg .tSustain 0x218 (.lit 0 1), nonneg .tRelease 0x220 (.lit 0 1),
   unipolar .tSustainLevel 0x228 (.lit 7 10), unipolar .tblDuty 0x230 (.lit 5 10),
   ⟨.uPhase, 0x238, none, none, .lit 0 1⟩, nonneg .uTime 0x240 (.lit 0 1), unipolar .uDuty 0x248 (.lit 5 10)]

/-- The register tables of 10_state.md R47, R49, R50. -/
def regTable : List RegRow := effectRows ++ toneRows

/-- The offsets each command checks (60_exceptions.md R443, the table). -/
def checkedOffsets : Instr → List Nat
  | .tblPreset sel => if sel = 1 then [0x230] else []
  | .lookup => [0x238]
  | .oscGen sel => if sel = 0 then [0x238, 0x248] else [0x238]
  | .envEval sel =>
    if sel = 0 then [0x208, 0x210, 0x218, 0x220, 0x228, 0x240] else [0x150, 0x158, 0x160, 0x168, 0x240]
  | .renderTone => [0x200, 0x208, 0x210, 0x218, 0x220, 0x228]
  | .renderEffect => (List.range 22).map (fun k => 0x100 + 8 * k)
  | .nop => []
  | .tblCommit => []
  | .stgClear => []
  | .noteResolve => []

/-- The running command's value of a row's register is in the row's domain. -/
def rowOk (s : State) (row : RegRow) : Bool := row.admits (s.operands.params.get row.reg)

/-- Every register a command checks holds a value in its domain (60_exceptions.md R443). -/
abbrev operandsOk (i : Instr) (s : State) : Prop :=
  ∀ row ∈ regTable, row.offset ∈ checkedOffsets i → rowOk s row = true

/-- The opcode map of 30_encoding.md R143: mnemonic, match, mask. -/
def opcodeRows : List (String × Word × Word) :=
  [("NOP", 0x00000000#32, 0xFFFFFFFF#32), ("TBL_PRESET", 0x00000001#32, 0xFFFFFCFF#32),
   ("TBL_COMMIT", 0x00000002#32, 0xFFFFFFFF#32), ("STG_CLEAR", 0x00000003#32, 0xFFFFFFFF#32),
   ("RENDER_TONE", 0x00000010#32, 0xFFFFFFFF#32), ("RENDER_EFFECT", 0x00000011#32, 0xFFFFFFFF#32),
   ("NOTE_RESOLVE", 0x00000020#32, 0xFFFFFFFF#32), ("LOOKUP", 0x00000030#32, 0xFFFFFFFF#32),
   ("OSC_GEN", 0x00000031#32, 0xFFFFFCFF#32), ("ENV_EVAL", 0x00000032#32, 0xFFFFFEFF#32)]

/-- A word matches a row of the opcode map (30_encoding.md R143). -/
abbrev matchesRow (w : Word) (row : String × Word × Word) : Prop := w &&& row.2.2 = row.2.1

/-- A reserved offset of 20_memory.md R100. -/
abbrev reservedOffset (a : Nat) : Prop :=
  (0x50 ≤ a ∧ a < 0x100) ∨ (0x1B4 ≤ a ∧ a < 0x200) ∨ (0x250 ≤ a ∧ a < 0x800) ∨ (0x1000 ≤ a ∧ a < 0x100000) ∨
    (0x100000 + 2 * Config.machine.pcmCap ≤ a ∧ a < 0x400000)

/-- A read-only location of 20_memory.md R100: ID, LEN, STG_COUNT, DURATION, RESULT, SAMPLE_RATE, ERR_ADDR, CAPS and
the two windows. -/
abbrev readOnlyOffset (a : Nat) : Prop :=
  a ∈ [0x00, 0x0C, 0x20, 0x30, 0x34, 0x38, 0x3C, 0x44, 0x48, 0x4C] ∨ (0x800 ≤ a ∧ a < 0x1000) ∨
    (0x100000 ≤ a ∧ a < 0x100000 + 2 * Config.machine.pcmCap)

/-! ## The spec's formulas, written from its pseudocode -/

/-- `if v is NaN then 0 else floor(clamp(v, -1.0, 1.0) * 32767.0)` (00_scope.md R20). -/
def tableValue (v : F64) : Int :=
  if v.isNaN then 0
  else
    let c := if v.lt F64.minusOne then F64.minusOne else if F64.one.lt v then F64.one else v
    (c.mul (.lit 32767 1)).floor

/-- The generator of a preset at phase `p` (40_waveform_table.md R204). -/
def presetGenerator (sel : BitVec 2) (d p : F64) : F64 :=
  if sel = 0 then Config.machine.sin (p.mul F64.twoPi)
  else if sel = 1 then (if p.lt d then F64.one else F64.minusOne)
  else if sel = 2 then ((F64.lit 2 1).mul p).sub F64.one
  else F64.one.sub ((F64.lit 4 1).mul (p.sub (.lit 1 2)).abs)

/-- `lookup(phase)` (40_waveform_table.md R216). -/
def lookupFormula (tbl : Nat → Sample) (phase : F64) : F64 :=
  let p := phase.wrap Config.machine
  let xk := p.mul (.lit 1023 1)
  let k := if xk.floor ≤ 1022 then xk.floor else 1022
  let fr := xk.sub (.ofInt k)
  let lo := (tbl k.toNat).toInt
  let hi := (tbl (k + 1).toNat).toInt
  (F64.ofInt lo).add (fr.mul (.ofInt (hi - lo)))

/-- The tone envelope (41_envelope.md R241, R242). -/
def toneEnvelope (a d su r l t : F64) : F64 :=
  let b1 := a
  let b2 := b1.add d
  let b3 := b2.add su
  let b4 := b3.add r
  if t.lt b1 then t.div a
  else if t.lt b2 then F64.one.add ((l.sub F64.one).mul (Config.machine.decayShape ((t.sub b1).div d)))
  else if t.lt b3 then l
  else if t.lt b4 then l.mul (F64.one.sub ((t.sub b3).div r))
  else F64.zero

/-- The table entry under the short-table policies (40_waveform_table.md R211); REJECT makes none. -/
def shortEntry (policy : ShortPolicy) (stg : Nat → Sample) (n k : Nat) : Option Sample :=
  match policy with
  | .reject => none
  | .zeroPad => some (if k < n then stg k else 0)
  | .repeatSeq => some (stg (k % n))
  | .resample =>
    if n = 1 then some (stg 0)
    else
      let x := ((F64.ofNat k).mul (.ofNat (n - 1))).div (.lit 1023 1)
      let j := if x.floor ≤ (n : Int) - 2 then x.floor.toNat else n - 2
      let fr := x.sub (.ofNat j)
      some (BitVec.ofInt 16
        ((F64.ofInt (stg j).toInt).add (fr.mul (.ofInt ((stg (j + 1)).toInt - (stg j).toInt)))).floor)

/-- The letters of 48_note_and_control.md R423: character code and offset. -/
def noteLetters : List (Byte × Int) :=
  [(0x43, -9), (0x44, -7), (0x45, -5), (0x46, -4), (0x47, -2), (0x41, 0), (0x42, 2)]

/-- The accidentals of 48_note_and_control.md R423: `#` and `b`. -/
def noteAccidentals : List (Byte × Int) := [(0x23, 1), (0x62, -1)]

/-- The word in NOTE spells a note name with this semitone offset (48_note_and_control.md R420, R422, R423). -/
def spells (w : Word) (offset : Int) : Prop :=
  ∃ l ∈ noteLetters, ∃ o : Nat, o ≤ 8 ∧ w.extractLsb' 0 8 = l.1 ∧
    ((w.extractLsb' 8 8 = BitVec.ofNat 8 (0x30 + o) ∧ w.extractLsb' 16 8 = 0 ∧ offset = l.2 + 12 * ((o : Int) - 4)) ∨
     ∃ x ∈ noteAccidentals, w.extractLsb' 8 8 = x.1 ∧ w.extractLsb' 16 8 = BitVec.ofNat 8 (0x30 + o) ∧
       w.extractLsb' 24 8 = 0 ∧ offset = l.2 + x.2 + 12 * ((o : Int) - 4))

/-- The sample rate (00_scope.md R9). -/
def rate : F64 := .lit 44100 1

/-- The phase a tone sample reads: the running wrapped sum (47_renderers.md R385). -/
def tonePhase (inc : F64) : Nat → F64
  | 0 => F64.zero
  | i + 1 => ((tonePhase inc i).add inc).wrap Config.machine

/-- The end `B4` of a tone (41_envelope.md R241). -/
def toneSpan (p : Params) : F64 := ((p.tAttack.add p.tDecay).add p.tSustain).add p.tRelease

/-- The end `W` of an effect (41_envelope.md R251). -/
def effectSpan (cfg : Config) (p : Params) : F64 :=
  ((cfg.envTime p.envAttack).add (cfg.envTime p.envSustain)).add (cfg.envTime p.envDecay)

/-- The variables of the loop of 47_renderers.md R388, as R389 names them. -/
structure LoopVars where
  phase : F64
  fofs : F64
  slide : F64
  dutyC : F64
  arpM : F64
  lpY : F64
  lpV : F64
  hpZ : F64
  buf : Nat → F64
  w : Nat
  /-- None stands for the -1 of 42_oscillator.md R276, no sub-interval. -/
  nzSeg : Option Int
  nzVal : F64
  rng : RngState
  repCtr : Nat

/-- The initial values of 47_renderers.md R389. -/
def loopStart (cfg : Config) (o : Snapshot) : LoopVars where
  phase := F64.zero
  fofs := F64.zero
  slide := cfg.frampMap o.params.freqRamp
  dutyC := o.params.duty
  arpM := F64.one
  lpY := F64.zero
  lpV := F64.zero
  hpZ := F64.zero
  buf := fun _ => F64.zero
  w := 0
  nzSeg := none
  nzVal := F64.zero
  rng := o.rng
  repCtr := 0

/-- One pass of the loop of 47_renderers.md R388 after its two tests, line by line: the sample and the variables
after it. -/
def loopPass (cfg : Config) (o : Snapshot) (nEnv n : Nat) (v : LoopVars) : Sample × LoopVars :=
  let p := o.params
  let t := (F64.ofNat n).div rate
  let amp := cfg.effectEnv (cfg.envTime p.envAttack) (cfg.envTime p.envSustain) (cfg.envTime p.envDecay) p.envPunch t
  let facc := (cfg.freqMap p.baseFreq).add v.fofs
  let arpAt := ((cfg.arpFrac p.arpSpeed).mul (.ofNat nEnv)).floor
  let arpM := if (n : Int) = arpAt then F64.one.add p.arpMod else v.arpM
  let vib := F64.one.add (p.vibStrength.mul (cfg.sin ((F64.twoPi.mul p.vibSpeed).mul t)))
  let f := (facc.mul vib).mul arpM
  let phase := (v.phase.add (f.div rate)).wrap cfg
  -- generate (42_oscillator.md R277)
  let seg := (phase.mul (.ofNat cfg.noiseSegs)).floor
  let draw := o.waveType = 3 ∧ v.nzSeg ≠ some seg
  let nzVal := if draw then (cfg.rngNext v.rng).1 else v.nzVal
  let rng := if draw then (cfg.rngNext v.rng).2 else v.rng
  let nzSeg := if draw then some seg else v.nzSeg
  let raw :=
    if o.waveType = 0 then (if phase.lt v.dutyC then F64.one else F64.minusOne)
    else if o.waveType = 1 then ((F64.lit 2 1).mul phase).sub F64.one
    else if o.waveType = 2 then cfg.sin (F64.twoPi.mul phase)
    else nzVal
  -- low-pass (44_filter.md R330 to R333)
  let lpOn := p.lpfFreq.ne F64.one
  let alpha := cfg.lpfAlpha (p.lpfFreq.add (p.lpfRamp.mul t)).clamp01
  let lpV := if lpOn then ((cfg.resFb p.lpfResonance).mul v.lpV).add (alpha.mul (raw.sub v.lpY)) else v.lpV
  let lpY := if lpOn then v.lpY.add lpV else v.lpY
  let x1 := if lpOn then lpY else raw
  -- high-pass (44_filter.md R335, R336)
  let hpOn := p.hpfFreq.ne F64.zero
  let beta := cfg.hpfAlpha (p.hpfFreq.add (p.hpfRamp.mul t)).clamp01
  let hpZ := if hpOn then v.hpZ.add (beta.mul (x1.sub v.hpZ)) else v.hpZ
  let x2 := if hpOn then x1.sub hpZ else x1
  -- phaser (45_phaser.md R350 to R353)
  let phOn := !(p.phaOffset.eq F64.zero && p.phaRamp.eq F64.zero)
  let d := (cfg.phaScale.mul (p.phaOffset.add (p.phaRamp.mul t))).clamp F64.zero (.ofNat (cfg.phaserLen - 1))
  let buf := if phOn then Function.update v.buf v.w x2 else v.buf
  let di := d.floor
  let fr := d.sub (.ofInt di)
  let a0 := buf (((v.w : Int) - di) % (cfg.phaserLen : Int)).toNat
  let a1 := buf (((v.w : Int) - di - 1) % (cfg.phaserLen : Int)).toNat
  let dl := if fr.eq F64.zero then a0 else a0.add (fr.mul (a1.sub a0))
  let x3 := if phOn then x2.add (cfg.phaWet.mul dl) else x2
  let w := if phOn then (v.w + 1) % cfg.phaserLen else v.w
  -- ramps and duty (43_modulation.md R303, R309)
  let fofs := v.fofs.add (v.slide.div rate)
  let slide := v.slide.add ((cfg.fdrampMap p.freqDramp).div rate)
  let dutyC := (v.dutyC.add (p.dutyRamp.div rate)).clamp01
  -- repeat step (46_repeat.md R371, R372)
  let repOn := p.repeatSpeed.ne F64.zero
  let bound := repOn = true ∧ cfg.repeatSeg p.repeatSpeed ≤ v.repCtr + 1
  ((((x3.mul amp).mul cfg.masterGain).mul (.lit 32767 1)).quant,
   { phase := phase
     fofs := if bound then F64.zero else fofs
     slide := if bound then cfg.frampMap p.freqRamp else slide
     dutyC := if bound then p.duty else dutyC
     arpM := arpM
     lpY := lpY
     lpV := lpV
     hpZ := hpZ
     buf := buf
     w := w
     nzSeg := nzSeg
     nzVal := nzVal
     rng := rng
     repCtr := if bound then 0 else if repOn then v.repCtr + 1 else v.repCtr })

/-- The loop of 47_renderers.md R388: the samples, END_REASON and the working RNG state. `fuel` is above the number of
passes left, so that the loop ends by its own tests. -/
def loop (cfg : Config) (o : Snapshot) (nEnv : Nat) : Nat → Nat → LoopVars → List Sample × EndReason × RngState
  | 0, _, v => ([], .envelope, v.rng)
  | fuel + 1, n, v =>
    if nEnv ≤ n then ([], .envelope, v.rng)
    else if ((cfg.freqMap o.params.baseFreq).add v.fofs).lt (cfg.limitMap o.params.freqLimit) then ([], .limit, v.rng)
    else
      let one := loopPass cfg o nEnv n v
      let rest := loop cfg o nEnv fuel (n + 1) one.2
      (one.1 :: rest.1, rest.2)

/-- `w` is no further from the exact value `e` than any finite value, and where another is as near, `w` has an even
significand (00_scope.md R16). Values are scaled by `den`: `e` stands for `e / den` units of 2^-1074. -/
def nearestEven (e den : Int) (w : F64) : Prop :=
  ∀ v : F64, v.isFinite = true →
    |e - w.units * den| ≤ |e - v.units * den| ∧
    (|e - w.units * den| = |e - v.units * den| → v.units ≠ w.units → w.fracField % 2 = 0)

end Claims
end Sys2Proof

open Sys2Proof Sys2Proof.Machine Sys2Proof.Claims

/-! ## Encoding -/

/-- 30_encoding.md R143, R148: command words written out from format C decode to the commands they stand for. -/
def Obligations.KnownWordsDecode : Prop :=
  decode 0b00000000000000000000000000000000#32 = .ok .nop ∧
  decode 0b00000000000000000000001100000001#32 = .ok (.tblPreset 3) ∧
  decode 0b00000000000000000000000000000010#32 = .ok .tblCommit ∧
  decode 0b00000000000000000000000000000011#32 = .ok .stgClear ∧
  decode 0b00000000000000000000000000010000#32 = .ok .renderTone ∧
  decode 0b00000000000000000000000000010001#32 = .ok .renderEffect ∧
  decode 0b00000000000000000000000000100000#32 = .ok .noteResolve ∧
  decode 0b00000000000000000000000000110000#32 = .ok .lookup ∧
  decode 0b00000000000000000000001100110001#32 = .ok (.oscGen 3) ∧
  decode 0b00000000000000000000000100110010#32 = .ok (.envEval 1)

/-- 30_encoding.md R140 to R143: every command the encoding admits, with every selector, comes back from its word. -/
def Obligations.DecodeInvertsEncode : Prop :=
  ∀ i : Instr, i.wellFormed = true → decode (encode i) = .ok i

/-- 30_encoding.md R145: no other word is legal. A word that decodes is the word of the command it decodes to, and that
command is well-formed. -/
def Obligations.DecodeOnlyEncodings : Prop :=
  ∀ (w : Word) (i : Instr), decode w = .ok i → i.wellFormed = true ∧ encode i = w

/-- 30_encoding.md R143, R144: a word decodes exactly when it matches a row of the opcode map, to the command of that
row, and no two rows match one word. -/
def Obligations.OpcodeMapDecidesLegality : Prop :=
  ∀ w : Word,
    (∀ i, decode w = .ok i → ∃ row ∈ opcodeRows, row.1 = i.mnemonic ∧ matchesRow w row) ∧
    (∀ row ∈ opcodeRows, matchesRow w row → ∃ i, decode w = .ok i ∧ i.mnemonic = row.1) ∧
    (∀ row ∈ opcodeRows, ∀ row' ∈ opcodeRows, matchesRow w row → matchesRow w row' → row = row')

/-- 60_exceptions.md R441: a word that matches no row, once accepted, completes with ILLEGAL_COMMAND and changes
nothing else; nothing of the operands decides it. -/
def Obligations.IllegalWordCompletes : Prop :=
  ∀ (s : State) (w : Word) (o : Snapshot), s.seq = .busy w o 0 → (∀ row ∈ opcodeRows, ¬ matchesRow w row) →
    step s = .next (failed s .illegalCommand 0)

/-! ## The step -/

/-- 00_scope.md R22: the accepted word whose latency is over is decoded, and the step is the command's complete
step. -/
def Obligations.StepRunsDecodedInstruction : Prop :=
  ∀ (s : State) (w : Word) (o : Snapshot) (i : Instr), s.seq = .busy w o 0 → decode w = .ok i → step s = exec i s

/-- 20_memory.md R109 and log entries 2 and 6: a step in which the core completes nothing takes the next host event and
one step of the latency; with no event to come only the latency passes. -/
def Obligations.StepTakesHostEvent : Prop :=
  ∀ s : State,
    (s.seq = .idle → ∀ e es, s.inputs = e :: es → step s = .next (after { s with inputs := es } e)) ∧
    (∀ w o n, s.seq = .busy w o (n + 1) →
      (∀ e es, s.inputs = e :: es → step s = .next (after { s with inputs := es, seq := .busy w o n } e)) ∧
      (s.inputs = [] → step s = .next { s with seq := .busy w o n }))

/-- No step stops the block: neither a host access nor a command. This is the model's own deduction (log entry 22,
DEDUCED); for the commands 70_reset_and_hazards.md R498 says that every accepted one completes, and 60_exceptions.md
R446 and R452 name no trap and one bus error that performs nothing. -/
def Obligations.StepNeverStops : Prop := ∀ s : State, ∃ t, step s = .next t

/-- Every step keeps the invariant `Inv` of Safety.lean: the sample memories keep their canonical form and their place,
LEN fits the PCM RAM and DURATION goes with it, the completion status is clear while a command runs, ERR, ERRCODE,
END_REASON and ERR_ADDR agree (10_state.md R33, R41, R45, 47_renderers.md R395). -/
def Obligations.StepKeepsInvariant : Prop := ∀ s t : State, Machine.Inv s → step s = .next t → Machine.Inv t

/-- The invariant holds right after reset. -/
def Obligations.ResetMeetsInvariant : Prop := Machine.Inv State.reset

/-- 70_reset_and_hazards.md R498: an accepted command completes, with DONE set, unless a reset intervenes; the host can
do nothing else to prevent it. That it does so in exactly `n + 1` steps, where `n` is what is left of its latency, is
the model's choice of what one step of latency is (log entry 2, DESIGN CHOICE). -/
def Obligations.AcceptedCommandCompletes : Prop :=
  ∀ (s : State) (w : Word) (o : Snapshot) (n : Nat), s.seq = .busy w o n →
    (∀ e ∈ s.inputs.take n, e.resets = false) →
    ∃ t : State, Host.Core.run core (n + 1) s = .next t ∧ t.seq = .idle ∧ t.status.done = true

/-- 60_exceptions.md R460: an idle block with nothing to come stays as it is, and only a host write to CMD makes it
BUSY. -/
def Obligations.IdleBlockWakesOnlyByCommand : Prop :=
  ∀ s : State, s.seq = .idle →
    (s.inputs = [] → step s = .next s) ∧
    (∀ e, (after s e).busy = true → ∃ v, e = .write (at22 0x04) v)

/-! ## Reset -/

/-- 70_reset_and_hazards.md R482: the reset state, register by register; what the table calls unspecified is left
out. -/
def Obligations.ResetStateValues : Prop :=
  State.reset.seq = .idle ∧
  (∀ x ∈ [(0x00, 0x50465831#32), (0x44, 44100#32), (0x4C, BitVec.ofNat 32 Config.machine.pcmCap), (0x08, 0),
      (0x0C, 0), (0x10, 0), (0x14, 0), (0x20, 0), (0x48, 0), (0x40, 0), (0x18, 0), (0x1C, 0), (0x30, 0), (0x34, 0),
      (0x38, 0), (0x3C, 0), (0x1B0, 0)],
    (after State.reset (.read (at22 x.1))).response = .readOk x.2) ∧
  State.reset.fnInLo = 0 ∧
  (∀ row ∈ regTable, State.reset.params.get row.reg = row.reset ∧
    (after State.reset (.read (at22 row.offset))).response = .readOk row.reset.lowWord ∧
    (after State.reset (.read (at22 (row.offset + 4)))).response = .readOk row.reset.highWord) ∧
  (∀ k < 1024, State.reset.tbl k = 0) ∧
  State.reset.irq = false

/-- 70_reset_and_hazards.md R480, R481: the soft reset, idle or BUSY, and the hardware reset both put the block in the
reset state; the soft reset's write completes normally, SRST reads 0 afterwards, and a write with bit 0 clear does
nothing. The host events still to come and the model's two counters are no state of the spec's (log entries 4, 6,
18). That the staging entries are 0 after a reset, which R482 leaves unspecified (log entry 5), and that the response
port is empty after PRESETN (log entry 7), is the model's choice. -/
def Obligations.BothResetsReachResetState : Prop :=
  ∀ s : State,
    (∀ v : Word, v.getLsbD 0 = true → ∃ epoch free,
      after s (.write (at22 0x14) v) =
        { State.reset with inputs := s.inputs, pcmEpoch := epoch, free := free, response := .writeOk } ∧
      (after (after s (.write (at22 0x14) v)) (.read (at22 0x14))).response = .readOk 0) ∧
    (∀ v : Word, v.getLsbD 0 = false → after s (.write (at22 0x14) v) = { s with response := .writeOk }) ∧
    (∃ epoch free, after s .presetn = { State.reset with inputs := s.inputs, pcmEpoch := epoch, free := free })

/-- 70_reset_and_hazards.md R484: every register's reset value is in its domain, so no command issued from reset fails
its domain check. -/
def Obligations.ResetParametersInDomain : Prop :=
  ∀ i : Instr, i.wellFormed = true →
    operandsOk i State.reset ∧ ∀ t, exec i State.reset = .next t → t.status.errCode ≠ .invalidParameter

/-! ## Bus -/

/-- 60_exceptions.md R452: a misaligned access performs nothing, answers PSLVERR, and a read's data is 0; no aligned
access answers PSLVERR, whatever its offset. -/
def Obligations.MisalignedAccess : Prop :=
  ∀ (s : State) (a : Offset) (v : Word),
    (a.toNat % 4 ≠ 0 →
      (after s (.read a) = { s with response := (after s (.read a)).response } ∧
        (after s (.read a)).response.pslverr = true ∧ (after s (.read a)).response.prdata = some 0) ∧
      (after s (.write a v) = { s with response := (after s (.write a v)).response } ∧
        (after s (.write a v)).response.pslverr = true)) ∧
    (a.toNat % 4 = 0 →
      (after s (.read a)).response.pslverr = false ∧ (after s (.write a v)).response.pslverr = false)

/-- 20_memory.md R106: reads have no side effects (the response port and the model's counter of free values are no
register), and while idle a read is idempotent. -/
def Obligations.ReadsHaveNoSideEffect : Prop :=
  ∀ (s : State) (a : Offset),
    (∃ r free, after s (.read a) = { s with response := r, free := free }) ∧
    (s.busy = false → (after (after s (.read a)) (.read a)).response = (after s (.read a)).response)

/-- 10_state.md R31, R44, R46: ID, SAMPLE_RATE and CAPS have their values at all times, and writes to them are
ignored. -/
def Obligations.ConstantRegisters : Prop :=
  ∀ (s : State) (v : Word),
    ∀ x ∈ [(0x00, 0x50465831#32), (0x44, 0x0000AC44#32), (0x4C, BitVec.ofNat 32 Config.machine.pcmCap)],
      (after s (.read (at22 x.1))).response = .readOk x.2 ∧
      after s (.write (at22 x.1) v) = { s with response := .writeOk }

/-- 20_memory.md R104, 10_state.md R36: an aligned access to a reserved offset, a write to a read-only location and a
read of a write-only register or of CTRL complete with no error: the read returns 0, the write is ignored, idle or BUSY.
10_state.md R34, R38, R41, R42, R45: while idle LEN, STG_COUNT, the two words of DURATION and of RESULT, and ERR_ADDR
read their contents. -/
def Obligations.ReservedAndReadOnlyAccess : Prop :=
  (∀ (s : State) (a : Offset) (v : Word), a.toNat % 4 = 0 →
    (reservedOffset a.toNat ∨ a.toNat ∈ [0x04, 0x14, 0x24, 0x28, 0x2C] → (after s (.read a)).response = .readOk 0) ∧
    (reservedOffset a.toNat ∨ readOnlyOffset a.toNat → after s (.write a v) = { s with response := .writeOk })) ∧
  (∀ s : State, s.busy = false →
    ∀ x ∈ [(0x0C, s.len), (0x20, s.stgCount), (0x30, s.duration.bits.extractLsb' 0 32),
        (0x34, s.duration.bits.extractLsb' 32 32), (0x38, s.result.bits.extractLsb' 0 32),
        (0x3C, s.result.bits.extractLsb' 32 32), (0x48, s.errAddr)],
      (after s (.read (at22 x.1))).response = .readOk x.2)

/-- 10_state.md R47, R51: a write to one word of a parameter register stores it unchecked, idle or BUSY, and changes
nothing else, the other word included; a read while idle returns what the word holds. -/
def Obligations.ParameterWordsIndependent : Prop :=
  ∀ row ∈ regTable, ∀ (s : State) (v : Word),
    (∃ t, t = after s (.write (at22 row.offset) v) ∧
      t = { s with params := t.params, response := .writeOk } ∧
      t.params.get row.reg = ⟨(s.params.get row.reg).bits.extractLsb' 32 32 ++ v⟩ ∧
      (∀ r, r ≠ row.reg → t.params.get r = s.params.get r)) ∧
    (∃ t, t = after s (.write (at22 (row.offset + 4)) v) ∧
      t = { s with params := t.params, response := .writeOk } ∧
      t.params.get row.reg = ⟨v ++ (s.params.get row.reg).bits.extractLsb' 0 32⟩ ∧
      (∀ r, r ≠ row.reg → t.params.get r = s.params.get r)) ∧
    (s.busy = false →
      (after s (.read (at22 row.offset))).response = .readOk ((s.params.get row.reg).bits.extractLsb' 0 32) ∧
      (after s (.read (at22 (row.offset + 4)))).response = .readOk ((s.params.get row.reg).bits.extractLsb' 32 32))

/-- 10_state.md R35, R37, R40, R43, R48, R52: the other RW registers. NOTE, IRQ_EN and WAVE_TYPE are written at any
time, the last two keeping only their fields; the words of RNG and FN_IN_LO are written while idle. A read while idle
gives the value back. -/
def Obligations.OtherRegisterWrites : Prop :=
  ∀ (s : State) (v : Word),
    after s (.write (at22 0x40) v) = { s with note := v, response := .writeOk } ∧
    after s (.write (at22 0x10) v) = { s with irqEn := v.extractLsb' 0 3, response := .writeOk } ∧
    after s (.write (at22 0x1B0) v) = { s with waveType := v.extractLsb' 0 2, response := .writeOk } ∧
    (after (after s (.write (at22 0x40) v)) (.read (at22 0x40))).response = .readOk v ∧
    (after (after s (.write (at22 0x10) v)) (.read (at22 0x10))).response = .readOk (v &&& 7#32) ∧
    (after (after s (.write (at22 0x1B0) v)) (.read (at22 0x1B0))).response = .readOk (v &&& 3#32) ∧
    (s.busy = false →
      after s (.write (at22 0x18) v) = { s with rng := s.rng.extractLsb' 32 32 ++ v, response := .writeOk } ∧
      after s (.write (at22 0x1C) v) = { s with rng := v ++ s.rng.extractLsb' 0 32, response := .writeOk } ∧
      after s (.write (at22 0x28) v) = { s with fnInLo := v, response := .writeOk } ∧
      (after s (.read (at22 0x18))).response = .readOk (s.rng.extractLsb' 0 32) ∧
      (after s (.read (at22 0x1C))).response = .readOk (s.rng.extractLsb' 32 32))

/-- 60_exceptions.md R451: a write to CMD, SMP_IN, FN_IN_LO, FN_IN_HI, RNG_LO or RNG_HI while BUSY is dropped, sets OVR
and does nothing else, with no error response. -/
def Obligations.BusyDropsWrites : Prop :=
  ∀ (s : State) (v : Word), s.busy = true → ∀ a ∈ [0x04, 0x24, 0x28, 0x2C, 0x18, 0x1C],
    after s (.write (at22 a) v) = { s with status := { s.status with ovr := true }, response := .writeOk } ∧
    (after s (.write (at22 a) v)).response.pslverr = false

/-- 20_memory.md R112, 70_reset_and_hazards.md R481: no host event but a reset changes an accepted command or the
operands it was accepted with. -/
def Obligations.NoHostAccessChangesAcceptedCommand : Prop :=
  ∀ (s : State) (e : HostEvent), s.busy = true → e.resets = false →
    (after s e).seq = s.seq ∧ (after s e).operands = s.operands

/-- 70_reset_and_hazards.md R490: while BUSY, BUSY and OVR and the registers a command never writes read their current
values. -/
def Obligations.BusyReadsOfUnwrittenRegisters : Prop :=
  ∀ s : State, s.busy = true →
    (∃ v, (after s (.read (at22 0x08))).response = .readOk v ∧ v.getLsbD 0 = true ∧ v.getLsbD 3 = s.status.ovr) ∧
    (after s (.read (at22 0x40))).response = .readOk s.note ∧
    (after s (.read (at22 0x10))).response = .readOk (s.irqEn.setWidth 32) ∧
    (after s (.read (at22 0x1B0))).response = .readOk (s.waveType.setWidth 32) ∧
    (∀ row ∈ regTable, row.reg ≠ .pitchHz →
      (after s (.read (at22 row.offset))).response = .readOk (s.params.get row.reg).lowWord ∧
      (after s (.read (at22 (row.offset + 4)))).response = .readOk (s.params.get row.reg).highWord)

/-- 20_memory.md R101, R102: a word of the table or PCM window holds two samples, the even one in the low half, and the
PCM samples stand in the window as little-endian bytes; writes there are ignored. -/
def Obligations.TableAndPcmWindows : Prop :=
  ∀ s : State,
    (s.busy = false → ∀ j < 512,
      (after s (.read (at22 (0x800 + 4 * j)))).response = .readOk (s.tbl (2 * j + 1) ++ s.tbl (2 * j))) ∧
    (s.busy = false → ∀ j < Config.machine.pcmCap / 2,
      (after s (.read (at22 (0x100000 + 4 * j)))).response = .readOk (s.pcm (2 * j + 1) ++ s.pcm (2 * j))) ∧
    (∀ n, s.pcm n = s.byteAt (0x100000 + (2 * n + 1)) ++ s.byteAt (0x100000 + 2 * n)) ∧
    (∀ (j : Nat) (v : Word),
      (j < 512 → after s (.write (at22 (0x800 + 4 * j)) v) = { s with response := .writeOk }) ∧
      (j < Config.machine.pcmCap / 2 →
        after s (.write (at22 (0x100000 + 4 * j)) v) = { s with response := .writeOk }))

/-- 10_state.md R33, 60_exceptions.md R440: the STATUS word: idle or BUSY, BUSY and OVR show, codes 7 to 15 and
END_REASON 3 never show, and the reserved bits read 0; while idle every field shows. -/
def Obligations.StatusWord : Prop :=
  ∀ s : State,
    ∃ v : Word, (after s (.read (at22 0x08))).response = .readOk v ∧
      v.getLsbD 0 = s.busy ∧ v.getLsbD 3 = s.status.ovr ∧
      (v.extractLsb' 4 4).toNat ≤ 6 ∧ (v.extractLsb' 8 2).toNat ≤ 2 ∧ v.extractLsb' 10 22 = 0 ∧
      (s.busy = false →
        v.getLsbD 1 = s.status.done ∧ v.getLsbD 2 = s.status.err ∧
        (∀ x ∈ [(ErrCode.none, 0#4), (.invalidNote, 1#4), (.emptyWavetable, 2#4), (.invalidParameter, 3#4),
            (.illegalCommand, 4#4), (.capacityExceeded, 5#4), (.shortWavetable, 6#4)],
          s.status.errCode = x.1 → v.extractLsb' 4 4 = x.2) ∧
        (∀ x ∈ [(EndReason.none, 0#2), (.envelope, 1#2), (.limit, 2#2)],
          s.status.endReason = x.1 → v.extractLsb' 8 2 = x.2))

/-- 10_state.md R33: a write of 1 to DONE, ERR or OVR clears that bit, a write of 0 leaves it, the other bits are
ignored, idle or BUSY. -/
def Obligations.StatusWriteOneToClear : Prop :=
  ∀ (s : State) (v : Word),
    after s (.write (at22 0x08) v) =
      { s with
        response := .writeOk
        status := { s.status with
          done := if v.getLsbD 1 then false else s.status.done
          err := if v.getLsbD 2 then false else s.status.err
          ovr := if v.getLsbD 3 then false else s.status.ovr } }

/-- 10_state.md R32, R33, 00_scope.md R22: a write to CMD while idle issues the command: the registers it reads are
snapshotted as they stand, BUSY is set, DONE, ERR, ERRCODE and END_REASON are 0, OVR and everything else stay. That the
snapshot holds every register some command reads, whichever the word, is the model's choice (log entry 15, DESIGN
CHOICE), and so are the latency `n` and the counter it is drawn with (log entries 2, 18). -/
def Obligations.CmdWriteAccepts : Prop :=
  ∀ (s : State) (w : Word), s.busy = false →
    ∃ n free, after s (.write (at22 0x04) w) =
      { s with
        seq := .busy w ⟨s.params, s.waveType, s.note, s.rng, s.stgCount⟩ n
        status := { done := false, err := false, ovr := s.status.ovr, errCode := .none, endReason := .none }
        free := free
        response := .writeOk }

/-- 60_exceptions.md R450: IRQ is the level of the three status bits with their enables; a write to IRQ_EN acts on it
at once; it is 0 after reset. -/
def Obligations.InterruptLevel : Prop :=
  (∀ s : State, s.irq = true ↔
    (s.status.done = true ∧ s.irqEn.getLsbD 0 = true) ∨ (s.status.err = true ∧ s.irqEn.getLsbD 1 = true) ∨
      (s.status.ovr = true ∧ s.irqEn.getLsbD 2 = true)) ∧
  (∀ (s : State) (v : Word), (after s (.write (at22 0x10) v)).irq =
    ((s.status.done && v.getLsbD 0) || (s.status.err && v.getLsbD 1) || (s.status.ovr && v.getLsbD 2))) ∧
  State.reset.irq = false

/-- 60_exceptions.md R448: DONE, ERR and OVR are cleared only by a write of 1, by the accept of a command (DONE and
ERR) or by a reset; no complete step clears DONE or OVR. -/
def Obligations.StatusBitsClearedOnlyBy : Prop :=
  (∀ (s : State) (e : HostEvent), e.resets = false →
    (s.status.done = true → (after s e).status.done = false →
      (∃ v, e = .write (at22 0x08) v ∧ v.getLsbD 1 = true) ∨ (s.busy = false ∧ ∃ v, e = .write (at22 0x04) v)) ∧
    (s.status.err = true → (after s e).status.err = false →
      (∃ v, e = .write (at22 0x08) v ∧ v.getLsbD 2 = true) ∨ (s.busy = false ∧ ∃ v, e = .write (at22 0x04) v)) ∧
    (s.status.ovr = true → (after s e).status.ovr = false → ∃ v, e = .write (at22 0x08) v ∧ v.getLsbD 3 = true)) ∧
  (∀ (i : Instr) (s t : State), exec i s = .next t → t.status.done = true ∧ t.status.ovr = s.status.ovr)

/-- 40_waveform_table.md R201: a write to SMP_IN while idle appends the sample in bits 15:0; past 1024 it is only
counted, and the count saturates. While BUSY it is dropped and sets OVR. -/
def Obligations.SmpInAppends : Prop :=
  ∀ (s : State) (v : Word),
    (s.busy = false →
      ∃ t, t = after s (.write (at22 0x24) v) ∧
        t = { s with stg := t.stg, stgCount := t.stgCount, response := .writeOk } ∧
        (∀ k : Fin 1024, t.stg[k] = if s.stgCount.toNat = k.val then v.extractLsb' 0 16 else s.stg[k]) ∧
        t.stgCount.toNat = min (s.stgCount.toNat + 1) (2 ^ 32 - 1)) ∧
    (s.busy = true → after s (.write (at22 0x24) v) =
      { s with status := { s.status with ovr := true }, response := .writeOk })

/-- 40_waveform_table.md R202: a write to FN_IN_HI while idle appends the converted binary64 value of `{v, FN_IN_LO}`
in the same way; FN_IN_LO keeps its value; a NaN stores 0, an infinity 32767 or -32767. -/
def Obligations.FnInAppends : Prop :=
  ∀ (s : State) (v : Word), s.busy = false →
    ∃ t b, t = after s (.write (at22 0x2C) v) ∧ b = (⟨v ++ s.fnInLo⟩ : F64) ∧
      t = { s with stg := t.stg, stgCount := t.stgCount, response := .writeOk } ∧
      (∀ k : Fin 1024, t.stg[k].toInt = if s.stgCount.toNat = k.val then tableValue b else s.stg[k].toInt) ∧
      t.stgCount.toNat = min (s.stgCount.toNat + 1) (2 ^ 32 - 1) ∧
      (b.isNaN = true → tableValue b = 0) ∧ (b = F64.inf false → tableValue b = 32767) ∧
      (b = F64.inf true → tableValue b = -32767)

/-- 10_state.md R53, R55, 40_waveform_table.md R200: no host event but a reset reaches the table, the PCM RAM or a
result. -/
def Obligations.HostNeverWritesSampleMemories : Prop :=
  ∀ (s : State) (e : HostEvent), e.resets = false →
    (∀ a, (after s e).byteAt a = s.byteAt a) ∧ (after s e).len = s.len ∧ (after s e).duration = s.duration ∧
      (after s e).result = s.result ∧ (after s e).errAddr = s.errAddr

/-! ## Commands -/

/-- 48_note_and_control.md R421: NOP completes, with DONE = 1 and ERR, ERRCODE and END_REASON 0, and does nothing
else; from an idle, clear status its STATUS word is 0x00000002. -/
def Obligations.NopCompletes : Prop :=
  ∀ s : State, exec .nop s = .next (succeeded s .none) ∧
    (s.status.ovr = false → (succeeded s .none).statusWord = 0x00000002#32)

/-- 40_waveform_table.md R215: STG_CLEAR completes with STG_COUNT = 0 and changes nothing else. -/
def Obligations.StgClearCompletes : Prop :=
  ∀ s : State, exec .stgClear s = .next { succeeded s .none with stgCount := 0 }

/-- 40_waveform_table.md R210, R212: TBL_COMMIT of 1024 or more staged values copies the first 1024 into the table and
clears STG_COUNT; of none it fails with EMPTY_WAVETABLE. No other register and no other byte changes. -/
def Obligations.TblCommitFullOrEmpty : Prop :=
  ∀ s : State,
    (s.operands.stgCount = 0 → exec .tblCommit s = .next (failed s .emptyWavetable 0)) ∧
    (1024 ≤ s.operands.stgCount.toNat →
      ∃ t, exec .tblCommit s = .next t ∧ t = { succeeded s .none with stgCount := 0, mem := t.mem } ∧
        (∀ k : Fin 1024, t.tbl k.val = s.stg[k]) ∧ sameBytesOutside s t 0x800 2048)

/-- 40_waveform_table.md R211: TBL_COMMIT of 1 to 1023 staged values under each short-table policy. It is said of every
configuration, because the machine's own policy is unknown (log entry 1). -/
def Obligations.TblCommitShort : Prop :=
  ∀ (cfg : Config) (s : State), 1 ≤ s.operands.stgCount.toNat → s.operands.stgCount.toNat < 1024 →
    (cfg.shortPolicy = .reject → runs cfg .tblCommit s (failed s .shortWavetable 0)) ∧
    (cfg.shortPolicy ≠ .reject →
      ∃ t, runs cfg .tblCommit s t ∧ t = { succeeded s .none with stgCount := 0, mem := t.mem } ∧
        (∀ k < 1024, shortEntry cfg.shortPolicy s.stgAt s.operands.stgCount.toNat k = some (t.tbl k)) ∧
        sameBytesOutside s t 0x800 2048)

/-- 40_waveform_table.md R205, R207: TBL_PRESET builds all 1024 entries from the preset's generator at the points
i/1023 and changes nothing else; for the square an out-of-domain TBL_DUTY fails with ERR_ADDR = 0x230, and the other
presets do not check it. -/
def Obligations.TblPresetBuilds : Prop :=
  ∀ (sel : BitVec 2) (s : State),
    (operandsOk (.tblPreset sel) s →
      ∃ t, exec (.tblPreset sel) s = .next t ∧ t = { succeeded s .none with mem := t.mem } ∧
        (∀ k < 1024, (t.tbl k).toInt =
          tableValue (presetGenerator sel s.operands.params.tblDuty ((F64.ofNat k).div (.lit 1023 1)))) ∧
        sameBytesOutside s t 0x800 2048) ∧
    (¬ operandsOk (.tblPreset sel) s →
      sel = 1 ∧ exec (.tblPreset sel) s = .next (failed s .invalidParameter 0x230))

/-- 00_scope.md R19, R20: `quant` gives the floor saturated to 16 bits and 0 for a value that is not finite; `tconv`
never gives -32768; `floor` is the greatest integer below. -/
def Obligations.SampleConversions : Prop :=
  ∀ v : F64,
    (v.quant).toInt = (if v.isFinite then max (-32768) (min 32767 v.floor) else 0) ∧
    (v.tconv).toInt = tableValue v ∧ -32767 ≤ tableValue v ∧ tableValue v ≤ 32767 ∧
    (v.isFinite = true → ∀ k : Int, k ≤ v.floor ↔ k * F64.unitsPerOne ≤ v.units)

/-- 40_waveform_table.md R216, R218: LOOKUP writes the interpolated value to RESULT and changes nothing else; a phase
that is not finite fails with ERR_ADDR = 0x238. -/
def Obligations.LookupInterpolates : Prop :=
  ∀ s : State,
    (s.operands.params.uPhase.isFinite = true →
      exec .lookup s = .next { succeeded s .none with result := lookupFormula s.tbl s.operands.params.uPhase }) ∧
    (s.operands.params.uPhase.isFinite = false → exec .lookup s = .next (failed s .invalidParameter 0x238))

/-- 40_waveform_table.md R218: a table never built reads 0: LOOKUP of an all-zero table answers +0.0 at every finite
phase. -/
def Obligations.LookupOfZeroTable : Prop :=
  ∀ s : State, (∀ k < 1024, s.tbl k = 0) → s.operands.params.uPhase.isFinite = true →
    ∃ t, exec .lookup s = .next t ∧ t.result = F64.zero

/-- 00_scope.md R17: `wrap` always yields a value in [0, 1), and on a finite value it is `x - real(floor(x))` but for a
result of 1.0. For a value that is not finite the range is all that is known (log entry 10). -/
def Obligations.WrapIsPhase : Prop :=
  ∀ x : F64,
    ((x.wrap Config.machine).isFinite = true ∧ F64.zero.le (x.wrap Config.machine) = true ∧
      (x.wrap Config.machine).lt F64.one = true) ∧
    (x.isFinite = true → x.wrap Config.machine =
      if (x.sub (.ofInt x.floor)).eq F64.one then F64.zero else x.sub (.ofInt x.floor))

/-- 42_oscillator.md R272 to R274, R281, R282: OSC_GEN answers the wave's value at the wrapped phase; noise draws once
and writes the next state to RNG; nothing else changes. -/
def Obligations.OscGenValue : Prop :=
  ∀ (sel : BitVec 2) (s : State), operandsOk (.oscGen sel) s →
    ∃ p, p = s.operands.params.uPhase.wrap Config.machine ∧
    (sel = 0 → exec (.oscGen sel) s = .next { succeeded s .none with
      result := if p.lt s.operands.params.uDuty then F64.one else F64.minusOne }) ∧
    (sel = 1 → exec (.oscGen sel) s = .next { succeeded s .none with result := ((F64.lit 2 1).mul p).sub F64.one }) ∧
    (sel = 2 → exec (.oscGen sel) s = .next { succeeded s .none with
      result := Config.machine.sin (F64.twoPi.mul p) }) ∧
    (sel = 3 → exec (.oscGen sel) s = .next { succeeded s .none with
      result := (Config.machine.rngNext s.operands.rng).1, rng := (Config.machine.rngNext s.operands.rng).2 })

/-- 41_envelope.md R241, R242, R250: ENV_EVAL tone writes the tone envelope at U_TIME to RESULT and changes nothing
else. -/
def Obligations.EnvEvalTone : Prop :=
  ∀ s : State, operandsOk (.envEval 0) s → ∃ p, p = s.operands.params ∧
    exec (.envEval 0) s = .next { succeeded s .none with
      result := toneEnvelope p.tAttack p.tDecay p.tSustain p.tRelease p.tSustainLevel p.uTime }

/-- 41_envelope.md R249: the tone envelope is finite and in [0, 1] at every time, for every legal DECAY_SHAPE. R243: with
an attack it is 0.0 at t = 0, and where the decay starts, at t = B1, it is 1.0. That DECAY_SHAPE keeps its range at 1.0,
which a time within rounding of the decay's end can give it (log entry 14), and that it takes -0.0 to a zero (log entry
26), is the model's reading. -/
def Obligations.ToneEnvelopeRange : Prop :=
  ∀ s : State, operandsOk (.envEval 0) s →
    ∃ p t, p = s.operands.params ∧ exec (.envEval 0) s = .next t ∧ t.result.isFinite = true ∧
      F64.zero.le t.result = true ∧ t.result.le F64.one = true ∧
      (p.uTime.eq F64.zero = true → F64.zero.lt p.tAttack = true → t.result.eq F64.zero = true) ∧
      (p.uTime.eq p.tAttack = true → p.uTime.lt (p.tAttack.add p.tDecay) = true → t.result = F64.one)

/-- 41_envelope.md R250 to R252: ENV_EVAL effect writes EFFECT_ENV of (A, S, D, PU, t) to RESULT, where A, S and D are
ENV_TIME of ENV_ATTACK, ENV_SUSTAIN and ENV_DECAY, PU is ENV_PUNCH and t is U_TIME, and changes nothing else: under the
machine's own configuration, and under every other (log entry 1). Under one that meets table P that value is t/A before
A, 0 from the end W on, and finite and in [0, 1 + PU] between. -/
def Obligations.EnvEvalEffect : Prop :=
  (∀ s : State, operandsOk (.envEval 1) s → ∃ p, p = s.operands.params ∧
    exec (.envEval 1) s = .next { succeeded s .none with
      result := Config.machine.effectEnv (Config.machine.envTime p.envAttack) (Config.machine.envTime p.envSustain)
        (Config.machine.envTime p.envDecay) p.envPunch p.uTime }) ∧
  (∀ (cfg : Config) (s : State), operandsOk (.envEval 1) s →
    ∃ p v, p = s.operands.params ∧
      v = cfg.effectEnv (cfg.envTime p.envAttack) (cfg.envTime p.envSustain) (cfg.envTime p.envDecay) p.envPunch
        p.uTime ∧
      runs cfg (.envEval 1) s { succeeded s .none with result := v } ∧
      (cfg.Legal →
        (p.uTime.lt (cfg.envTime p.envAttack) = true → v = p.uTime.div (cfg.envTime p.envAttack)) ∧
        (p.uTime.lt (cfg.envTime p.envAttack) = false → (effectSpan cfg p).le p.uTime = true → v = F64.zero) ∧
        (p.uTime.lt (cfg.envTime p.envAttack) = false → (effectSpan cfg p).le p.uTime = false →
          v.isFinite = true ∧ F64.zero.le v = true ∧ v.le (F64.one.add p.envPunch) = true)))

/-- 41_envelope.md R248: with all four durations zero the tone envelope is 0.0 at every time, and ENV_EVAL says so. -/
def Obligations.ToneEnvelopeOfZeroDurations : Prop :=
  ∀ s : State, operandsOk (.envEval 0) s →
    (∀ r ∈ [PReg.tAttack, .tDecay, .tSustain, .tRelease], (s.operands.params.get r).eq F64.zero = true) →
    exec (.envEval 0) s = .next { succeeded s .none with result := F64.zero }

/-- 48_note_and_control.md R420, R422 to R424: NOTE_RESOLVE of a valid name writes 440 * POW2(offset / 12) to RESULT and
PITCH_HZ; any other string fails with INVALID_NOTE. -/
def Obligations.NoteResolveValue : Prop :=
  ∀ s : State,
    (∀ k, spells s.operands.note k → ∃ f,
      f = (F64.lit 440 1).mul (Config.machine.pow2 ((F64.ofInt k).div (.lit 12 1))) ∧
      exec .noteResolve s =
        .next { succeeded s .none with result := f, params := { s.params with pitchHz := f } }) ∧
    ((¬ ∃ k, spells s.operands.note k) → exec .noteResolve s = .next (failed s .invalidNote 0))

/-- 48_note_and_control.md R424, corner cases: A4 is exactly 440.0, A0 27.5 and A8 7040.0. It rests on POW2 being exact
at integers, which the model deduces (log entry 13). -/
def Obligations.ConcertPitchExact : Prop :=
  ∀ s : State, ∀ x ∈ [(0x00003441#32, F64.lit 440 1), (0x00003041#32, .lit 275 10), (0x00003841#32, .lit 7040 1)],
    s.operands.note = x.1 →
    exec .noteResolve s =
      .next { succeeded s .none with result := x.2, params := { s.params with pitchHz := x.2 } }

/-- 47_renderers.md R380, R383 to R385: RENDER_TONE of a length N that fits writes PCM[0 .. N-1], each sample the lookup
at the running phase times the envelope, sets LEN, DURATION and END_REASON = 1, and changes no other register and no
other byte. -/
def Obligations.RenderToneSamples : Prop :=
  ∀ s : State, operandsOk .renderTone s →
    ∀ y, y = (toneSpan s.operands.params).mul rate → y.isFinite = true → y.ceil.toNat ≤ Config.machine.pcmCap →
    ∃ p t, p = s.operands.params ∧ exec .renderTone s = .next t ∧
      t = { succeeded s .envelope with
        mem := t.mem
        len := BitVec.ofNat 32 y.ceil.toNat
        duration := (F64.ofNat y.ceil.toNat).div rate } ∧
      (∀ n < y.ceil.toNat, t.pcm n =
        ((lookupFormula s.tbl (tonePhase (p.pitchHz.div rate) n)).mul
          (toneEnvelope p.tAttack p.tDecay p.tSustain p.tRelease p.tSustainLevel ((F64.ofNat n).div rate))).quant) ∧
      sameBytesOutside s t 0x100000 (2 * y.ceil.toNat)

/-- 47_renderers.md R381: a render whose length could exceed the PCM RAM fails with CAPACITY_EXCEEDED before writing
anything: the tone by its length, the effect by its envelope length, whatever its limit. That a length which is not
finite exceeds it is the model's reading (log entry 12). The effect is said of every configuration, because the
machine's ENV_TIME is unknown (log entry 1). -/
def Obligations.RenderCapacity : Prop :=
  (∀ s : State, operandsOk .renderTone s →
    ∀ y, y = (toneSpan s.operands.params).mul rate →
    (y.isFinite = true ∧ Config.machine.pcmCap < y.ceil.toNat) ∨ y.isFinite = false →
    exec .renderTone s = .next (failed s .capacityExceeded 0)) ∧
  (∀ (cfg : Config) (s : State), operandsOk .renderEffect s →
    ∀ y, y = (effectSpan cfg s.operands.params).mul rate →
    (y.isFinite = true ∧ cfg.pcmCap < y.ceil.toNat) ∨ y.isFinite = false →
    runs cfg .renderEffect s (failed s .capacityExceeded 0))

/-- 47_renderers.md R388, R389, R391 to R393, 42_oscillator.md R275, R276: RENDER_EFFECT of an envelope length that fits does what the spec's loop
does, line by line: its samples, LEN, DURATION, END_REASON and RNG, and no other register and no other byte changes. It
is said of every configuration, the machine's own included (log entry 1). -/
def Obligations.RenderEffectFollowsLoop : Prop :=
  ∀ (cfg : Config) (s : State), operandsOk .renderEffect s →
    ∀ y, y = (effectSpan cfg s.operands.params).mul rate → y.isFinite = true → y.ceil.toNat ≤ cfg.pcmCap →
    2 ≤ cfg.phaserLen →
    ∃ e t, e = loop cfg s.operands y.ceil.toNat (y.ceil.toNat + 1) 0 (loopStart cfg s.operands) ∧
      runs cfg .renderEffect s t ∧
      t = { succeeded s e.2.1 with
        mem := t.mem
        len := BitVec.ofNat 32 e.1.length
        duration := (F64.ofNat e.1.length).div rate
        rng := e.2.2 } ∧
      (∀ n v, e.1[n]? = some v → t.pcm n = v) ∧ e.1.length ≤ y.ceil.toNat ∧
      sameBytesOutside s t 0x100000 (2 * e.1.length)

/-- 47_renderers.md R388 (corner cases), R394: an envelope of length 0 ends the render at once by the envelope, even
below the limit; else a start frequency below the limit ends it at once by the limit. -/
def Obligations.EffectEndsAtOnce : Prop :=
  ∀ (cfg : Config) (s : State), operandsOk .renderEffect s →
    ∀ y, y = (effectSpan cfg s.operands.params).mul rate → y.isFinite = true → y.ceil.toNat ≤ cfg.pcmCap →
    (y.ceil.toNat = 0 → ∃ t, runs cfg .renderEffect s t ∧ t.len = 0 ∧ t.status.endReason = .envelope) ∧
    (0 < y.ceil.toNat →
      (cfg.freqMap s.operands.params.baseFreq).lt (cfg.limitMap s.operands.params.freqLimit) = true →
      ∃ t, runs cfg .renderEffect s t ∧ t.len = 0 ∧ t.status.endReason = .limit ∧ t.status.err = false)

/-- 47_renderers.md R398, 42_oscillator.md R280: two RENDER_EFFECT commands with the same effect registers, WAVE_TYPE
and RNG have the same outcome, and where they succeed the same LEN, DURATION, END_REASON, RNG and samples, whatever
else the block holds. It is said of every configuration, the machine's own included (log entry 1). -/
def Obligations.EffectReadsOnlyItsOperands : Prop :=
  ∀ (cfg : Config) (s s' t t' : State),
    (∀ row ∈ effectRows, s.operands.params.get row.reg = s'.operands.params.get row.reg) →
    s.operands.waveType = s'.operands.waveType → s.operands.rng = s'.operands.rng →
    runs cfg .renderEffect s t → runs cfg .renderEffect s' t' →
    t.status.err = t'.status.err ∧ t.status.errCode = t'.status.errCode ∧ t.errAddr = t'.errAddr ∧
      t.status.endReason = t'.status.endReason ∧
      (t.status.err = false → t.len = t'.len ∧ t.duration = t'.duration ∧ t.rng = t'.rng ∧
        ∀ n < t.len.toNat, t.pcm n = t'.pcm n)

/-- 47_renderers.md R387: RENDER_TONE reads only its operands and the table. -/
def Obligations.ToneReadsOnlyItsOperands : Prop :=
  ∀ s s' t t' : State,
    (∀ r ∈ [PReg.pitchHz, .tAttack, .tDecay, .tSustain, .tRelease, .tSustainLevel],
      s.operands.params.get r = s'.operands.params.get r) →
    (∀ k < 1024, s.tbl k = s'.tbl k) →
    exec .renderTone s = .next t → exec .renderTone s' = .next t' →
    t.status.err = t'.status.err ∧ t.status.errCode = t'.status.errCode ∧ t.errAddr = t'.errAddr ∧
      (t.status.err = false → t.len = t'.len ∧ t.duration = t'.duration ∧ ∀ n < t.len.toNat, t.pcm n = t'.pcm n)

/-! ## All commands -/

/-- 60_exceptions.md R442: a command that fails changes nothing but STATUS, ERR_ADDR and the sequencer: it sets DONE,
ERR and a code, clears END_REASON, and leaves in ERR_ADDR the offset of a checked register out of its domain for
INVALID_PARAMETER and 0 for every other code; one that succeeds sets DONE and clears ERR, ERRCODE, ERR_ADDR and BUSY. -/
def Obligations.FailureChangesOnlyStatus : Prop :=
  ∀ (i : Instr) (s t : State), exec i s = .next t →
    (t.status.err = true → t = failed s t.status.errCode t.errAddr ∧ t.status.errCode ≠ .none ∧
      (t.status.errCode = .invalidParameter → ∃ row ∈ regTable, row.offset ∈ checkedOffsets i ∧ rowOk s row = false ∧
        t.errAddr = BitVec.ofNat 32 row.offset) ∧
      (t.status.errCode ≠ .invalidParameter → t.errAddr = 0)) ∧
    (t.status.err = false → t.seq = .idle ∧ t.status.done = true ∧ t.status.errCode = .none ∧ t.errAddr = 0)

/-- 60_exceptions.md R443: the command that reads a register checks it: the lowest checked register outside its domain
is reported and nothing else happens; with every checked register in its domain there is no INVALID_PARAMETER; a host
write is never checked. -/
def Obligations.DomainCheckReportsLowest : Prop :=
  (∀ (i : Instr) (s : State), i.wellFormed = true →
    (∀ row ∈ regTable, row.offset ∈ checkedOffsets i → rowOk s row = false →
      (∀ row' ∈ regTable, row'.offset ∈ checkedOffsets i → row'.offset < row.offset → rowOk s row' = true) →
      exec i s = .next (failed s .invalidParameter (BitVec.ofNat 32 row.offset))) ∧
    (operandsOk i s → ∀ t, exec i s = .next t → t.status.errCode ≠ .invalidParameter)) ∧
  (∀ row ∈ regTable, ∀ (s : State) (v : Word),
    (after s (.write (at22 row.offset) v)).params.get row.reg = ⟨(s.params.get row.reg).highWord ++ v⟩ ∧
    (after s (.write (at22 row.offset) v)).status = s.status)

/-- 10_state.md R34, R37, R38, R41, R42, 40_waveform_table.md R214, 47_renderers.md R397: which registers a command
leaves unchanged, success or failure. -/
def Obligations.CommandsKeepOtherRegisters : Prop :=
  ∀ (i : Instr) (s t : State), exec i s = .next t →
    (t.waveType = s.waveType ∧ t.note = s.note ∧ t.fnInLo = s.fnInLo ∧ t.stg = s.stg ∧ t.irqEn = s.irqEn ∧
      t.status.ovr = s.status.ovr ∧ t.inputs = s.inputs ∧ t.response = s.response) ∧
    (∀ r, r ≠ .pitchHz → t.params.get r = s.params.get r) ∧
    (i ≠ .noteResolve → t.params = s.params) ∧
    (i ≠ .tblCommit → i ≠ .stgClear → t.stgCount = s.stgCount) ∧
    (i ≠ .renderTone → i ≠ .renderEffect → t.len = s.len ∧ t.duration = s.duration ∧ t.status.endReason = .none) ∧
    (i ≠ .lookup → i ≠ .noteResolve → (∀ sel, i ≠ .oscGen sel) → (∀ sel, i ≠ .envEval sel) → t.result = s.result) ∧
    (i ≠ .oscGen 3 → i ≠ .renderEffect → t.rng = s.rng) ∧
    (i = .renderEffect → s.operands.waveType ≠ 3 → t.rng = s.rng ∨ t.rng = s.operands.rng)

/-- 10_state.md R53, R55, 20_memory.md R108: the table bytes change only under TBL_PRESET and TBL_COMMIT, the PCM bytes
only under a render that succeeds, and then only PCM[0 .. LEN-1]. -/
def Obligations.CommandsKeepOtherBytes : Prop :=
  ∀ (i : Instr) (s t : State), exec i s = .next t →
    (t.status.err = true → ∀ a, t.byteAt a = s.byteAt a) ∧
    ((∀ sel, i ≠ .tblPreset sel) → i ≠ .tblCommit → ∀ k < 1024, t.tbl k = s.tbl k) ∧
    (i ≠ .renderTone → i ≠ .renderEffect → ∀ n, t.pcm n = s.pcm n) ∧
    (i = .renderTone ∨ i = .renderEffect → t.status.err = false →
      sameBytesOutside s t 0x100000 (2 * t.len.toNat)) ∧
    ((∀ sel, i ≠ .tblPreset sel) → i ≠ .tblCommit → i ≠ .renderTone → i ≠ .renderEffect →
      ∀ a, t.byteAt a = s.byteAt a)

/-! ## Arithmetic -/

/-- 00_scope.md R16: sums, products and quotients of finite values are the binary64 values nearest to the exact ones,
ties to even, wherever they are finite. A value is its number of units of 2^-1074. -/
def Obligations.RoundingIsNearest : Prop :=
  ∀ x y : F64, x.isFinite = true → y.isFinite = true →
    ((x.add y).isFinite = true → nearestEven (x.units + y.units) 1 (x.add y)) ∧
    ((x.sub y).isFinite = true → nearestEven (x.units - y.units) 1 (x.sub y)) ∧
    ((x.mul y).isFinite = true → nearestEven (x.units * y.units) F64.unitsPerOne (x.mul y)) ∧
    (y.units ≠ 0 → (x.div y).isFinite = true →
      nearestEven (if 0 < y.units then x.units * F64.unitsPerOne else -(x.units * F64.unitsPerOne)) |y.units| (x.div y))
end

