-- ==== Sys2Proof/Laws/Params.lean ====
section
/-! SUPPORT. The parameter registers: reading after writing, and that the address map reaches each of them at its
offset (10_state.md R47, R49, R50, R51). -/

namespace Sys2Proof

namespace F64

@[simp] theorem lowWord_ofWords (hi lo : Word) : (ofWords hi lo).lowWord = lo :=
  BitVec.extractLsb'_append_eq_right

@[simp] theorem highWord_ofWords (hi lo : Word) : (ofWords hi lo).highWord = hi :=
  BitVec.extractLsb'_append_eq_left

@[simp] theorem lowWord_withLow (x : F64) (v : Word) : (x.withLow v).lowWord = v := by simp [withLow]

@[simp] theorem highWord_withLow (x : F64) (v : Word) : (x.withLow v).highWord = x.highWord := by
  simp [withLow]

@[simp] theorem lowWord_withHigh (x : F64) (v : Word) : (x.withHigh v).lowWord = x.lowWord := by
  simp [withHigh]

@[simp] theorem highWord_withHigh (x : F64) (v : Word) : (x.withHigh v).highWord = v := by simp [withHigh]

end F64

namespace Machine

@[simp] theorem Params.get_set_same (p : Params) (r : PReg) (v : F64) : (p.set r v).get r = v := by
  cases r <;> rfl

theorem Params.get_set_ne (p : Params) {r q : PReg} (h : q ≠ r) (v : F64) : (p.set r v).get q = p.get q := by
  cases r <;> cases q <;> first | rfl | exact absurd rfl h

/-- Every register stands in the list of all registers. -/
theorem mem_allRegs (r : PReg) : r ∈ allRegs := by cases r <;> decide

/-- The register file lies below the table window. -/
theorem PReg.offset_lt (r : PReg) : r.offset + 4 < tblBase := by cases r <;> decide

theorem locOf_register (cfg : Config) {a : Nat} (h : a < tblBase) : locOf cfg a = (registerMap.lookup a).getD .reserved := by
  have h1 : ¬ tblBase ≤ a := by omega
  have h2 : ¬ pcmBase ≤ a := by simp only [tblBase] at h; simp only [pcmBase]; omega
  simp [locOf, h1, h2]

theorem locOf_low (cfg : Config) (r : PReg) : locOf cfg r.offset = .paramLo r := by
  rw [locOf_register cfg (by have := r.offset_lt; omega)]
  cases r <;> decide

theorem locOf_high (cfg : Config) (r : PReg) : locOf cfg (r.offset + 4) = .paramHi r := by
  rw [locOf_register cfg (by have := r.offset_lt; omega)]
  cases r <;> decide

theorem locOf_table (cfg : Config) {a : Nat} (h : tblBase ≤ a) (h' : a < tblBase + 2048) :
    locOf cfg a = .sampleWord a := by simp [locOf, h, h']

theorem locOf_pcm (cfg : Config) {a : Nat} (h : pcmBase ≤ a) (h' : a < pcmBase + 2 * cfg.pcmCap) :
    locOf cfg a = .sampleWord a := by
  have h1 : ¬ a < tblBase + 2048 := by simp only [pcmBase] at h; simp only [tblBase]; omega
  simp [locOf, h, h', h1]

end Machine
end Sys2Proof
end

