-- ==== Sys2Proof/Laws/State.lean ====
section
/-! SUPPORT. One lemma per field for each shared operation on State, each true by `rfl`, so that no proof unfolds a
record update; and what `busy`, `operands` and `ready?` are in each sequencer state. -/

namespace Sys2Proof
namespace Machine

/-! ### acceptWith -/

@[simp] theorem State.acceptWith_params (s : State) (w : Word) (n : Nat) : (s.acceptWith w n).params = s.params := rfl
@[simp] theorem State.acceptWith_waveType (s : State) (w : Word) (n : Nat) : (s.acceptWith w n).waveType = s.waveType := rfl
@[simp] theorem State.acceptWith_note (s : State) (w : Word) (n : Nat) : (s.acceptWith w n).note = s.note := rfl
@[simp] theorem State.acceptWith_rng (s : State) (w : Word) (n : Nat) : (s.acceptWith w n).rng = s.rng := rfl
@[simp] theorem State.acceptWith_fnInLo (s : State) (w : Word) (n : Nat) : (s.acceptWith w n).fnInLo = s.fnInLo := rfl
@[simp] theorem State.acceptWith_stgCount (s : State) (w : Word) (n : Nat) : (s.acceptWith w n).stgCount = s.stgCount := rfl
@[simp] theorem State.acceptWith_stg (s : State) (w : Word) (n : Nat) : (s.acceptWith w n).stg = s.stg := rfl
@[simp] theorem State.acceptWith_mem (s : State) (w : Word) (n : Nat) : (s.acceptWith w n).mem = s.mem := rfl
@[simp] theorem State.acceptWith_pcmEpoch (s : State) (w : Word) (n : Nat) : (s.acceptWith w n).pcmEpoch = s.pcmEpoch := rfl
@[simp] theorem State.acceptWith_len (s : State) (w : Word) (n : Nat) : (s.acceptWith w n).len = s.len := rfl
@[simp] theorem State.acceptWith_duration (s : State) (w : Word) (n : Nat) : (s.acceptWith w n).duration = s.duration := rfl
@[simp] theorem State.acceptWith_result (s : State) (w : Word) (n : Nat) : (s.acceptWith w n).result = s.result := rfl
@[simp] theorem State.acceptWith_status (s : State) (w : Word) (n : Nat) : (s.acceptWith w n).status = { s.status with done := false, err := false, errCode := .none, endReason := .none } := rfl
@[simp] theorem State.acceptWith_errAddr (s : State) (w : Word) (n : Nat) : (s.acceptWith w n).errAddr = s.errAddr := rfl
@[simp] theorem State.acceptWith_irqEn (s : State) (w : Word) (n : Nat) : (s.acceptWith w n).irqEn = s.irqEn := rfl
@[simp] theorem State.acceptWith_seq (s : State) (w : Word) (n : Nat) : (s.acceptWith w n).seq = .busy w s.snapshot n := rfl
@[simp] theorem State.acceptWith_response (s : State) (w : Word) (n : Nat) : (s.acceptWith w n).response = s.response := rfl
@[simp] theorem State.acceptWith_inputs (s : State) (w : Word) (n : Nat) : (s.acceptWith w n).inputs = s.inputs := rfl
@[simp] theorem State.acceptWith_free (s : State) (w : Word) (n : Nat) : (s.acceptWith w n).free = s.free := rfl

/-! ### accept -/

@[simp] theorem State.accept_params (s : State) (w : Word) : (s.accept w).params = s.params := rfl
@[simp] theorem State.accept_waveType (s : State) (w : Word) : (s.accept w).waveType = s.waveType := rfl
@[simp] theorem State.accept_note (s : State) (w : Word) : (s.accept w).note = s.note := rfl
@[simp] theorem State.accept_rng (s : State) (w : Word) : (s.accept w).rng = s.rng := rfl
@[simp] theorem State.accept_fnInLo (s : State) (w : Word) : (s.accept w).fnInLo = s.fnInLo := rfl
@[simp] theorem State.accept_stgCount (s : State) (w : Word) : (s.accept w).stgCount = s.stgCount := rfl
@[simp] theorem State.accept_stg (s : State) (w : Word) : (s.accept w).stg = s.stg := rfl
@[simp] theorem State.accept_mem (s : State) (w : Word) : (s.accept w).mem = s.mem := rfl
@[simp] theorem State.accept_pcmEpoch (s : State) (w : Word) : (s.accept w).pcmEpoch = s.pcmEpoch := rfl
@[simp] theorem State.accept_len (s : State) (w : Word) : (s.accept w).len = s.len := rfl
@[simp] theorem State.accept_duration (s : State) (w : Word) : (s.accept w).duration = s.duration := rfl
@[simp] theorem State.accept_result (s : State) (w : Word) : (s.accept w).result = s.result := rfl
@[simp] theorem State.accept_status (s : State) (w : Word) : (s.accept w).status = { s.status with done := false, err := false, errCode := .none, endReason := .none } := rfl
@[simp] theorem State.accept_errAddr (s : State) (w : Word) : (s.accept w).errAddr = s.errAddr := rfl
@[simp] theorem State.accept_irqEn (s : State) (w : Word) : (s.accept w).irqEn = s.irqEn := rfl
@[simp] theorem State.accept_seq (s : State) (w : Word) : (s.accept w).seq = .busy w s.snapshot (Config.latency s.free) := rfl
@[simp] theorem State.accept_response (s : State) (w : Word) : (s.accept w).response = s.response := rfl
@[simp] theorem State.accept_inputs (s : State) (w : Word) : (s.accept w).inputs = s.inputs := rfl
@[simp] theorem State.accept_free (s : State) (w : Word) : (s.accept w).free = s.free + 1 := rfl

/-! ### finish -/

@[simp] theorem State.finish_params (s : State) (e : EndReason) : (s.finish e).params = s.params := rfl
@[simp] theorem State.finish_waveType (s : State) (e : EndReason) : (s.finish e).waveType = s.waveType := rfl
@[simp] theorem State.finish_note (s : State) (e : EndReason) : (s.finish e).note = s.note := rfl
@[simp] theorem State.finish_rng (s : State) (e : EndReason) : (s.finish e).rng = s.rng := rfl
@[simp] theorem State.finish_fnInLo (s : State) (e : EndReason) : (s.finish e).fnInLo = s.fnInLo := rfl
@[simp] theorem State.finish_stgCount (s : State) (e : EndReason) : (s.finish e).stgCount = s.stgCount := rfl
@[simp] theorem State.finish_stg (s : State) (e : EndReason) : (s.finish e).stg = s.stg := rfl
@[simp] theorem State.finish_mem (s : State) (e : EndReason) : (s.finish e).mem = s.mem := rfl
@[simp] theorem State.finish_pcmEpoch (s : State) (e : EndReason) : (s.finish e).pcmEpoch = s.pcmEpoch := rfl
@[simp] theorem State.finish_len (s : State) (e : EndReason) : (s.finish e).len = s.len := rfl
@[simp] theorem State.finish_duration (s : State) (e : EndReason) : (s.finish e).duration = s.duration := rfl
@[simp] theorem State.finish_result (s : State) (e : EndReason) : (s.finish e).result = s.result := rfl
@[simp] theorem State.finish_status (s : State) (e : EndReason) : (s.finish e).status = { s.status with done := true, err := false, errCode := .none, endReason := e } := rfl
@[simp] theorem State.finish_errAddr (s : State) (e : EndReason) : (s.finish e).errAddr = 0 := rfl
@[simp] theorem State.finish_irqEn (s : State) (e : EndReason) : (s.finish e).irqEn = s.irqEn := rfl
@[simp] theorem State.finish_seq (s : State) (e : EndReason) : (s.finish e).seq = .idle := rfl
@[simp] theorem State.finish_response (s : State) (e : EndReason) : (s.finish e).response = s.response := rfl
@[simp] theorem State.finish_inputs (s : State) (e : EndReason) : (s.finish e).inputs = s.inputs := rfl
@[simp] theorem State.finish_free (s : State) (e : EndReason) : (s.finish e).free = s.free := rfl

/-! ### raiseError -/

@[simp] theorem State.raiseError_params (s : State) (c : ErrCode) (a : Word) : (s.raiseError c a).params = s.params := rfl
@[simp] theorem State.raiseError_waveType (s : State) (c : ErrCode) (a : Word) : (s.raiseError c a).waveType = s.waveType := rfl
@[simp] theorem State.raiseError_note (s : State) (c : ErrCode) (a : Word) : (s.raiseError c a).note = s.note := rfl
@[simp] theorem State.raiseError_rng (s : State) (c : ErrCode) (a : Word) : (s.raiseError c a).rng = s.rng := rfl
@[simp] theorem State.raiseError_fnInLo (s : State) (c : ErrCode) (a : Word) : (s.raiseError c a).fnInLo = s.fnInLo := rfl
@[simp] theorem State.raiseError_stgCount (s : State) (c : ErrCode) (a : Word) : (s.raiseError c a).stgCount = s.stgCount := rfl
@[simp] theorem State.raiseError_stg (s : State) (c : ErrCode) (a : Word) : (s.raiseError c a).stg = s.stg := rfl
@[simp] theorem State.raiseError_mem (s : State) (c : ErrCode) (a : Word) : (s.raiseError c a).mem = s.mem := rfl
@[simp] theorem State.raiseError_pcmEpoch (s : State) (c : ErrCode) (a : Word) : (s.raiseError c a).pcmEpoch = s.pcmEpoch := rfl
@[simp] theorem State.raiseError_len (s : State) (c : ErrCode) (a : Word) : (s.raiseError c a).len = s.len := rfl
@[simp] theorem State.raiseError_duration (s : State) (c : ErrCode) (a : Word) : (s.raiseError c a).duration = s.duration := rfl
@[simp] theorem State.raiseError_result (s : State) (c : ErrCode) (a : Word) : (s.raiseError c a).result = s.result := rfl
@[simp] theorem State.raiseError_status (s : State) (c : ErrCode) (a : Word) : (s.raiseError c a).status = { s.status with done := true, err := true, errCode := c, endReason := .none } := rfl
@[simp] theorem State.raiseError_errAddr (s : State) (c : ErrCode) (a : Word) : (s.raiseError c a).errAddr = a := rfl
@[simp] theorem State.raiseError_irqEn (s : State) (c : ErrCode) (a : Word) : (s.raiseError c a).irqEn = s.irqEn := rfl
@[simp] theorem State.raiseError_seq (s : State) (c : ErrCode) (a : Word) : (s.raiseError c a).seq = .idle := rfl
@[simp] theorem State.raiseError_response (s : State) (c : ErrCode) (a : Word) : (s.raiseError c a).response = s.response := rfl
@[simp] theorem State.raiseError_inputs (s : State) (c : ErrCode) (a : Word) : (s.raiseError c a).inputs = s.inputs := rfl
@[simp] theorem State.raiseError_free (s : State) (c : ErrCode) (a : Word) : (s.raiseError c a).free = s.free := rfl

/-! ### finishResult -/

@[simp] theorem State.finishResult_params (s : State) (v : F64) : (s.finishResult v).params = s.params := rfl
@[simp] theorem State.finishResult_waveType (s : State) (v : F64) : (s.finishResult v).waveType = s.waveType := rfl
@[simp] theorem State.finishResult_note (s : State) (v : F64) : (s.finishResult v).note = s.note := rfl
@[simp] theorem State.finishResult_rng (s : State) (v : F64) : (s.finishResult v).rng = s.rng := rfl
@[simp] theorem State.finishResult_fnInLo (s : State) (v : F64) : (s.finishResult v).fnInLo = s.fnInLo := rfl
@[simp] theorem State.finishResult_stgCount (s : State) (v : F64) : (s.finishResult v).stgCount = s.stgCount := rfl
@[simp] theorem State.finishResult_stg (s : State) (v : F64) : (s.finishResult v).stg = s.stg := rfl
@[simp] theorem State.finishResult_mem (s : State) (v : F64) : (s.finishResult v).mem = s.mem := rfl
@[simp] theorem State.finishResult_pcmEpoch (s : State) (v : F64) : (s.finishResult v).pcmEpoch = s.pcmEpoch := rfl
@[simp] theorem State.finishResult_len (s : State) (v : F64) : (s.finishResult v).len = s.len := rfl
@[simp] theorem State.finishResult_duration (s : State) (v : F64) : (s.finishResult v).duration = s.duration := rfl
@[simp] theorem State.finishResult_result (s : State) (v : F64) : (s.finishResult v).result = v := rfl
@[simp] theorem State.finishResult_status (s : State) (v : F64) : (s.finishResult v).status = { s.status with done := true, err := false, errCode := .none, endReason := .none } := rfl
@[simp] theorem State.finishResult_errAddr (s : State) (v : F64) : (s.finishResult v).errAddr = 0 := rfl
@[simp] theorem State.finishResult_irqEn (s : State) (v : F64) : (s.finishResult v).irqEn = s.irqEn := rfl
@[simp] theorem State.finishResult_seq (s : State) (v : F64) : (s.finishResult v).seq = .idle := rfl
@[simp] theorem State.finishResult_response (s : State) (v : F64) : (s.finishResult v).response = s.response := rfl
@[simp] theorem State.finishResult_inputs (s : State) (v : F64) : (s.finishResult v).inputs = s.inputs := rfl
@[simp] theorem State.finishResult_free (s : State) (v : F64) : (s.finishResult v).free = s.free := rfl

/-! ### finishRender -/

@[simp] theorem State.finishRender_params (s : State) (vs : List Sample) (e : EndReason) : (s.finishRender vs e).params = s.params := rfl
@[simp] theorem State.finishRender_waveType (s : State) (vs : List Sample) (e : EndReason) : (s.finishRender vs e).waveType = s.waveType := rfl
@[simp] theorem State.finishRender_note (s : State) (vs : List Sample) (e : EndReason) : (s.finishRender vs e).note = s.note := rfl
@[simp] theorem State.finishRender_rng (s : State) (vs : List Sample) (e : EndReason) : (s.finishRender vs e).rng = s.rng := rfl
@[simp] theorem State.finishRender_fnInLo (s : State) (vs : List Sample) (e : EndReason) : (s.finishRender vs e).fnInLo = s.fnInLo := rfl
@[simp] theorem State.finishRender_stgCount (s : State) (vs : List Sample) (e : EndReason) : (s.finishRender vs e).stgCount = s.stgCount := rfl
@[simp] theorem State.finishRender_stg (s : State) (vs : List Sample) (e : EndReason) : (s.finishRender vs e).stg = s.stg := rfl
@[simp] theorem State.finishRender_mem (s : State) (vs : List Sample) (e : EndReason) : (s.finishRender vs e).mem = Memory.writeBlock s.mem pcmBase (samplesBytes vs) := rfl
@[simp] theorem State.finishRender_pcmEpoch (s : State) (vs : List Sample) (e : EndReason) : (s.finishRender vs e).pcmEpoch = s.pcmEpoch := rfl
@[simp] theorem State.finishRender_len (s : State) (vs : List Sample) (e : EndReason) : (s.finishRender vs e).len = BitVec.ofNat 32 vs.length := rfl
@[simp] theorem State.finishRender_duration (s : State) (vs : List Sample) (e : EndReason) : (s.finishRender vs e).duration = (F64.ofNat vs.length).div F64.sampleRate := rfl
@[simp] theorem State.finishRender_result (s : State) (vs : List Sample) (e : EndReason) : (s.finishRender vs e).result = s.result := rfl
@[simp] theorem State.finishRender_status (s : State) (vs : List Sample) (e : EndReason) : (s.finishRender vs e).status = { s.status with done := true, err := false, errCode := .none, endReason := e } := rfl
@[simp] theorem State.finishRender_errAddr (s : State) (vs : List Sample) (e : EndReason) : (s.finishRender vs e).errAddr = 0 := rfl
@[simp] theorem State.finishRender_irqEn (s : State) (vs : List Sample) (e : EndReason) : (s.finishRender vs e).irqEn = s.irqEn := rfl
@[simp] theorem State.finishRender_seq (s : State) (vs : List Sample) (e : EndReason) : (s.finishRender vs e).seq = .idle := rfl
@[simp] theorem State.finishRender_response (s : State) (vs : List Sample) (e : EndReason) : (s.finishRender vs e).response = s.response := rfl
@[simp] theorem State.finishRender_inputs (s : State) (vs : List Sample) (e : EndReason) : (s.finishRender vs e).inputs = s.inputs := rfl
@[simp] theorem State.finishRender_free (s : State) (vs : List Sample) (e : EndReason) : (s.finishRender vs e).free = s.free := rfl

/-! ### storeTable -/

@[simp] theorem State.storeTable_params (s : State) (vs : List Sample) : (s.storeTable vs).params = s.params := rfl
@[simp] theorem State.storeTable_waveType (s : State) (vs : List Sample) : (s.storeTable vs).waveType = s.waveType := rfl
@[simp] theorem State.storeTable_note (s : State) (vs : List Sample) : (s.storeTable vs).note = s.note := rfl
@[simp] theorem State.storeTable_rng (s : State) (vs : List Sample) : (s.storeTable vs).rng = s.rng := rfl
@[simp] theorem State.storeTable_fnInLo (s : State) (vs : List Sample) : (s.storeTable vs).fnInLo = s.fnInLo := rfl
@[simp] theorem State.storeTable_stgCount (s : State) (vs : List Sample) : (s.storeTable vs).stgCount = s.stgCount := rfl
@[simp] theorem State.storeTable_stg (s : State) (vs : List Sample) : (s.storeTable vs).stg = s.stg := rfl
@[simp] theorem State.storeTable_mem (s : State) (vs : List Sample) : (s.storeTable vs).mem = Memory.writeBlock s.mem tblBase (samplesBytes vs) := rfl
@[simp] theorem State.storeTable_pcmEpoch (s : State) (vs : List Sample) : (s.storeTable vs).pcmEpoch = s.pcmEpoch := rfl
@[simp] theorem State.storeTable_len (s : State) (vs : List Sample) : (s.storeTable vs).len = s.len := rfl
@[simp] theorem State.storeTable_duration (s : State) (vs : List Sample) : (s.storeTable vs).duration = s.duration := rfl
@[simp] theorem State.storeTable_result (s : State) (vs : List Sample) : (s.storeTable vs).result = s.result := rfl
@[simp] theorem State.storeTable_status (s : State) (vs : List Sample) : (s.storeTable vs).status = s.status := rfl
@[simp] theorem State.storeTable_errAddr (s : State) (vs : List Sample) : (s.storeTable vs).errAddr = s.errAddr := rfl
@[simp] theorem State.storeTable_irqEn (s : State) (vs : List Sample) : (s.storeTable vs).irqEn = s.irqEn := rfl
@[simp] theorem State.storeTable_seq (s : State) (vs : List Sample) : (s.storeTable vs).seq = s.seq := rfl
@[simp] theorem State.storeTable_response (s : State) (vs : List Sample) : (s.storeTable vs).response = s.response := rfl
@[simp] theorem State.storeTable_inputs (s : State) (vs : List Sample) : (s.storeTable vs).inputs = s.inputs := rfl
@[simp] theorem State.storeTable_free (s : State) (vs : List Sample) : (s.storeTable vs).free = s.free := rfl

/-! ### storePcm -/

@[simp] theorem State.storePcm_params (s : State) (vs : List Sample) : (s.storePcm vs).params = s.params := rfl
@[simp] theorem State.storePcm_waveType (s : State) (vs : List Sample) : (s.storePcm vs).waveType = s.waveType := rfl
@[simp] theorem State.storePcm_note (s : State) (vs : List Sample) : (s.storePcm vs).note = s.note := rfl
@[simp] theorem State.storePcm_rng (s : State) (vs : List Sample) : (s.storePcm vs).rng = s.rng := rfl
@[simp] theorem State.storePcm_fnInLo (s : State) (vs : List Sample) : (s.storePcm vs).fnInLo = s.fnInLo := rfl
@[simp] theorem State.storePcm_stgCount (s : State) (vs : List Sample) : (s.storePcm vs).stgCount = s.stgCount := rfl
@[simp] theorem State.storePcm_stg (s : State) (vs : List Sample) : (s.storePcm vs).stg = s.stg := rfl
@[simp] theorem State.storePcm_mem (s : State) (vs : List Sample) : (s.storePcm vs).mem = Memory.writeBlock s.mem pcmBase (samplesBytes vs) := rfl
@[simp] theorem State.storePcm_pcmEpoch (s : State) (vs : List Sample) : (s.storePcm vs).pcmEpoch = s.pcmEpoch := rfl
@[simp] theorem State.storePcm_len (s : State) (vs : List Sample) : (s.storePcm vs).len = s.len := rfl
@[simp] theorem State.storePcm_duration (s : State) (vs : List Sample) : (s.storePcm vs).duration = s.duration := rfl
@[simp] theorem State.storePcm_result (s : State) (vs : List Sample) : (s.storePcm vs).result = s.result := rfl
@[simp] theorem State.storePcm_status (s : State) (vs : List Sample) : (s.storePcm vs).status = s.status := rfl
@[simp] theorem State.storePcm_errAddr (s : State) (vs : List Sample) : (s.storePcm vs).errAddr = s.errAddr := rfl
@[simp] theorem State.storePcm_irqEn (s : State) (vs : List Sample) : (s.storePcm vs).irqEn = s.irqEn := rfl
@[simp] theorem State.storePcm_seq (s : State) (vs : List Sample) : (s.storePcm vs).seq = s.seq := rfl
@[simp] theorem State.storePcm_response (s : State) (vs : List Sample) : (s.storePcm vs).response = s.response := rfl
@[simp] theorem State.storePcm_inputs (s : State) (vs : List Sample) : (s.storePcm vs).inputs = s.inputs := rfl
@[simp] theorem State.storePcm_free (s : State) (vs : List Sample) : (s.storePcm vs).free = s.free := rfl

/-! ### ackStatus -/

@[simp] theorem State.ackStatus_params (s : State) (v : Word) : (s.ackStatus v).params = s.params := rfl
@[simp] theorem State.ackStatus_waveType (s : State) (v : Word) : (s.ackStatus v).waveType = s.waveType := rfl
@[simp] theorem State.ackStatus_note (s : State) (v : Word) : (s.ackStatus v).note = s.note := rfl
@[simp] theorem State.ackStatus_rng (s : State) (v : Word) : (s.ackStatus v).rng = s.rng := rfl
@[simp] theorem State.ackStatus_fnInLo (s : State) (v : Word) : (s.ackStatus v).fnInLo = s.fnInLo := rfl
@[simp] theorem State.ackStatus_stgCount (s : State) (v : Word) : (s.ackStatus v).stgCount = s.stgCount := rfl
@[simp] theorem State.ackStatus_stg (s : State) (v : Word) : (s.ackStatus v).stg = s.stg := rfl
@[simp] theorem State.ackStatus_mem (s : State) (v : Word) : (s.ackStatus v).mem = s.mem := rfl
@[simp] theorem State.ackStatus_pcmEpoch (s : State) (v : Word) : (s.ackStatus v).pcmEpoch = s.pcmEpoch := rfl
@[simp] theorem State.ackStatus_len (s : State) (v : Word) : (s.ackStatus v).len = s.len := rfl
@[simp] theorem State.ackStatus_duration (s : State) (v : Word) : (s.ackStatus v).duration = s.duration := rfl
@[simp] theorem State.ackStatus_result (s : State) (v : Word) : (s.ackStatus v).result = s.result := rfl
@[simp] theorem State.ackStatus_status (s : State) (v : Word) : (s.ackStatus v).status = { s.status with done := s.status.done && !v.getLsbD 1, err := s.status.err && !v.getLsbD 2, ovr := s.status.ovr && !v.getLsbD 3 } := rfl
@[simp] theorem State.ackStatus_errAddr (s : State) (v : Word) : (s.ackStatus v).errAddr = s.errAddr := rfl
@[simp] theorem State.ackStatus_irqEn (s : State) (v : Word) : (s.ackStatus v).irqEn = s.irqEn := rfl
@[simp] theorem State.ackStatus_seq (s : State) (v : Word) : (s.ackStatus v).seq = s.seq := rfl
@[simp] theorem State.ackStatus_response (s : State) (v : Word) : (s.ackStatus v).response = s.response := rfl
@[simp] theorem State.ackStatus_inputs (s : State) (v : Word) : (s.ackStatus v).inputs = s.inputs := rfl
@[simp] theorem State.ackStatus_free (s : State) (v : Word) : (s.ackStatus v).free = s.free := rfl

/-! ### dropWrite -/

@[simp] theorem State.dropWrite_params (s : State) : (s.dropWrite).params = s.params := rfl
@[simp] theorem State.dropWrite_waveType (s : State) : (s.dropWrite).waveType = s.waveType := rfl
@[simp] theorem State.dropWrite_note (s : State) : (s.dropWrite).note = s.note := rfl
@[simp] theorem State.dropWrite_rng (s : State) : (s.dropWrite).rng = s.rng := rfl
@[simp] theorem State.dropWrite_fnInLo (s : State) : (s.dropWrite).fnInLo = s.fnInLo := rfl
@[simp] theorem State.dropWrite_stgCount (s : State) : (s.dropWrite).stgCount = s.stgCount := rfl
@[simp] theorem State.dropWrite_stg (s : State) : (s.dropWrite).stg = s.stg := rfl
@[simp] theorem State.dropWrite_mem (s : State) : (s.dropWrite).mem = s.mem := rfl
@[simp] theorem State.dropWrite_pcmEpoch (s : State) : (s.dropWrite).pcmEpoch = s.pcmEpoch := rfl
@[simp] theorem State.dropWrite_len (s : State) : (s.dropWrite).len = s.len := rfl
@[simp] theorem State.dropWrite_duration (s : State) : (s.dropWrite).duration = s.duration := rfl
@[simp] theorem State.dropWrite_result (s : State) : (s.dropWrite).result = s.result := rfl
@[simp] theorem State.dropWrite_status (s : State) : (s.dropWrite).status = { s.status with ovr := true } := rfl
@[simp] theorem State.dropWrite_errAddr (s : State) : (s.dropWrite).errAddr = s.errAddr := rfl
@[simp] theorem State.dropWrite_irqEn (s : State) : (s.dropWrite).irqEn = s.irqEn := rfl
@[simp] theorem State.dropWrite_seq (s : State) : (s.dropWrite).seq = s.seq := rfl
@[simp] theorem State.dropWrite_response (s : State) : (s.dropWrite).response = s.response := rfl
@[simp] theorem State.dropWrite_inputs (s : State) : (s.dropWrite).inputs = s.inputs := rfl
@[simp] theorem State.dropWrite_free (s : State) : (s.dropWrite).free = s.free := rfl

/-! ### stage -/

@[simp] theorem State.stage_params (s : State) (v : Sample) : (s.stage v).params = s.params := rfl
@[simp] theorem State.stage_waveType (s : State) (v : Sample) : (s.stage v).waveType = s.waveType := rfl
@[simp] theorem State.stage_note (s : State) (v : Sample) : (s.stage v).note = s.note := rfl
@[simp] theorem State.stage_rng (s : State) (v : Sample) : (s.stage v).rng = s.rng := rfl
@[simp] theorem State.stage_fnInLo (s : State) (v : Sample) : (s.stage v).fnInLo = s.fnInLo := rfl
@[simp] theorem State.stage_stgCount (s : State) (v : Sample) : (s.stage v).stgCount = if s.stgCount.toNat < 2 ^ 32 - 1 then s.stgCount + 1 else s.stgCount := rfl
@[simp] theorem State.stage_stg (s : State) (v : Sample) : (s.stage v).stg = if h : s.stgCount.toNat < 1024 then s.stg.set s.stgCount.toNat v h else s.stg := rfl
@[simp] theorem State.stage_mem (s : State) (v : Sample) : (s.stage v).mem = s.mem := rfl
@[simp] theorem State.stage_pcmEpoch (s : State) (v : Sample) : (s.stage v).pcmEpoch = s.pcmEpoch := rfl
@[simp] theorem State.stage_len (s : State) (v : Sample) : (s.stage v).len = s.len := rfl
@[simp] theorem State.stage_duration (s : State) (v : Sample) : (s.stage v).duration = s.duration := rfl
@[simp] theorem State.stage_result (s : State) (v : Sample) : (s.stage v).result = s.result := rfl
@[simp] theorem State.stage_status (s : State) (v : Sample) : (s.stage v).status = s.status := rfl
@[simp] theorem State.stage_errAddr (s : State) (v : Sample) : (s.stage v).errAddr = s.errAddr := rfl
@[simp] theorem State.stage_irqEn (s : State) (v : Sample) : (s.stage v).irqEn = s.irqEn := rfl
@[simp] theorem State.stage_seq (s : State) (v : Sample) : (s.stage v).seq = s.seq := rfl
@[simp] theorem State.stage_response (s : State) (v : Sample) : (s.stage v).response = s.response := rfl
@[simp] theorem State.stage_inputs (s : State) (v : Sample) : (s.stage v).inputs = s.inputs := rfl
@[simp] theorem State.stage_free (s : State) (v : Sample) : (s.stage v).free = s.free := rfl

/-! ### toReset -/

@[simp] theorem State.toReset_params (s : State) : s.toReset.params = State.reset.params := rfl
@[simp] theorem State.toReset_waveType (s : State) : s.toReset.waveType = State.reset.waveType := rfl
@[simp] theorem State.toReset_note (s : State) : s.toReset.note = State.reset.note := rfl
@[simp] theorem State.toReset_rng (s : State) : s.toReset.rng = State.reset.rng := rfl
@[simp] theorem State.toReset_fnInLo (s : State) : s.toReset.fnInLo = State.reset.fnInLo := rfl
@[simp] theorem State.toReset_stgCount (s : State) : s.toReset.stgCount = State.reset.stgCount := rfl
@[simp] theorem State.toReset_stg (s : State) : s.toReset.stg = State.reset.stg := rfl
@[simp] theorem State.toReset_mem (s : State) : s.toReset.mem = State.reset.mem := rfl
@[simp] theorem State.toReset_pcmEpoch (s : State) : s.toReset.pcmEpoch = s.pcmEpoch + 1 := rfl
@[simp] theorem State.toReset_len (s : State) : s.toReset.len = State.reset.len := rfl
@[simp] theorem State.toReset_duration (s : State) : s.toReset.duration = State.reset.duration := rfl
@[simp] theorem State.toReset_result (s : State) : s.toReset.result = State.reset.result := rfl
@[simp] theorem State.toReset_status (s : State) : s.toReset.status = State.reset.status := rfl
@[simp] theorem State.toReset_errAddr (s : State) : s.toReset.errAddr = State.reset.errAddr := rfl
@[simp] theorem State.toReset_irqEn (s : State) : s.toReset.irqEn = State.reset.irqEn := rfl
@[simp] theorem State.toReset_seq (s : State) : s.toReset.seq = State.reset.seq := rfl
@[simp] theorem State.toReset_response (s : State) : s.toReset.response = State.reset.response := rfl
@[simp] theorem State.toReset_inputs (s : State) : s.toReset.inputs = s.inputs := rfl
@[simp] theorem State.toReset_free (s : State) : s.toReset.free = s.free + 1 := rfl

/-! ### The sequencer's views -/

theorem State.busy_of_idle {s : State} (h : s.seq = .idle) : s.busy = false := by simp [State.busy, h]

theorem State.busy_of_busy {s : State} {w : Word} {o : Snapshot} {n : Nat} (h : s.seq = .busy w o n) :
    s.busy = true := by simp [State.busy, h]

theorem State.busy_eq_false_iff (s : State) : s.busy = false ↔ s.seq = .idle := by
  cases h : s.seq <;> simp [State.busy, h]

theorem State.operands_of_idle {s : State} (h : s.seq = .idle) : s.operands = s.snapshot := by
  simp [State.operands, h]

theorem State.operands_of_busy {s : State} {w : Word} {o : Snapshot} {n : Nat} (h : s.seq = .busy w o n) :
    s.operands = o := by simp [State.operands, h]

theorem State.ready_iff (s : State) (w : Word) : s.ready? = some w ↔ ∃ o, s.seq = .busy w o 0 := by
  unfold State.ready?
  split <;> simp_all

theorem State.ready_none_iff (s : State) :
    s.ready? = none ↔ s.seq = .idle ∨ ∃ w o n, s.seq = .busy w o (n + 1) := by
  unfold State.ready?
  split <;> simp_all

/-! ### The domain check -/

theorem State.checked_of_ok {s : State} {regs : List PReg} (h : s.operands.firstBad regs = none) (t : State) :
    s.checked regs t = t := by simp [State.checked, h]

theorem State.checked_of_bad {s : State} {regs : List PReg} {r : PReg} (h : s.operands.firstBad regs = some r)
    (t : State) : s.checked regs t = s.raiseError .invalidParameter (BitVec.ofNat 32 r.offset) := by
  simp [State.checked, h]

/-- What the domain check can do: run the rest, or end the command with INVALID_PARAMETER. -/
theorem State.checked_cases (s : State) (regs : List PReg) (t : State) :
    (s.operands.firstBad regs = none ∧ s.checked regs t = t) ∨
    ∃ r, s.operands.firstBad regs = some r ∧
      s.checked regs t = s.raiseError .invalidParameter (BitVec.ofNat 32 r.offset) := by
  cases h : s.operands.firstBad regs with
  | none => exact .inl ⟨rfl, State.checked_of_ok h t⟩
  | some r => exact .inr ⟨r, rfl, State.checked_of_bad h t⟩

theorem Snapshot.firstBad_none_iff (o : Snapshot) (regs : List PReg) :
    o.firstBad regs = none ↔ ∀ r ∈ regs, o.inDomain r = true := by
  simp [Snapshot.firstBad, List.find?_eq_none]

theorem Snapshot.firstBad_some {o : Snapshot} {regs : List PReg} {r : PReg} (h : o.firstBad regs = some r) :
    r ∈ regs ∧ o.inDomain r = false := by
  have h1 := List.mem_of_find?_eq_some h
  have h2 := List.find?_some h
  exact ⟨h1, by simpa using h2⟩

end Machine
end Sys2Proof
end

