-- ==== Sys2Proof/Laws/Bus.lean ====
section
/-! SUPPORT. What a host event can do (20_memory.md R103, R104, 10_state.md R52): the four shapes of an access, where
the registers with effects of their own stand, and what no event but a reset changes. -/

namespace Sys2Proof
namespace Machine

/-! ### The four shapes of an access -/

theorem hostEvent_read {cfg : Config} {s : State} {a : Offset} (h : a.toNat % 4 = 0) :
    State.hostEvent cfg s (.read a) =
      { s with
        response := .readOk (s.busRead cfg (Config.busyRead s.free) (locOf cfg a.toNat))
        free := s.free + 1 } := by
  simp [State.hostEvent, misaligned, h]

theorem hostEvent_write {cfg : Config} {s : State} {a : Offset} {v : Word} (h : a.toNat % 4 = 0) :
    State.hostEvent cfg s (.write a v) = { s.writeLoc v (locOf cfg a.toNat) with response := .writeOk } := by
  simp [State.hostEvent, misaligned, h]

theorem hostEvent_read_misaligned {cfg : Config} {s : State} {a : Offset} (h : a.toNat % 4 ≠ 0) :
    State.hostEvent cfg s (.read a) = { s with response := .readError } := by
  simp [State.hostEvent, misaligned, h]

theorem hostEvent_write_misaligned {cfg : Config} {s : State} {a : Offset} {v : Word} (h : a.toNat % 4 ≠ 0) :
    State.hostEvent cfg s (.write a v) = { s with response := .writeError } := by
  simp [State.hostEvent, misaligned, h]

theorem busRead_idle {cfg : Config} {s : State} (h : s.busy = false) (v : Word) (l : Loc) :
    s.busRead cfg v l = s.readLoc cfg l := by simp [State.busRead, h]

theorem busRead_current {cfg : Config} {s : State} {l : Loc} (h : l ≠ .status) (h' : l.isResult = false) (v : Word) :
    s.busRead cfg v l = s.readLoc cfg l := by simp [State.busRead, h, h']

/-! ### Where the registers with effects of their own stand -/

theorem mem_of_lookup {l : List (Nat × Loc)} {a : Nat} {x : Loc} (h : l.lookup a = some x) : (a, x) ∈ l := by
  induction l with
  | nil => nomatch h
  | cons b l ih =>
    obtain ⟨k, y⟩ := b
    rw [List.lookup_cons] at h
    cases hk : a == k with
    | true =>
      simp only [hk, Option.some.injEq] at h
      obtain rfl := h
      obtain rfl := eq_of_beq hk
      exact List.mem_cons_self
    | false =>
      simp only [hk] at h
      exact List.mem_cons_of_mem _ (ih h)

/-- A location that is no window word and not reserved stands in the register map. -/
theorem mem_registerMap {cfg : Config} {a : Nat} {l : Loc} (h : locOf cfg a = l) (hw : ∀ b, l ≠ .sampleWord b)
    (hr : l ≠ .reserved) : (a, l) ∈ registerMap := by
  unfold locOf at h
  split at h
  · exact absurd h.symm (hw _)
  · split at h
    · exact absurd h.symm (hw _)
    · cases hl : registerMap.lookup a with
      | none => rw [hl] at h; exact absurd h.symm hr
      | some x => rw [hl, Option.getD_some] at h; exact h ▸ mem_of_lookup hl

theorem offset_of_loc {cfg : Config} {a : Nat} {l : Loc} {k : Nat} (h : locOf cfg a = l) (hw : ∀ b, l ≠ .sampleWord b)
    (hr : l ≠ .reserved) (hk : ∀ x ∈ registerMap, x.2 = l → x.1 = k) : a = k :=
  hk _ (mem_registerMap h hw hr) rfl

theorem offset_of_ctrl {cfg : Config} {a : Nat} (h : locOf cfg a = .ctrl) : a = 0x14 :=
  offset_of_loc h (by intro b hb; nomatch hb) (by decide) (by decide)

theorem offset_of_cmd {cfg : Config} {a : Nat} (h : locOf cfg a = .cmd) : a = 0x04 :=
  offset_of_loc h (by intro b hb; nomatch hb) (by decide) (by decide)

theorem offset_of_status {cfg : Config} {a : Nat} (h : locOf cfg a = .status) : a = 0x08 :=
  offset_of_loc h (by intro b hb; nomatch hb) (by decide) (by decide)

/-- A write that is no reset does not meet CTRL with SRST set. -/
theorem not_srst {cfg : Config} {a : Offset} {v : Word} (h : HostEvent.resets (.write a v) = false)
    (hl : locOf cfg a.toNat = .ctrl) : v.getLsbD 0 = false := by
  have ha : a = 0x014#22 := BitVec.eq_of_toNat_eq (offset_of_ctrl hl)
  simpa [HostEvent.resets, ha] using h

/-! ### What no event but a reset changes -/

theorem writeLoc_ctrl_off (s : State) (v : Word) (h : v.getLsbD 0 = false) : s.writeLoc v .ctrl = s := by
  simp only [State.writeLoc, h, Bool.false_eq_true, if_false]

/-- The registers of the results, the sample memories and the events to come. -/
theorem writeLoc_frame (s : State) (v : Word) (l : Loc) (h : l = .ctrl → v.getLsbD 0 = false) :
    (s.writeLoc v l).mem = s.mem ∧ (s.writeLoc v l).pcmEpoch = s.pcmEpoch ∧ (s.writeLoc v l).len = s.len ∧
      (s.writeLoc v l).duration = s.duration ∧ (s.writeLoc v l).result = s.result ∧
      (s.writeLoc v l).errAddr = s.errAddr ∧ (s.writeLoc v l).inputs = s.inputs := by
  by_cases hl : l = .ctrl
  · rw [hl, writeLoc_ctrl_off s v (h hl)]; exact ⟨rfl, rfl, rfl, rfl, rfl, rfl, rfl⟩
  · cases hb : s.busy <;> cases l <;> simp [State.writeLoc, State.whenIdle, hb] at hl ⊢

/-- What a running command reads: the sequencer, and the registers a host cannot write while BUSY. -/
theorem writeLoc_busy (s : State) (v : Word) (l : Loc) (hb : s.busy = true) (h : l = .ctrl → v.getLsbD 0 = false) :
    (s.writeLoc v l).seq = s.seq ∧ (s.writeLoc v l).rng = s.rng ∧ (s.writeLoc v l).stgCount = s.stgCount ∧
      (s.writeLoc v l).stg = s.stg := by
  by_cases hl : l = .ctrl
  · rw [hl, writeLoc_ctrl_off s v (h hl)]; exact ⟨rfl, rfl, rfl, rfl⟩
  · cases l <;> simp [State.writeLoc, State.whenIdle, hb] at hl ⊢

theorem hostEvent_frame (cfg : Config) (s : State) (e : HostEvent) (h : e.resets = false) :
    (State.hostEvent cfg s e).mem = s.mem ∧ (State.hostEvent cfg s e).pcmEpoch = s.pcmEpoch ∧
      (State.hostEvent cfg s e).len = s.len ∧ (State.hostEvent cfg s e).duration = s.duration ∧
      (State.hostEvent cfg s e).result = s.result ∧ (State.hostEvent cfg s e).errAddr = s.errAddr ∧
      (State.hostEvent cfg s e).inputs = s.inputs := by
  cases e with
  | presetn => nomatch h
  | read a =>
    by_cases ha : a.toNat % 4 = 0
    · rw [hostEvent_read ha]; exact ⟨rfl, rfl, rfl, rfl, rfl, rfl, rfl⟩
    · rw [hostEvent_read_misaligned ha]; exact ⟨rfl, rfl, rfl, rfl, rfl, rfl, rfl⟩
  | write a v =>
    by_cases ha : a.toNat % 4 = 0
    · rw [hostEvent_write ha]; exact writeLoc_frame s v _ (not_srst h)
    · rw [hostEvent_write_misaligned ha]; exact ⟨rfl, rfl, rfl, rfl, rfl, rfl, rfl⟩

theorem hostEvent_busy (cfg : Config) (s : State) (e : HostEvent) (hb : s.busy = true) (h : e.resets = false) :
    (State.hostEvent cfg s e).seq = s.seq ∧ (State.hostEvent cfg s e).rng = s.rng ∧
      (State.hostEvent cfg s e).stgCount = s.stgCount ∧ (State.hostEvent cfg s e).stg = s.stg := by
  cases e with
  | presetn => nomatch h
  | read a =>
    by_cases ha : a.toNat % 4 = 0
    · rw [hostEvent_read ha]; exact ⟨rfl, rfl, rfl, rfl⟩
    · rw [hostEvent_read_misaligned ha]; exact ⟨rfl, rfl, rfl, rfl⟩
  | write a v =>
    by_cases ha : a.toNat % 4 = 0
    · rw [hostEvent_write ha]; exact writeLoc_busy s v _ hb (not_srst h)
    · rw [hostEvent_write_misaligned ha]; exact ⟨rfl, rfl, rfl, rfl⟩

end Machine
end Sys2Proof
end

