-- ==== Sys2Proof/Laws/Decode.lean ====
section
/-! SUPPORT. The fields of a command word and format C undo each other (30_encoding.md R140). -/

namespace Sys2Proof

theorem formatC_getLsbD (op : BitVec 8) (sel : BitVec 2) (i : Nat) :
    (formatC op sel).getLsbD i = if i < 8 then op.getLsbD i else if i < 10 then sel.getLsbD (i - 8) else false := by
  show BitVec.getLsbD (w := 22 + 2 + 8) ((0#22 ++ sel) ++ op) i = _
  rw [BitVec.getLsbD_append, BitVec.getLsbD_append]
  by_cases h8 : i < 8
  · simp [h8]
  · by_cases h2 : i < 10
    · simp [h8, h2, show i - 8 < 2 by omega]
    · simp [h8, h2, show ¬ i - 8 < 2 by omega]

theorem opField_formatC (op : BitVec 8) (sel : BitVec 2) : opField (formatC op sel) = op := by
  apply BitVec.eq_of_getLsbD_eq
  intro i hi
  simp only [opField, BitVec.getLsbD_extractLsb', formatC_getLsbD]
  simp [hi]

theorem selField_formatC (op : BitVec 8) (sel : BitVec 2) : selField (formatC op sel) = sel := by
  apply BitVec.eq_of_getLsbD_eq
  intro i hi
  simp only [selField, BitVec.getLsbD_extractLsb', formatC_getLsbD]
  simp [hi, show 8 + i < 10 by omega]

theorem rsvField_formatC (op : BitVec 8) (sel : BitVec 2) : rsvField (formatC op sel) = 0 := by
  apply BitVec.eq_of_getLsbD_eq
  intro i hi
  simp only [rsvField, BitVec.getLsbD_extractLsb', formatC_getLsbD]
  simp [show ¬ 10 + i < 8 by omega]

/-- A word with RSV = 0 is made of its two other fields. -/
theorem formatC_fields (w : Word) (h : rsvField w = 0) : formatC (opField w) (selField w) = w := by
  apply BitVec.eq_of_getLsbD_eq
  intro i hi
  have hr : 10 ≤ i → w.getLsbD i = false := by
    intro h10
    have := congrArg (fun v => BitVec.getLsbD v (i - 10)) h
    simpa [rsvField, show i - 10 < 22 by omega, show 10 + (i - 10) = i by omega] using this
  rw [formatC_getLsbD]
  simp only [opField, selField, BitVec.getLsbD_extractLsb']
  by_cases h8 : i < 8
  · simp [h8]
  · by_cases h2 : i < 10
    · simp [h8, h2, show 8 + (i - 8) = i by omega, show i - 8 < 2 by omega]
    · simp [h8, h2, hr (by omega)]

theorem decode_formatC (op : BitVec 8) (sel : BitVec 2) : decode (formatC op sel) = decodeOp op sel := by
  rw [decode, rsvField_formatC, opField_formatC, selField_formatC, if_pos rfl]

/-- A word that decodes is of format C with RSV = 0. -/
theorem decode_ok {w : Word} {i : Instr} (h : decode w = .ok i) :
    ∃ op sel, w = formatC op sel ∧ decodeOp op sel = .ok i := by
  unfold decode at h
  split at h
  · rename_i hr
    exact ⟨_, _, (formatC_fields w hr).symm, h⟩
  · nomatch h

end Sys2Proof
end

