-- ==== Sys2Proof/Laws/Memory.lean ====
section
/-! SUPPORT. The sample memories: what a byte reads after a block is written, that writing keeps the canonical form,
and the same for `TBL[k]` and `PCM[n]`. -/

namespace Sys2Proof
namespace Machine
namespace Memory

theorem find?_append (x y : Memory) (a : Nat) : find? (x ++ y) a = (find? x a).or (find? y a) := by
  induction x with
  | nil => simp [find?]
  | cons c x ih =>
    obtain ⟨b, v⟩ := c
    by_cases h : b = a <;> simp [find?, h, ih]

/-- Dropping entries by a test of the address drops exactly the addresses that fail it. -/
theorem find?_filter (m : Memory) (q : Nat → Bool) (a : Nat) :
    find? (m.filter (fun c => q c.1)) a = if q a then find? m a else none := by
  induction m with
  | nil => simp [find?]
  | cons c m ih =>
    obtain ⟨b, v⟩ := c
    by_cases hq : q b = true <;> by_cases h : b = a
    · subst h; simp [find?, hq]
    · simp [find?, hq, h, ih]
    · subst h; simp [hq, ih]
    · simp [find?, hq, h, ih]

/-- What a block lists for an address: the byte it puts there, unless that is what an unlisted address reads as. -/
theorem find?_block_some (vs : List Byte) (base i : Nat) (v : Byte) (h : vs[i]? = some v) :
    find? (block base vs) (base + i) = if unlisted (base + i) = some v then none else some v := by
  induction vs generalizing base i with
  | nil => simp at h
  | cons x vs ih =>
    cases i with
    | zero =>
      obtain rfl : x = v := by simpa using h
      have later : ∀ (us : List Byte) (b : Nat), base < b → find? (block b us) base = none := by
        intro us
        induction us with
        | nil => simp [block, find?]
        | cons u us ihu =>
          intro b hb
          unfold block
          split
          · exact ihu (b + 1) (by omega)
          · simp [find?, show b ≠ base by omega, ihu (b + 1) (by omega)]
      by_cases hx : unlisted base = some x
      · simp [block, hx, later vs (base + 1) (by omega)]
      · simp [block, hx, find?]
    | succ i =>
      have h' : vs[i]? = some v := by simpa using h
      have e := ih (base + 1) i h'
      rw [show base + 1 + i = base + (i + 1) by omega] at e
      by_cases hx : unlisted base = some x
      · simpa [block, hx] using e
      · simpa [block, hx, find?] using e

theorem mem_block {vs : List Byte} {base : Nat} {c : Host.Cell} (h : c ∈ block base vs) :
    base ≤ c.1 ∧ c.1 < base + vs.length ∧ unlisted c.1 ≠ some c.2 := by
  induction vs generalizing base with
  | nil => simp [block] at h
  | cons x vs ih =>
    unfold block at h
    split at h
    · have := ih h
      exact ⟨by omega, by simp only [List.length_cons]; omega, this.2.2⟩
    · rcases List.mem_cons.1 h with rfl | h
      · simp; assumption
      · have := ih h
        exact ⟨by omega, by simp only [List.length_cons]; omega, this.2.2⟩

theorem find?_eq_none_of_forall {m : Memory} {a : Nat} (h : ∀ c ∈ m, c.1 ≠ a) : find? m a = none := by
  induction m with
  | nil => rfl
  | cons c m ih =>
    obtain ⟨b, v⟩ := c
    have hb : b ≠ a := h (b, v) (by simp)
    simp [find?, hb, ih (fun c hc => h c (by simp [hc]))]

/-- A byte inside a written block reads as the byte written. -/
theorem read_writeBlock_inside (m : Memory) (base i : Nat) (vs : List Byte) (v : Byte) (h : vs[i]? = some v) :
    (writeBlock m base vs).read (base + i) = some v := by
  have hi : i < vs.length := (List.getElem?_eq_some_iff.1 h).1
  have h1 : ¬ base + i < base := by omega
  have h2 : ¬ base + vs.length ≤ base + i := by omega
  unfold read writeBlock
  rw [find?_append, find?_append, find?_filter m (fun a => decide (a < base)),
    find?_filter m (fun a => decide (base + vs.length ≤ a)), find?_block_some vs base i v h]
  by_cases hu : unlisted (base + i) = some v <;> simp [h1, h2, hu]

/-- A byte outside a written block reads as before. -/
theorem read_writeBlock_outside (m : Memory) (base : Nat) (vs : List Byte) (a : Nat)
    (h : a < base ∨ base + vs.length ≤ a) : (writeBlock m base vs).read a = read m a := by
  have hb : find? (block base vs) a = none :=
    find?_eq_none_of_forall (fun c hc => by have := mem_block hc; omega)
  unfold read writeBlock
  rw [find?_append, find?_append, find?_filter m (fun a => decide (a < base)),
    find?_filter m (fun a => decide (base + vs.length ≤ a)), hb]
  rcases h with h | h
  · simp [h, show ¬ base + vs.length ≤ a by omega]
  · simp [h, show ¬ a < base by omega]

theorem pairwise_block (vs : List Byte) (base : Nat) : (block base vs).Pairwise (fun x y => x.1 < y.1) := by
  induction vs generalizing base with
  | nil => simp [block]
  | cons x vs ih =>
    unfold block
    split
    · exact ih (base + 1)
    · refine List.pairwise_cons.2 ⟨fun c hc => ?_, ih (base + 1)⟩
      have := mem_block hc
      simp; omega

theorem mem_writeBlock {m : Memory} {base : Nat} {vs : List Byte} {c : Host.Cell} (h : c ∈ writeBlock m base vs) :
    c ∈ m ∨ (base ≤ c.1 ∧ c.1 < base + vs.length) := by
  simp only [writeBlock, List.mem_append, List.mem_filter] at h
  rcases h with (h | h) | h
  · exact .inl h.1
  · have := mem_block h; exact .inr ⟨this.1, this.2.1⟩
  · exact .inl h.1

/-- Every memory operation keeps the canonical form: there is one, `writeBlock`. -/
theorem wf_writeBlock (m : Memory) (base : Nat) (vs : List Byte) (h : wf m) : wf (writeBlock m base vs) := by
  refine ⟨?_, ?_⟩
  · unfold writeBlock
    refine List.pairwise_append.2 ⟨List.pairwise_append.2 ⟨h.1.filter _, pairwise_block vs base, ?_⟩, h.1.filter _, ?_⟩
    · intro x hx y hy
      have := mem_block hy
      have hx := of_decide_eq_true (List.mem_filter.1 hx).2
      omega
    · intro x hx y hy
      have hy := of_decide_eq_true (List.mem_filter.1 hy).2
      rcases List.mem_append.1 hx with hx | hx
      · have hx := of_decide_eq_true (List.mem_filter.1 hx).2; omega
      · have := mem_block hx; omega
  · intro c hc
    simp only [writeBlock, List.mem_append, List.mem_filter] at hc
    rcases hc with (hc | hc) | hc
    · exact h.2 c hc.1
    · exact (mem_block hc).2.2
    · exact h.2 c hc.1

theorem wf_reset : wf State.reset.mem := by decide

end Memory

/-! ## Samples -/

theorem samplesBytes_length (vs : List Sample) : (samplesBytes vs).length = 2 * vs.length := by
  induction vs with
  | nil => rfl
  | cons v vs ih =>
    simp only [samplesBytes, sampleBytes, List.flatMap_cons, List.length_append, List.length_cons, List.length_nil] at *
    omega

theorem samplesBytes_low (vs : List Sample) (k : Nat) (v : Sample) (h : vs[k]? = some v) :
    (samplesBytes vs)[2 * k]? = some (v.extractLsb' 0 8) := by
  induction vs generalizing k with
  | nil => simp at h
  | cons x vs ih =>
    cases k with
    | zero => simp at h; subst h; simp [samplesBytes, sampleBytes]
    | succ k =>
      have e := ih k (by simpa using h)
      simpa [samplesBytes, sampleBytes, Nat.mul_succ] using e

theorem samplesBytes_high (vs : List Sample) (k : Nat) (v : Sample) (h : vs[k]? = some v) :
    (samplesBytes vs)[2 * k + 1]? = some (v.extractLsb' 8 8) := by
  induction vs generalizing k with
  | nil => simp at h
  | cons x vs ih =>
    cases k with
    | zero => simp at h; subst h; simp [samplesBytes, sampleBytes]
    | succ k =>
      have e := ih k (by simpa using h)
      simpa [samplesBytes, sampleBytes, Nat.mul_succ] using e

theorem sample_of_bytes (v : Sample) : v.extractLsb' 8 8 ++ v.extractLsb' 0 8 = v := by
  ext i hi
  simp only [BitVec.getElem_append, BitVec.getElem_extractLsb']
  split
  · simp [BitVec.getLsbD_eq_getElem hi]
  · have : 8 + (i - 8) = i := by omega
    simp [this, BitVec.getLsbD_eq_getElem hi]

theorem State.byteAt_eq {s t : State} {a : Nat} (h : Memory.read t.mem a = Memory.read s.mem a)
    (he : t.pcmEpoch = s.pcmEpoch) : t.byteAt a = s.byteAt a := by
  simp [State.byteAt, h, he]

/-- A byte of the sample memories outside a written block is unchanged. -/
theorem State.byteAt_writeBlock_outside (s t : State) (base : Nat) (vs : List Byte) (a : Nat)
    (hm : t.mem = Memory.writeBlock s.mem base vs) (he : t.pcmEpoch = s.pcmEpoch)
    (h : a < base ∨ base + vs.length ≤ a) : t.byteAt a = s.byteAt a :=
  State.byteAt_eq (by rw [hm]; exact Memory.read_writeBlock_outside _ _ _ _ h) he

/-- A sample inside a written block reads as the sample written. -/
theorem State.sampleAt_writeBlock_inside (t : State) (m : Memory) (base k : Nat) (vs : List Sample) (v : Sample)
    (hm : t.mem = Memory.writeBlock m base (samplesBytes vs)) (h : vs[k]? = some v) :
    t.sampleAt (base + 2 * k) = v := by
  have h0 := Memory.read_writeBlock_inside m base (2 * k) _ _ (samplesBytes_low vs k v h)
  have h1 := Memory.read_writeBlock_inside m base (2 * k + 1) _ _ (samplesBytes_high vs k v h)
  unfold State.sampleAt State.byteAt
  rw [hm, h0, show base + 2 * k + 1 = base + (2 * k + 1) by omega, h1]
  simpa using sample_of_bytes v

/-- A sample outside a written block is unchanged. -/
theorem State.sampleAt_writeBlock_outside (s t : State) (base : Nat) (vs : List Byte) (a : Nat)
    (hm : t.mem = Memory.writeBlock s.mem base vs) (he : t.pcmEpoch = s.pcmEpoch)
    (h : a + 1 < base ∨ base + vs.length ≤ a) : t.sampleAt a = s.sampleAt a := by
  unfold State.sampleAt
  rw [State.byteAt_writeBlock_outside s t base vs (a + 1) hm he (by omega),
    State.byteAt_writeBlock_outside s t base vs a hm he (by omega)]

theorem State.tbl_storeTable (s : State) (vs : List Sample) (k : Nat) (v : Sample) (h : vs[k]? = some v) :
    (s.storeTable vs).tbl k = v :=
  State.sampleAt_writeBlock_inside _ s.mem tblBase k vs v rfl h

theorem State.pcm_storePcm (s : State) (vs : List Sample) (n : Nat) (v : Sample) (h : vs[n]? = some v) :
    (s.storePcm vs).pcm n = v :=
  State.sampleAt_writeBlock_inside _ s.mem pcmBase n vs v rfl h

theorem State.pcm_storePcm_above (s : State) (vs : List Sample) (n : Nat) (h : vs.length ≤ n) :
    (s.storePcm vs).pcm n = s.pcm n :=
  State.sampleAt_writeBlock_outside s _ pcmBase _ _ rfl rfl (by rw [samplesBytes_length]; omega)

theorem State.tbl_storePcm (s : State) (vs : List Sample) (k : Nat) (h : k < 1024) :
    (s.storePcm vs).tbl k = s.tbl k :=
  State.sampleAt_writeBlock_outside s _ pcmBase _ _ rfl rfl (by simp only [tblBase, pcmBase]; omega)

theorem State.pcm_storeTable (s : State) (vs : List Sample) (n : Nat) (h : vs.length ≤ 1024) :
    (s.storeTable vs).pcm n = s.pcm n :=
  State.sampleAt_writeBlock_outside s _ tblBase _ _ rfl rfl
    (by rw [samplesBytes_length]; simp only [tblBase, pcmBase]; omega)

end Machine
end Sys2Proof
end

