-- ==== Sys2Proof/Laws/Exec.lean ====
section
/-! SUPPORT. What the complete step of each command can do: end in an error, with nothing else changed, or complete
with the effect of its rule. Proofs cite these instead of unfolding a meaning. -/

namespace Sys2Proof
namespace Machine

/-- The machine's commands are those of its configuration. -/
theorem exec_eq_execIn (i : Instr) (s : State) : exec i s = execIn Config.machine i s := by cases i <;> rfl

theorem execIn_eq_next (cfg : Config) (i : Instr) (s : State) : execIn cfg i s = .next (completeIn cfg s i) := rfl

theorem exec_eq_next (i : Instr) (s : State) : exec i s = .next (completeIn Config.machine s i) := exec_eq_execIn i s

theorem exec_next_iff (i : Instr) (s t : State) : exec i s = .next t ↔ t = completeIn Config.machine s i := by
  rw [exec_eq_next, Host.Outcome.next.injEq]
  exact eq_comm

theorem tblPresetStep_cases (cfg : Config) (sel : BitVec 2) (s : State) :
    (∃ r, tblPresetStep cfg sel s = s.raiseError .invalidParameter (BitVec.ofNat 32 (PReg.offset r))) ∨
    tblPresetStep cfg sel s =
      (s.storeTable (presetTable cfg (.ofBits sel) s.operands.params.tblDuty)).finish .none := by
  rcases s.checked_cases (presetOperands (.ofBits sel))
    ((s.storeTable (presetTable cfg (.ofBits sel) s.operands.params.tblDuty)).finish .none) with ⟨-, h⟩ | ⟨r, -, h⟩
  · exact .inr h
  · exact .inl ⟨r, h⟩

theorem presetTable_length (cfg : Config) (p : Preset) (d : F64) : (presetTable cfg p d).length = 1024 := by
  rw [presetTable, List.length_map, List.length_range]

/-- An entry of a preset's table (40_waveform_table.md R205). -/
theorem presetTable_get (cfg : Config) (p : Preset) (d : F64) (k : Nat) (h : k < 1024) :
    List.getD (presetTable cfg p d) k 0 = F64.tconv (presetAt cfg d (tablePoint k) p) := by
  rw [presetTable, List.getD_eq_getElem?_getD, List.getElem?_map, List.getElem?_range h, Option.map_some,
    Option.getD_some]

theorem shortTable_length {policy : ShortPolicy} {stg : Nat → Sample} {n : Nat} {vs : List Sample}
    (h : shortTable policy stg n = some vs) : vs.length = 1024 := by
  cases policy with
  | reject => nomatch h
  | zeroPad | repeatSeq | resample =>
    rw [← Option.some.inj h, List.length_map, List.length_range]

theorem commitTable_length {cfg : Config} {stg : Nat → Sample} {n : Nat} {vs : List Sample}
    (h : commitTable cfg stg n = .ok vs) : vs.length = 1024 := by
  unfold commitTable at h
  split at h
  · nomatch h
  · split at h
    · split at h
      · nomatch h
      · rename_i hs
        rw [← Except.ok.inj h]
        exact shortTable_length hs
    · rw [← Except.ok.inj h, List.length_map, List.length_range]

theorem tblCommitStep_cases (cfg : Config) (s : State) :
    (∃ c, c ≠ ErrCode.none ∧ c ≠ ErrCode.invalidParameter ∧
      commitTable cfg s.stgAt s.operands.stgCount.toNat = .error c ∧ tblCommitStep cfg s = s.raiseError c 0) ∨
    ∃ vs, commitTable cfg s.stgAt s.operands.stgCount.toNat = .ok vs ∧ vs.length = 1024 ∧
      tblCommitStep cfg s = { (s.storeTable vs).finish .none with stgCount := 0 } := by
  unfold tblCommitStep
  cases h : commitTable cfg s.stgAt s.operands.stgCount.toNat with
  | ok vs => exact .inr ⟨vs, rfl, commitTable_length h, rfl⟩
  | error c =>
    refine .inl ⟨c, ?_, ?_, rfl, rfl⟩ <;>
    · unfold commitTable at h
      split at h
      · cases h; decide
      · split at h
        · split at h
          · cases h; decide
          · cases h
        · cases h

theorem lookupStep_cases (cfg : Config) (s : State) :
    (∃ r, lookupStep cfg s = s.raiseError .invalidParameter (BitVec.ofNat 32 (PReg.offset r))) ∨
    lookupStep cfg s = s.finishResult (lookupAt cfg s.tbl s.operands.params.uPhase) := by
  rcases s.checked_cases [.uPhase] (s.finishResult (lookupAt cfg s.tbl s.operands.params.uPhase)) with ⟨-, h⟩ | ⟨r, -, h⟩
  · exact .inr h
  · exact .inl ⟨r, h⟩

theorem envEvalStep_cases (cfg : Config) (sel : BitVec 2) (s : State) :
    envEvalStep cfg sel s = s.raiseError .illegalCommand 0 ∨
    (∃ r, envEvalStep cfg sel s = s.raiseError .invalidParameter (BitVec.ofNat 32 (PReg.offset r))) ∨
    envEvalStep cfg sel s = s.finishResult (envValue cfg (sel.getLsbD 0) s.operands.params) := by
  unfold envEvalStep
  split
  · exact .inl rfl
  · rcases s.checked_cases (envOperands (sel.getLsbD 0))
      (s.finishResult (envValue cfg (sel.getLsbD 0) s.operands.params)) with ⟨-, h⟩ | ⟨r, -, h⟩
    · exact .inr (.inr h)
    · exact .inr (.inl ⟨r, h⟩)

/-- OSC_GEN answers a value, and draws only for noise. -/
theorem oscGenStep_cases (cfg : Config) (sel : BitVec 2) (s : State) :
    (∃ r, oscGenStep cfg sel s = s.raiseError .invalidParameter (BitVec.ofNat 32 (PReg.offset r))) ∨
    (∃ v, Wave.ofBits sel ≠ .noise ∧ oscGenStep cfg sel s = s.finishResult v) ∨
    (Wave.ofBits sel = .noise ∧ oscGenStep cfg sel s =
      { s.finishResult (cfg.rngNext s.operands.rng).1 with rng := (cfg.rngNext s.operands.rng).2 }) := by
  rcases s.checked_cases (oscOperands (.ofBits sel)) (match Wave.ofBits sel with
     | .square => s.finishResult (genSquare (s.operands.params.uPhase.wrap cfg) s.operands.params.uDuty)
     | .sawtooth => s.finishResult (genSaw (s.operands.params.uPhase.wrap cfg))
     | .sine => s.finishResult (genSine cfg (s.operands.params.uPhase.wrap cfg))
     | .noise => { s.finishResult (cfg.rngNext s.operands.rng).1 with rng := (cfg.rngNext s.operands.rng).2 })
    with ⟨-, h⟩ | ⟨r, -, h⟩
  · right
    have h' : oscGenStep cfg sel s = _ := h
    rw [h']
    cases hw : Wave.ofBits sel
    · exact .inl ⟨_, by simp, rfl⟩
    · exact .inl ⟨_, by simp, rfl⟩
    · exact .inl ⟨_, by simp, rfl⟩
    · exact .inr ⟨rfl, rfl⟩
  · exact .inl ⟨r, h⟩

theorem noteResolveStep_cases (cfg : Config) (s : State) :
    (noteOffset (noteString s.operands.note) = none ∧ noteResolveStep cfg s = s.raiseError .invalidNote 0) ∨
    ∃ k, noteOffset (noteString s.operands.note) = some k ∧ noteResolveStep cfg s =
      { s.finishResult (noteFrequency cfg k) with params := { s.params with pitchHz := noteFrequency cfg k } } := by
  unfold noteResolveStep
  cases h : noteOffset (noteString s.operands.note) with
  | none => exact .inl ⟨rfl, rfl⟩
  | some k => exact .inr ⟨k, rfl, rfl⟩

theorem renderLength_le {cfg : Config} {x : F64} {n : Nat} (h : renderLength cfg x = some n) : n ≤ cfg.pcmCap := by
  simp only [renderLength] at h
  split at h
  · rename_i hc
    simp only [Bool.and_eq_true, decide_eq_true_eq] at hc
    obtain rfl := Option.some.inj h
    exact hc.2
  · cases h

theorem toneSamples_length (cfg : Config) (tbl : Nat → Sample) (p : Params) (inc : F64) (k i : Nat) (phase : F64) :
    (toneSamples cfg tbl p inc k i phase).length = k := by
  induction k generalizing i phase with
  | zero => rfl
  | succ k ih => simp [toneSamples, ih]

theorem renderToneStep_cases (cfg : Config) (s : State) :
    (∃ r, renderToneStep cfg s = s.raiseError .invalidParameter (BitVec.ofNat 32 (PReg.offset r))) ∨
    renderToneStep cfg s = s.raiseError .capacityExceeded 0 ∨
    ∃ vs, vs.length ≤ cfg.pcmCap ∧ renderToneStep cfg s = s.finishRender vs .envelope := by
  rcases s.checked_cases toneOperands (match renderLength cfg (toneEnd s.operands.params.tAttack
      s.operands.params.tDecay s.operands.params.tSustain s.operands.params.tRelease) with
     | none => s.raiseError .capacityExceeded 0
     | some n => s.finishRender (toneSamples cfg s.tbl s.operands.params
        (s.operands.params.pitchHz.div F64.sampleRate) n 0 F64.zero) .envelope) with ⟨-, h⟩ | ⟨r, -, h⟩
  · have h' : renderToneStep cfg s = _ := h
    right
    rw [h']
    split
    · exact .inl rfl
    · rename_i n hn
      exact .inr ⟨_, by rw [toneSamples_length]; exact renderLength_le hn, rfl⟩
  · exact .inl ⟨r, h⟩

/-- An effect render writes at most the samples up to its envelope end, and ends for one of its two reasons. -/
theorem effectSamples_bound (cfg : Config) (pl : EffectPlan) (k n : Nat) (r : Render) :
    (effectSamples cfg pl k n r).samples.length ≤ k ∧
    ((effectSamples cfg pl k n r).reason = .envelope ∨ (effectSamples cfg pl k n r).reason = .limit) := by
  induction k generalizing n r with
  | zero => exact ⟨Nat.le_refl _, .inl rfl⟩
  | succ k ih =>
    unfold effectSamples
    split
    · exact ⟨Nat.zero_le _, .inr rfl⟩
    · have := ih (n + 1) (r.sample cfg pl n).2
      exact ⟨by simpa using this.1, this.2⟩

theorem renderEffectStep_cases (cfg : Config) (s : State) :
    (∃ r, renderEffectStep cfg s = s.raiseError .invalidParameter (BitVec.ofNat 32 (PReg.offset r))) ∨
    renderEffectStep cfg s = s.raiseError .capacityExceeded 0 ∨
    ∃ n, n ≤ cfg.pcmCap ∧ (effectRender cfg s.operands n).samples.length ≤ n ∧
      ((effectRender cfg s.operands n).reason = .envelope ∨ (effectRender cfg s.operands n).reason = .limit) ∧
      renderEffectStep cfg s = s.finishEffect (effectRender cfg s.operands n) := by
  rcases s.checked_cases effectRegs (match renderLength cfg (effectEnd cfg s.operands.params) with
     | none => s.raiseError .capacityExceeded 0
     | some n => s.finishEffect (effectRender cfg s.operands n)) with ⟨-, h⟩ | ⟨r, -, h⟩
  · have h' : renderEffectStep cfg s = _ := h
    right
    rw [h']
    split
    · exact .inl rfl
    · rename_i n hn
      have hb := effectSamples_bound cfg (effectPlan cfg s.operands n) n 0
        (.start cfg (effectPlan cfg s.operands n) s.operands.rng)
      exact .inr ⟨n, renderLength_le hn, hb.1, hb.2, rfl⟩
  · exact .inl ⟨r, h⟩

/-! ### The commands with their checked registers in domain -/

theorem tblPresetStep_ok {cfg : Config} {sel : BitVec 2} {s : State}
    (h : s.operands.firstBad (presetOperands (.ofBits sel)) = none) :
    tblPresetStep cfg sel s =
      (s.storeTable (presetTable cfg (.ofBits sel) s.operands.params.tblDuty)).finish .none :=
  State.checked_of_ok h _

theorem lookupStep_ok {cfg : Config} {s : State} (h : s.operands.firstBad [.uPhase] = none) :
    lookupStep cfg s = s.finishResult (lookupAt cfg s.tbl s.operands.params.uPhase) :=
  State.checked_of_ok h _

theorem oscGenStep_square {cfg : Config} {s : State} (h : s.operands.firstBad [.uPhase, .uDuty] = none) :
    oscGenStep cfg 0 s =
      s.finishResult (genSquare (s.operands.params.uPhase.wrap cfg) s.operands.params.uDuty) :=
  State.checked_of_ok h _

theorem oscGenStep_sawtooth {cfg : Config} {s : State} (h : s.operands.firstBad [.uPhase] = none) :
    oscGenStep cfg 1 s = s.finishResult (genSaw (s.operands.params.uPhase.wrap cfg)) :=
  State.checked_of_ok h _

theorem oscGenStep_sine {cfg : Config} {s : State} (h : s.operands.firstBad [.uPhase] = none) :
    oscGenStep cfg 2 s = s.finishResult (genSine cfg (s.operands.params.uPhase.wrap cfg)) :=
  State.checked_of_ok h _

theorem oscGenStep_noise {cfg : Config} {s : State} (h : s.operands.firstBad [.uPhase] = none) :
    oscGenStep cfg 3 s =
      { s.finishResult (cfg.rngNext s.operands.rng).1 with rng := (cfg.rngNext s.operands.rng).2 } :=
  State.checked_of_ok h _

theorem envEvalStep_ok {cfg : Config} {sel : BitVec 2} {s : State} (hs : sel.getLsbD 1 = false)
    (h : s.operands.firstBad (envOperands (sel.getLsbD 0)) = none) :
    envEvalStep cfg sel s = s.finishResult (envValue cfg (sel.getLsbD 0) s.operands.params) := by
  unfold envEvalStep
  rw [if_neg (by rw [hs]; exact Bool.false_ne_true)]
  exact State.checked_of_ok h _

theorem renderToneStep_ok {cfg : Config} {s : State} {n : Nat} (h : s.operands.firstBad toneOperands = none)
    (hn : renderLength cfg (toneEnd s.operands.params.tAttack s.operands.params.tDecay s.operands.params.tSustain
      s.operands.params.tRelease) = some n) :
    renderToneStep cfg s = s.finishRender (toneSamples cfg s.tbl s.operands.params
      (s.operands.params.pitchHz.div F64.sampleRate) n 0 F64.zero) .envelope := by
  have h' : renderToneStep cfg s = _ := State.checked_of_ok h _
  rw [h', hn]

theorem renderEffectStep_ok {cfg : Config} {s : State} {n : Nat} (h : s.operands.firstBad effectRegs = none)
    (hn : renderLength cfg (effectEnd cfg s.operands.params) = some n) :
    renderEffectStep cfg s = s.finishEffect (effectRender cfg s.operands n) := by
  have h' : renderEffectStep cfg s = _ := State.checked_of_ok h _
  rw [h', hn]

/-! ### All commands -/

/-- How a complete step ends: with an error and nothing else changed, or with the success status. -/
theorem completeIn_ends (cfg : Config) (s : State) (i : Instr) :
    (∃ c a, completeIn cfg s i = s.raiseError c a ∧ c ≠ .none ∧
      (c = .invalidParameter ∧ (∃ r, a = BitVec.ofNat 32 (PReg.offset r)) ∨ c ≠ .invalidParameter ∧ a = 0)) ∨
    ((completeIn cfg s i).seq = .idle ∧ (completeIn cfg s i).errAddr = 0 ∧
      ∃ reason, (completeIn cfg s i).status =
        { s.status with done := true, err := false, errCode := .none, endReason := reason }) := by
  have bad : ∀ t : State, (∃ r, t = s.raiseError .invalidParameter (BitVec.ofNat 32 (PReg.offset r))) →
      ∃ c a, t = s.raiseError c a ∧ c ≠ .none ∧
        (c = .invalidParameter ∧ (∃ r, a = BitVec.ofNat 32 (PReg.offset r)) ∨ c ≠ .invalidParameter ∧ a = 0) :=
    fun t ⟨r, h⟩ => ⟨_, _, h, by decide, .inl ⟨rfl, r, rfl⟩⟩
  cases i with
  | nop => exact .inr ⟨rfl, rfl, _, rfl⟩
  | stgClear => exact .inr ⟨rfl, rfl, _, rfl⟩
  | tblPreset sel =>
    rcases tblPresetStep_cases cfg sel s with h | h
    · exact .inl (bad _ h)
    · right; rw [completeIn, h]; exact ⟨rfl, rfl, _, rfl⟩
  | tblCommit =>
    rcases tblCommitStep_cases cfg s with ⟨c, h1, h2, -, h⟩ | ⟨vs, -, -, h⟩
    · exact .inl ⟨c, 0, h, h1, .inr ⟨h2, rfl⟩⟩
    · right; rw [completeIn, h]; exact ⟨rfl, rfl, _, rfl⟩
  | renderTone =>
    rcases renderToneStep_cases cfg s with h | h | ⟨vs, -, h⟩
    · exact .inl (bad _ h)
    · exact .inl ⟨_, _, h, by decide, .inr ⟨by decide, rfl⟩⟩
    · right; rw [completeIn, h]; exact ⟨rfl, rfl, _, rfl⟩
  | renderEffect =>
    rcases renderEffectStep_cases cfg s with h | h | ⟨n, -, -, -, h⟩
    · exact .inl (bad _ h)
    · exact .inl ⟨_, _, h, by decide, .inr ⟨by decide, rfl⟩⟩
    · right; rw [completeIn, h]; exact ⟨rfl, rfl, _, rfl⟩
  | noteResolve =>
    rcases noteResolveStep_cases cfg s with ⟨-, h⟩ | ⟨k, -, h⟩
    · exact .inl ⟨_, _, h, by decide, .inr ⟨by decide, rfl⟩⟩
    · right; rw [completeIn, h]; exact ⟨rfl, rfl, _, rfl⟩
  | lookup =>
    rcases lookupStep_cases cfg s with h | h
    · exact .inl (bad _ h)
    · right; rw [completeIn, h]; exact ⟨rfl, rfl, _, rfl⟩
  | oscGen sel =>
    rcases oscGenStep_cases cfg sel s with h | ⟨v, -, h⟩ | ⟨-, h⟩
    · exact .inl (bad _ h)
    · right; rw [completeIn, h]; exact ⟨rfl, rfl, _, rfl⟩
    · right; rw [completeIn, h]; exact ⟨rfl, rfl, _, rfl⟩
  | envEval sel =>
    rcases envEvalStep_cases cfg sel s with h | h | h
    · exact .inl ⟨_, _, h, by decide, .inr ⟨by decide, rfl⟩⟩
    · exact .inl (bad _ h)
    · right; rw [completeIn, h]; exact ⟨rfl, rfl, _, rfl⟩

/-- What one step of the machine can do. -/
theorem step_cases (s : State) :
    (∃ w i, s.ready? = some w ∧ decode w = .ok i ∧ step s = .next (completeIn Config.machine s i)) ∨
    (∃ w e, s.ready? = some w ∧ decode w = .error e ∧ step s = .next (s.raiseError .illegalCommand 0)) ∨
    (s.ready? = none ∧ step s = .next (s.elapse Config.machine)) := by
  unfold step
  cases h : s.ready? with
  | none => exact .inr (.inr ⟨rfl, rfl⟩)
  | some w =>
    cases hd : decode w with
    | ok i => exact .inl ⟨w, i, rfl, hd, by simp only [hd, exec_eq_next]⟩
    | error e => exact .inr (.inl ⟨w, e, rfl, hd, by simp only [hd]⟩)

/-- A run of `k + 1` steps of any machine takes one step and then runs `k`. -/
theorem run_succ_of (M : Host.Core) (s t : M.State) (h : M.step s = .next t) (k : Nat) :
    M.run (k + 1) s = M.run k t := by
  rw [Host.Core.run, h]

theorem run_succ {s t : State} (h : step s = .next t) (k : Nat) :
    Host.Core.run core (k + 1) s = Host.Core.run core k t := run_succ_of core s t h k

end Machine
end Sys2Proof
end

