-- ==== Sys2Proof/Laws/Flags.lean ====
section
/-! SUPPORT. The bits of a STATUS word (10_state.md R33). -/

namespace Sys2Proof
namespace Machine

theorem statusBits_fields : ∀ (busy done err ovr : Bool) (code : BitVec 4) (reason : BitVec 2),
    (statusBits busy done err ovr code reason).getLsbD 0 = busy ∧
    (statusBits busy done err ovr code reason).getLsbD 1 = done ∧
    (statusBits busy done err ovr code reason).getLsbD 2 = err ∧
    (statusBits busy done err ovr code reason).getLsbD 3 = ovr ∧
    (statusBits busy done err ovr code reason).extractLsb' 4 4 = code ∧
    (statusBits busy done err ovr code reason).extractLsb' 8 2 = reason ∧
    (statusBits busy done err ovr code reason).extractLsb' 10 22 = 0 := by
  decide +kernel

theorem anyErrCode_le : ∀ b : BitVec 4, (anyErrCode b).toNat ≤ 6 := by decide

theorem anyEndReason_le : ∀ b : BitVec 2, (anyEndReason b).toNat ≤ 2 := by decide

/-- Every code the block produces is one of the free values, so nothing R490 allows is left out. -/
theorem anyErrCode_code (c : ErrCode) : anyErrCode c.code = c.code := by cases c <;> decide

theorem anyEndReason_code (r : EndReason) : anyEndReason r.code = r.code := by cases r <;> decide

theorem code_le (c : ErrCode) : c.code.toNat ≤ 6 := by cases c <;> decide

theorem reason_le (r : EndReason) : r.code.toNat ≤ 2 := by cases r <;> decide

end Machine
end Sys2Proof
end

