-- ==== Sys2Proof/Laws/Float.lean ====
section
/-! SUPPORT. The binary64 operations as facts about exact values: the magnitude bits of a number, in order, stand for
strictly increasing magnitudes (`val`), rounding lands on one of the two neighbours of the exact value
(`roundMag_bracket`) and never crosses a representable one (`roundMag_ge`, `roundMag_le`), and the comparisons are the
comparisons of the exact values. -/

namespace Sys2Proof
namespace F64

/-! ## Fields -/

theorem magBits_lt (x : F64) : x.magBits < 2 ^ 63 := (x.bits.extractLsb' 0 63).isLt

theorem magBits_eq (x : F64) : x.magBits = x.bits.toNat % 2 ^ 63 := by simp [magBits]

theorem expField_eq (x : F64) : x.expField = x.magBits / 2 ^ 52 := by
  rw [magBits_eq]
  simp only [expField, BitVec.extractLsb'_toNat, Nat.shiftRight_eq_div_pow]
  omega

theorem fracField_eq (x : F64) : x.fracField = x.magBits % 2 ^ 52 := by
  rw [magBits_eq]
  simp only [fracField, BitVec.extractLsb'_toNat, Nat.shiftRight_eq_div_pow]
  omega

theorem signBit_eq (x : F64) : x.signBit = decide (2 ^ 63 ≤ x.bits.toNat) := by
  have h := x.bits.isLt
  simp only [signBit, BitVec.getLsbD, Nat.testBit_eq_decide_div_mod_eq]
  congr 1
  simp only [eq_iff_iff]
  omega

theorem isFinite_iff (x : F64) : x.isFinite = true ↔ x.magBits < infMag := by
  have := magBits_lt x
  simp only [isFinite, expField_eq, infMag, bne_iff_ne, ne_eq]
  omega

theorem isNaN_iff (x : F64) : x.isNaN = true ↔ infMag < x.magBits := by
  have := magBits_lt x
  simp only [isNaN, expField_eq, fracField_eq, infMag, Bool.and_eq_true, beq_iff_eq, bne_iff_ne, ne_eq]
  omega

theorem isInf_iff (x : F64) : x.isInf = true ↔ x.magBits = infMag := by
  have := magBits_lt x
  simp only [isInf, expField_eq, fracField_eq, infMag, Bool.and_eq_true, beq_iff_eq]
  omega

theorem not_isNaN_of_isFinite {x : F64} (h : x.isFinite = true) : x.isNaN = false := by
  have := (isFinite_iff x).1 h
  by_contra hn
  have := (isNaN_iff x).1 (by simpa using hn)
  omega

theorem not_isInf_of_isFinite {x : F64} (h : x.isFinite = true) : x.isInf = false := by
  have := (isFinite_iff x).1 h
  by_contra hn
  have := (isInf_iff x).1 (by simpa using hn)
  omega

/-- The bits of a value made from a sign and magnitude bits. -/
theorem bits_ofSign (b : Bool) {m : Nat} (h : m < 2 ^ 63) :
    (ofSign b m).bits.toNat = if b then 2 ^ 63 + m else m := by
  cases b
  · simp only [ofSign, BitVec.toNat_ofNat, Bool.false_eq_true, if_false]; omega
  · simp only [ofSign, BitVec.toNat_ofNat, if_true]; omega

theorem magBits_ofSign (b : Bool) {m : Nat} (h : m < 2 ^ 63) : (ofSign b m).magBits = m := by
  rw [magBits_eq, bits_ofSign b h]
  cases b
  · simp; omega
  · simp; omega

theorem signBit_ofSign (b : Bool) {m : Nat} (h : m < 2 ^ 63) : (ofSign b m).signBit = b := by
  rw [signBit_eq, bits_ofSign b h]
  cases b
  · simp; omega
  · simp

/-- A value is its sign and its magnitude bits. -/
theorem ofSign_fields (x : F64) : ofSign x.signBit x.magBits = x := by
  have h : (ofSign x.signBit x.magBits).bits = x.bits := by
    apply BitVec.eq_of_toNat_eq
    have hx := x.bits.isLt
    rw [bits_ofSign _ (magBits_lt x), signBit_eq, magBits_eq]
    by_cases hs : 2 ^ 63 ≤ x.bits.toNat
    · simp only [hs, decide_true, if_true]; omega
    · simp only [hs, decide_false, Bool.false_eq_true, if_false]; omega
  cases x
  exact congrArg F64.mk h

theorem magBits_neg (x : F64) : (neg x).magBits = x.magBits := by
  have h : (neg x).bits.toNat % 2 ^ 63 = x.bits.toNat % 2 ^ 63 := by
    simp only [neg, BitVec.toNat_xor]
    rw [Nat.xor_mod_two_pow]
    simp
  rw [magBits_eq, magBits_eq, h]

theorem signBit_neg (x : F64) : (neg x).signBit = !x.signBit := by
  simp [neg, signBit]

theorem isFinite_neg (x : F64) : (neg x).isFinite = x.isFinite := by
  rw [Bool.eq_iff_iff, isFinite_iff, isFinite_iff, magBits_neg]

/-! ## Magnitudes -/

/-- The magnitude, in units, that magnitude bits stand for, as if the exponent had no upper end. -/
def val (m : Nat) : Nat := if m < 2 ^ 52 then m else (2 ^ 52 + m % 2 ^ 52) * 2 ^ (m / 2 ^ 52 - 1)

theorem magUnits_eq (x : F64) : x.magUnits = val x.magBits := by
  unfold magUnits val
  rw [expField_eq, fracField_eq]
  by_cases h : x.magBits < 2 ^ 52
  · rw [if_pos h, if_pos (by omega)]; omega
  · rw [if_neg h, if_neg (by omega)]

/-- Magnitude bits `s * 2^52 + m` with a significand `m` stand for `m * 2^s`. -/
theorem val_scaled {s m : Nat} (hm : m < 2 ^ 53) (hs : 0 < s → 2 ^ 52 ≤ m) : val (s * 2 ^ 52 + m) = m * 2 ^ s := by
  unfold val
  by_cases h : m < 2 ^ 52
  · obtain rfl : s = 0 := by by_contra hn; have := hs (by omega); omega
    rw [if_pos (by omega)]; simp
  · rw [if_neg (by omega), show (s * 2 ^ 52 + m) / 2 ^ 52 - 1 = s by omega,
      show 2 ^ 52 + (s * 2 ^ 52 + m) % 2 ^ 52 = m by omega]

/-- The next magnitude is one step of the significand up. -/
theorem val_scaled_succ {s m : Nat} (hm : m < 2 ^ 53) (hs : 0 < s → 2 ^ 52 ≤ m) :
    val (s * 2 ^ 52 + m + 1) = (m + 1) * 2 ^ s := by
  by_cases h : m + 1 < 2 ^ 53
  · rw [show s * 2 ^ 52 + m + 1 = s * 2 ^ 52 + (m + 1) by omega]
    exact val_scaled h (fun h0 => by have := hs h0; omega)
  · have e : m + 1 = 2 ^ 53 := by omega
    rw [show s * 2 ^ 52 + m + 1 = (s + 1) * 2 ^ 52 + 2 ^ 52 by omega,
      val_scaled (s := s + 1) (m := 2 ^ 52) (by omega) (fun _ => le_refl _), e, pow_succ]
    ring

/-- Every magnitude is a significand and a scale. -/
theorem exists_scaled (m : Nat) : ∃ s k, m = s * 2 ^ 52 + k ∧ k < 2 ^ 53 ∧ (0 < s → 2 ^ 52 ≤ k) := by
  by_cases h : m < 2 ^ 52
  · exact ⟨0, m, by omega, by omega, by omega⟩
  · exact ⟨m / 2 ^ 52 - 1, m - (m / 2 ^ 52 - 1) * 2 ^ 52, by omega, by omega, by omega⟩

theorem val_lt_succ (m : Nat) : val m < val (m + 1) := by
  obtain ⟨s, k, rfl, hk, hs⟩ := exists_scaled m
  rw [val_scaled hk hs, val_scaled_succ hk hs, Nat.add_mul, one_mul]
  have : 0 < 2 ^ s := by positivity
  omega

/-- Magnitude bits grow strictly with the magnitude. -/
theorem val_strictMono : StrictMono val := strictMono_nat_of_lt_succ val_lt_succ

@[simp] theorem val_zero : val 0 = 0 := rfl

/-! ## Rounding -/

/-- What `roundMag` can do: it takes a neighbour of the exact ratio, the lower one `b` or the one above, the nearer of
the two, and on a tie the even one; and infinity from there on. -/
theorem roundMag_bracket (num : Nat) {den : Nat} (hd : 0 < den) :
    ∃ b, val b * den ≤ num ∧ num < val (b + 1) * den ∧
      (2 * num < (val b + val (b + 1)) * den → roundMag num den = min b infMag) ∧
      ((val b + val (b + 1)) * den < 2 * num → roundMag num den = min (b + 1) infMag) ∧
      (2 * num = (val b + val (b + 1)) * den →
        roundMag num den = min (if b % 2 = 1 then b + 1 else b) infMag) := by
  obtain ⟨s, hs⟩ : ∃ s, s = (num / den).log2 - 52 := ⟨_, rfl⟩
  have hdp : 0 < den * 2 ^ s := by positivity
  obtain ⟨m, hm⟩ : ∃ m, m = num / (den * 2 ^ s) := ⟨_, rfl⟩
  have hmq : m = num / den / 2 ^ s := by rw [hm, Nat.div_div_eq_div_mul]
  have hm53 : m < 2 ^ 53 := by
    rw [hmq]
    refine Nat.div_lt_of_lt_mul ?_
    by_cases h0 : num / den = 0
    · rw [h0]; positivity
    · have h1 := (Nat.log2_lt h0).1 (Nat.lt_succ_self _)
      refine lt_of_lt_of_le h1 ?_
      rw [← pow_add]
      exact Nat.pow_le_pow_right (by norm_num) (by omega)
  have hm52 : 0 < s → 2 ^ 52 ≤ m := by
    intro h0
    have hne : num / den ≠ 0 := by
      intro h; rw [h] at hs; simp at hs; omega
    have h1 := Nat.log2_self_le hne
    rw [hmq, Nat.le_div_iff_mul_le (by positivity), ← pow_add]
    rwa [show 52 + s = (num / den).log2 by omega]
  have hdiv : den * 2 ^ s * m + num % (den * 2 ^ s) = num := by rw [hm]; exact Nat.div_add_mod _ _
  have hr : num % (den * 2 ^ s) < den * 2 ^ s := Nat.mod_lt _ hdp
  have hround : roundMag num den = min (s * 2 ^ 52 +
      (if den * 2 ^ s < 2 * (num % (den * 2 ^ s)) ∨
        (den * 2 ^ s = 2 * (num % (den * 2 ^ s)) ∧ m % 2 = 1) then m + 1 else m)) infMag := by
    rw [hm, hs]; rfl
  have v0 := val_scaled hm53 hm52
  have v1 := val_scaled_succ hm53 hm52
  have e0 : val (s * 2 ^ 52 + m) * den = den * 2 ^ s * m := by rw [v0]; ring
  have e1 : val (s * 2 ^ 52 + m + 1) * den = den * 2 ^ s * m + den * 2 ^ s := by rw [v1]; ring
  have hpar : (s * 2 ^ 52 + m) % 2 = m % 2 := by omega
  refine ⟨s * 2 ^ 52 + m, by omega, by omega, ?_, ?_, ?_⟩
  · rw [Nat.add_mul, e0, e1]
    intro h
    rw [hround, if_neg (by omega)]
  · rw [Nat.add_mul, e0, e1]
    intro h
    rw [hround, if_pos (by omega), Nat.add_assoc]
  · rw [Nat.add_mul, e0, e1, hpar]
    intro h
    rw [hround]
    by_cases hp : m % 2 = 1
    · rw [if_pos (by omega), if_pos hp, Nat.add_assoc]
    · rw [if_neg (by omega), if_neg hp]

theorem roundMag_le_infMag (num den : Nat) : roundMag num den ≤ infMag := by
  unfold roundMag
  exact Nat.min_le_right _ _

theorem infMag_lt : infMag < 2 ^ 63 := by decide

theorem roundMag_lt (num den : Nat) : roundMag num den < 2 ^ 63 :=
  lt_of_le_of_lt (roundMag_le_infMag num den) infMag_lt

/-- Rounding never goes below a representable magnitude the exact value reaches. -/
theorem roundMag_ge {num den c : Nat} (hd : 0 < den) (h : val c * den ≤ num) (hc : c ≤ infMag) :
    c ≤ roundMag num den := by
  obtain ⟨b, hb, hb', h1, h2, h3⟩ := roundMag_bracket num hd
  have hcb : c ≤ b := by
    by_contra hn
    have : val (b + 1) ≤ val c := val_strictMono.monotone (by omega)
    have := Nat.mul_le_mul_right den this
    omega
  generalize infMag = I at *
  rcases lt_trichotomy (2 * num) ((val b + val (b + 1)) * den) with h | h | h
  · rw [h1 h]; omega
  · rw [h3 h]; split <;> omega
  · rw [h2 h]; omega

/-- Rounding never goes above a representable magnitude the exact value stays below. -/
theorem roundMag_le {num den c : Nat} (hd : 0 < den) (h : num ≤ val c * den) : roundMag num den ≤ c := by
  obtain ⟨b, hb, hb', h1, h2, h3⟩ := roundMag_bracket num hd
  have hbc : b ≤ c := by
    by_contra hn
    have h4 : val c < val b := val_strictMono (by omega)
    have := Nat.mul_lt_mul_of_pos_right h4 hd
    omega
  generalize infMag = I at *
  by_cases hE : b = c
  · subst hE
    have hlt : val b * den < val (b + 1) * den := Nat.mul_lt_mul_of_pos_right (val_lt_succ b) hd
    rw [h1 (by rw [Nat.add_mul]; omega)]
    omega
  · rcases lt_trichotomy (2 * num) ((val b + val (b + 1)) * den) with h | h | h
    · rw [h1 h]; omega
    · rw [h3 h]; split <;> omega
    · rw [h2 h]; omega

/-- A representable magnitude rounds to itself. -/
theorem roundMag_exact {den c : Nat} (hd : 0 < den) (hc : c ≤ infMag) : roundMag (val c * den) den = c :=
  le_antisymm (roundMag_le hd (le_refl _)) (roundMag_ge hd (le_refl _) hc)

theorem roundMag_val {c : Nat} (hc : c ≤ infMag) : roundMag (val c) 1 = c := by
  simpa using roundMag_exact (den := 1) (by norm_num) hc

theorem roundMag_mono {a b den : Nat} (hd : 0 < den) (h : a ≤ b) : roundMag a den ≤ roundMag b den := by
  by_cases hb : roundMag b den = infMag
  · rw [hb]; exact roundMag_le_infMag _ _
  · obtain ⟨c, h0, h0', h1, h2, h3⟩ := roundMag_bracket a hd
    obtain ⟨c', g0, g0', g1, g2, g3⟩ := roundMag_bracket b hd
    have hcc : c ≤ c' := by
      by_contra hn
      have : val (c' + 1) ≤ val c := val_strictMono.monotone (by omega)
      have := Nat.mul_le_mul_right den this
      omega
    by_cases hE : c = c'
    · subst hE
      generalize infMag = I at *
      rcases lt_trichotomy (2 * a) ((val c + val (c + 1)) * den) with h' | h' | h' <;>
      rcases lt_trichotomy (2 * b) ((val c + val (c + 1)) * den) with h'' | h'' | h'' <;>
      first
        | omega
        | (rw [h1 h', g3 h'']; split <;> omega)
        | (rw [h3 h', g3 h''])
        | (rw [h3 h', g2 h'']; split <;> omega)
    · have ha : roundMag a den ≤ c + 1 := roundMag_le hd (by omega)
      have hb' : min c' infMag ≤ roundMag b den := by
        refine roundMag_ge hd ?_ (Nat.min_le_right _ _)
        refine le_trans (Nat.mul_le_mul_right den (val_strictMono.monotone (Nat.min_le_left _ _))) g0
      have := roundMag_le_infMag a den
      generalize infMag = I at *
      omega

/-! ## Order and exact values -/

theorem units_eq (x : F64) : x.units = if x.signBit then -(val x.magBits : Int) else (val x.magBits : Int) := by
  simp only [units, magUnits_eq]

theorem orderKey_lt_iff (x y : F64) : x.orderKey < y.orderKey ↔ x.units < y.units := by
  rw [units_eq, units_eq]
  unfold orderKey
  have h := val_strictMono.lt_iff_lt (a := x.magBits) (b := y.magBits)
  have h' := val_strictMono.lt_iff_lt (a := y.magBits) (b := x.magBits)
  have hx : x.magBits = 0 ↔ val x.magBits = 0 := by
    constructor
    · intro e; rw [e]; rfl
    · intro e; exact val_strictMono.injective (by rw [e]; rfl)
  have hy : y.magBits = 0 ↔ val y.magBits = 0 := by
    constructor
    · intro e; rw [e]; rfl
    · intro e; exact val_strictMono.injective (by rw [e]; rfl)
  cases x.signBit <;> cases y.signBit <;> simp only [if_true, if_false, Bool.false_eq_true] <;> omega

theorem orderKey_le_iff (x y : F64) : x.orderKey ≤ y.orderKey ↔ x.units ≤ y.units := by
  rw [← not_lt, ← not_lt, orderKey_lt_iff]

/-- `a < b` of finite values is the order of their exact values. -/
theorem lt_iff {x y : F64} (hx : x.isFinite = true) (hy : y.isFinite = true) :
    lt x y = true ↔ x.units < y.units := by
  simp [lt, not_isNaN_of_isFinite hx, not_isNaN_of_isFinite hy, orderKey_lt_iff]

theorem le_iff {x y : F64} (hx : x.isFinite = true) (hy : y.isFinite = true) :
    le x y = true ↔ x.units ≤ y.units := by
  simp [le, not_isNaN_of_isFinite hx, not_isNaN_of_isFinite hy, orderKey_le_iff]

theorem eq_iff {x y : F64} (hx : x.isFinite = true) (hy : y.isFinite = true) :
    eq x y = true ↔ x.units = y.units := by
  have h : x.orderKey = y.orderKey ↔ x.units = y.units := by
    rw [le_antisymm_iff, le_antisymm_iff, orderKey_le_iff, orderKey_le_iff]
  simp [eq, not_isNaN_of_isFinite hx, not_isNaN_of_isFinite hy, h]

theorem units_neg (x : F64) : (neg x).units = -x.units := by
  rw [units_eq, units_eq, magBits_neg, signBit_neg]
  cases x.signBit <;> simp

theorem isFinite_ofSign (b : Bool) {m : Nat} (h : m < infMag) : (ofSign b m).isFinite = true := by
  rw [isFinite_iff, magBits_ofSign b (lt_trans h infMag_lt)]
  exact h

theorem not_isNaN_ofSign (b : Bool) {m : Nat} (h : m ≤ infMag) : (ofSign b m).isNaN = false := by
  by_contra hn
  have := (isNaN_iff _).1 (by simpa using hn)
  rw [magBits_ofSign b (lt_of_le_of_lt h infMag_lt)] at this
  omega

theorem units_ofSign (b : Bool) {m : Nat} (h : m < 2 ^ 63) :
    (ofSign b m).units = if b then -(val m : Int) else (val m : Int) := by
  rw [units_eq, magBits_ofSign b h, signBit_ofSign b h]

/-- An exact value that is representable rounds to itself. -/
theorem units_roundUnits_exact (zs : Bool) {z : Int} {c : Nat} (hc : c < infMag) (hz : z.natAbs = val c) :
    (roundUnits zs z).isFinite = true ∧ (roundUnits zs z).units = z := by
  have hc63 : c < 2 ^ 63 := lt_trans hc infMag_lt
  unfold roundUnits
  split
  · subst z
    have h0 : (0 : Nat) < infMag := by decide
    refine ⟨isFinite_ofSign zs h0, ?_⟩
    rw [units_ofSign zs (by norm_num)]
    cases zs <;> simp
  · rw [hz, roundMag_val (le_of_lt hc)]
    refine ⟨isFinite_ofSign _ hc, ?_⟩
    rw [units_ofSign _ hc63]
    by_cases h : z < 0
    · simp only [h, decide_true, if_true]; omega
    · simp only [h, decide_false, Bool.false_eq_true, if_false]; omega

theorem add_finite {x y : F64} (hx : x.isFinite = true) (hy : y.isFinite = true) :
    add x y = roundUnits (x.signBit && y.signBit) (x.units + y.units) := by
  simp [add, not_isNaN_of_isFinite hx, not_isNaN_of_isFinite hy, not_isInf_of_isFinite hx, not_isInf_of_isFinite hy]

theorem sub_finite {x y : F64} (hx : x.isFinite = true) (hy : y.isFinite = true) :
    sub x y = roundUnits (x.signBit && !y.signBit) (x.units - y.units) := by
  rw [sub, add_finite hx (by rw [isFinite_neg]; exact hy), signBit_neg, units_neg]
  rfl

theorem mul_finite {x y : F64} (hx : x.isFinite = true) (hy : y.isFinite = true) :
    mul x y = ofSign (x.signBit != y.signBit) (roundMag (x.magUnits * y.magUnits) unitsPerOne) := by
  simp [mul, not_isNaN_of_isFinite hx, not_isNaN_of_isFinite hy, not_isInf_of_isFinite hx, not_isInf_of_isFinite hy]

theorem not_isNaN_roundUnits (zs : Bool) (z : Int) : (roundUnits zs z).isNaN = false := by
  unfold roundUnits
  split
  · exact not_isNaN_ofSign zs (Nat.zero_le _)
  · exact not_isNaN_ofSign _ (roundMag_le_infMag _ _)

/-- The floor of a finite value, exactly. -/
theorem floor_finite {x : F64} (hx : x.isFinite = true) : floor x = x.units / (unitsPerOne : Int) := by
  unfold floor
  rw [if_pos hx]

end F64
end Sys2Proof
end

