-- ==== Sys2Proof/Laws/Parameters.lean ====
section
/-! SUPPORT. The configuration the machine runs with meets every constraint of table P (`machine_legal`), and no
configuration that meets them is left out (`legalise_of_legal`). -/

namespace Sys2Proof
namespace Config

theorem restrict_range {dom cod : F64 → Bool} {dflt : F64} (h : cod dflt = true) (f : F64 → F64) (x : F64)
    (hx : dom x = true) : cod (restrict dom cod dflt f x) = true := by
  unfold restrict
  split <;> simp_all

theorem restrict_eq {dom cod : F64 → Bool} {f : F64 → F64} (h : ∀ x, dom x = true → cod (f x) = true) (dflt : F64) :
    restrict dom cod dflt f = f := by
  funext x
  by_cases hx : dom x = true <;> simp_all [restrict]

theorem keep_ok {α : Type} {ok : α → Bool} {dflt : α} (h : ok dflt = true) (v : α) : ok (keep ok dflt v) = true := by
  unfold keep
  split <;> assumption

theorem keep_eq {α : Type} {ok : α → Bool} {v : α} (h : ok v = true) (dflt : α) : keep ok dflt v = v := by
  simp [keep, h]

theorem pinAt_same (x0 v : F64) (f : F64 → F64) : pinAt x0 v f x0 = v := by simp [pinAt]

theorem pinAt_range {cod : F64 → Bool} {v x : F64} (x0 : F64) {f : F64 → F64} (hv : cod v = true)
    (hf : cod (f x) = true) : cod (pinAt x0 v f x) = true := by
  unfold pinAt
  split <;> assumption

theorem pinAt_eq {x0 v : F64} {f : F64 → F64} (h : f x0 = v) : pinAt x0 v f = f := by
  funext x
  by_cases hx : x = x0 <;> simp_all [pinAt]

/-- Keeping one range does not leave another that the default is in. -/
theorem restrict_keeps {dom cod cod' : F64 → Bool} {dflt x : F64} {f : F64 → F64} (h : cod' dflt = true)
    (hf : cod' (f x) = true) : cod' (restrict dom cod dflt f x) = true := by
  unfold restrict
  split <;> assumption

theorem zero_inUnit : F64.zero.inUnit = true := by decide +kernel
theorem zero_inBipolar : F64.zero.inBipolar = true := by decide +kernel
theorem zero_isNonneg : F64.zero.isNonneg = true := by decide +kernel
theorem zero_isFinite : F64.zero.isFinite = true := by decide +kernel
theorem zero_isPhase : F64.zero.isPhase = true := by decide +kernel
theorem one_isFinite : F64.one.isFinite = true := by decide +kernel
theorem one_isPositive : isPositive F64.one = true := by decide +kernel
theorem units_zero : F64.zero.units = 0 := by decide +kernel
theorem units_one : F64.one.units = (F64.unitsPerOne : Int) := by decide +kernel
theorem unitsPerOne_pos : 0 < F64.unitsPerOne := by unfold F64.unitsPerOne; positivity

/-- A value made with a positive sign is at or above 0.0. -/
theorem zero_le_ofSign {m : Nat} (h : m ≤ F64.infMag) : F64.zero.le (F64.ofSign false m) = true := by
  have hm : m < 2 ^ 63 := lt_of_le_of_lt h F64.infMag_lt
  have hz : F64.zero.orderKey = 0 := by decide +kernel
  have hk : (F64.ofSign false m).orderKey = m := by
    simp [F64.orderKey, F64.signBit_ofSign false hm, F64.magBits_ofSign false hm]
  simp [F64.le, F64.not_isNaN_of_isFinite zero_isFinite, F64.not_isNaN_ofSign false h, hz, hk]

theorem zero_isZero : isZero F64.zero = true := by decide +kernel

theorem zeroAtZero_zero (f : F64 → F64) : zeroAtZero f F64.zero = F64.zero := pinAt_same _ _ _

theorem zeroAtZero_zeros (f : F64 → F64) (x : F64) (h : isZero x = true) : isZero (zeroAtZero f x) = true :=
  pinAt_range _ zero_isZero (restrict_range zero_isZero _ x h)

theorem zeroAtZero_range (f : F64 → F64) (x : F64) (h : x.inUnit = true) : (zeroAtZero f x).inUnit = true :=
  pinAt_range _ zero_inUnit (restrict_keeps zero_inUnit (restrict_range zero_inUnit _ x h))

theorem zeroAtZero_eq {f : F64 → F64} (h0 : f F64.zero = F64.zero) (hz : ∀ x, isZero x = true → isZero (f x) = true)
    (hr : ∀ x, x.inUnit = true → (f x).inUnit = true) : zeroAtZero f = f := by
  unfold zeroAtZero
  rw [restrict_eq hr, restrict_eq hz, pinAt_eq h0]

theorem isNonneg_iff (x : F64) : x.isNonneg = true ↔ x.isFinite = true ∧ 0 ≤ x.units := by
  unfold F64.isNonneg
  rw [Bool.and_eq_true]
  refine and_congr_right fun h => ?_
  rw [F64.le_iff zero_isFinite h, units_zero]

theorem inUnit_iff (x : F64) :
    x.inUnit = true ↔ x.isFinite = true ∧ 0 ≤ x.units ∧ x.units ≤ (F64.unitsPerOne : Int) := by
  unfold F64.inUnit F64.inRange
  rw [Bool.and_eq_true, Bool.and_eq_true, and_assoc]
  refine and_congr_right fun h => ?_
  rw [F64.le_iff zero_isFinite h, F64.le_iff h one_isFinite, units_zero, units_one]

/-- 0.0 lies in [0, 1 + PU] for every punch in [0, 1]. -/
theorem zero_envRange {pu : F64} (h : pu.inUnit = true) : envRange pu F64.zero = true := by
  obtain ⟨hf, h0, -⟩ := (inUnit_iff pu).1 h
  have hz : F64.one.units + pu.units ≠ 0 := by
    rw [units_one]
    have := unitsPerOne_pos
    omega
  have hn : ¬ F64.one.units + pu.units < 0 := by
    rw [units_one]
    have := unitsPerOne_pos
    omega
  have hadd : F64.one.add pu =
      F64.ofSign false (F64.roundMag (F64.one.units + pu.units).natAbs 1) := by
    rw [F64.add_finite one_isFinite hf]
    unfold F64.roundUnits
    rw [if_neg hz, decide_eq_false hn]
  unfold envRange F64.inRange
  rw [hadd, zero_le_ofSign (F64.roundMag_le_infMag _ _), zero_isFinite,
    show F64.zero.le F64.zero = true by decide +kernel]
  rfl

theorem legalEffectEnv_attack (f : F64 → F64 → F64 → F64 → F64 → F64) {a s d pu t : F64}
    (h : envDomain a s d pu t = true) (ht : t.lt a = true) : legalEffectEnv f a s d pu t = t.div a := by
  simp [legalEffectEnv, h, ht]

theorem legalEffectEnv_end (f : F64 → F64 → F64 → F64 → F64 → F64) {a s d pu t : F64}
    (h : envDomain a s d pu t = true) (ht : t.lt a = false) (hw : (envEnd a s d).le t = true) :
    legalEffectEnv f a s d pu t = F64.zero := by
  simp [legalEffectEnv, h, ht, hw]

theorem legalEffectEnv_range (f : F64 → F64 → F64 → F64 → F64 → F64) {a s d pu t : F64}
    (h : envDomain a s d pu t = true) (ht : t.lt a = false) (hw : (envEnd a s d).le t = false) :
    envRange pu (legalEffectEnv f a s d pu t) = true := by
  have hpu : pu.inUnit = true := by
    simp only [envDomain, Bool.and_eq_true] at h
    exact h.1.2
  simp only [legalEffectEnv, h, ht, hw, if_true, Bool.false_eq_true, if_false]
  exact keep_ok (ok := envRange pu) (zero_envRange hpu) _

/-- Every configuration kept to the constraints meets them. -/
theorem legalise_legal (c : Config) : (legalise c).Legal where
  pcmCap_even := by
    have := keep_ok (ok := pcmCapOk) (dflt := 2) (by decide) c.pcmCap
    simp only [pcmCapOk, Bool.and_eq_true, beq_iff_eq] at this
    exact this.1.1
  pcmCap_low := by
    have := keep_ok (ok := pcmCapOk) (dflt := 2) (by decide) c.pcmCap
    simp only [pcmCapOk, Bool.and_eq_true, decide_eq_true_eq] at this
    exact this.1.2
  pcmCap_high := by
    have := keep_ok (ok := pcmCapOk) (dflt := 2) (by decide) c.pcmCap
    simp only [pcmCapOk, Bool.and_eq_true, decide_eq_true_eq] at this
    exact this.2
  sin_range := fun x => restrict_range (dom := fun _ => true) zero_inBipolar c.sin x rfl
  pow2_integral := fun x h hi => by simp [legalise, legalPow2, h, hi]
  pow2_positive := fun x h hi => by
    simp only [legalise, legalPow2, h, hi, if_true, Bool.false_eq_true, if_false]
    exact keep_ok one_isPositive _
  decayShape_zero := zeroAtZero_zero c.decayShape
  decayShape_zeros := zeroAtZero_zeros _
  decayShape_range := zeroAtZero_range _
  effectEnv_attack := fun _ _ _ _ _ h ht => legalEffectEnv_attack _ h ht
  effectEnv_end := fun _ _ _ _ _ h ht hw => legalEffectEnv_end _ h ht hw
  effectEnv_range := fun _ _ _ _ _ h ht hw => legalEffectEnv_range _ h ht hw
  envTime_range := restrict_range zero_isNonneg _
  freqMap_range := restrict_range zero_isNonneg _
  limitMap_range := restrict_range zero_isNonneg _
  frampMap_range := restrict_range zero_isFinite _
  fdrampMap_range := restrict_range zero_isFinite _
  arpFrac_range := restrict_range zero_inUnit _
  noiseSegs_low := Nat.le_max_left _ _
  rngNext_range := fun _ => keep_ok zero_inBipolar _
  lpfAlpha_range := restrict_range zero_inUnit _
  resFb_range := zeroAtZero_range _
  resFb_zero := zeroAtZero_zero c.resFb
  resFb_zeros := zeroAtZero_zeros _
  hpfAlpha_range := restrict_range zero_inUnit _
  phaserLen_low := Nat.le_max_left _ _
  phaScale_range := keep_ok zero_isNonneg _
  phaWet_finite := keep_ok zero_isFinite _
  repeatSeg_low := fun r h => by simp [legalise, legalRepeatSeg, h]
  masterGain_range := keep_ok one_isPositive _
  wrapNonFinite_range := fun x h =>
    restrict_range (dom := fun x => !x.isFinite) zero_isPhase c.wrapNonFinite x (by simp [h])

/-- A configuration that meets the constraints is the one the machine would run with: none is left out. -/
theorem legalise_of_legal {c : Config} (h : c.Legal) : legalise c = c := by
  have hPow : legalPow2 c.pow2 = c.pow2 := by
    funext x
    by_cases hx : pow2Domain x = true
    · by_cases hi : isIntegral x = true
      · simp [legalPow2, hx, hi, h.pow2_integral x hx hi]
      · simp only [Bool.not_eq_true] at hi
        simp [legalPow2, hx, hi, keep_eq (h.pow2_positive x hx hi)]
    · simp [legalPow2, hx]
  have hEnv : legalEffectEnv c.effectEnv = c.effectEnv := by
    funext a s d pu t
    by_cases hd : envDomain a s d pu t = true
    · by_cases ht : t.lt a = true
      · simp [legalEffectEnv, hd, ht, h.effectEnv_attack a s d pu t hd ht]
      · simp only [Bool.not_eq_true] at ht
        by_cases hw : (envEnd a s d).le t = true
        · simp [legalEffectEnv, hd, ht, hw, h.effectEnv_end a s d pu t hd ht hw]
        · simp only [Bool.not_eq_true] at hw
          simp [legalEffectEnv, hd, ht, hw, keep_eq (h.effectEnv_range a s d pu t hd ht hw)]
    · simp [legalEffectEnv, hd]
  have hRng : legalRngNext c.rngNext = c.rngNext := by
    funext s
    simp [legalRngNext, keep_eq (h.rngNext_range s)]
  have hRep : legalRepeatSeg c.repeatSeg = c.repeatSeg := by
    funext r
    by_cases hr : repeatDomain r = true
    · have := h.repeatSeg_low r hr
      simp [legalRepeatSeg, hr]; omega
    · simp [legalRepeatSeg, hr]
  have hCap : keep pcmCapOk 2 c.pcmCap = c.pcmCap :=
    keep_eq (by simp [pcmCapOk, h.pcmCap_even, h.pcmCap_low, h.pcmCap_high]) _
  have hSegs : max 1 c.noiseSegs = c.noiseSegs := by have := h.noiseSegs_low; omega
  have hLen : max 2 c.phaserLen = c.phaserLen := by have := h.phaserLen_low; omega
  unfold legalise
  rw [hPow, hEnv, hRng, hRep, hCap, hSegs, hLen, restrict_eq (fun x _ => h.sin_range x),
    zeroAtZero_eq h.decayShape_zero h.decayShape_zeros h.decayShape_range, restrict_eq h.envTime_range,
    restrict_eq h.freqMap_range, restrict_eq h.limitMap_range, restrict_eq h.frampMap_range,
    restrict_eq h.fdrampMap_range, restrict_eq h.arpFrac_range, restrict_eq h.lpfAlpha_range,
    zeroAtZero_eq h.resFb_zero h.resFb_zeros h.resFb_range, restrict_eq h.hpfAlpha_range, keep_eq h.phaScale_range,
    keep_eq h.phaWet_finite, keep_eq h.masterGain_range,
    restrict_eq (fun x hx => h.wrapNonFinite_range x (by simpa using hx))]

/-- The machine's configuration meets every constraint of table P. -/
theorem machine_legal : machine.Legal := legalise_legal raw

end Config
end Sys2Proof
end

