-- ==== Sys2Proof/Laws/PerInstr.lean ====
section
/-! SUPPORT. The family `Encoding`: every well-formed command's word matches the row of the opcode map that carries the
command's mnemonic (30_encoding.md R143), one lemma per command. -/

namespace Sys2Proof
namespace Laws

/-- The word of a well-formed command matches the opcode-map row with the command's mnemonic. -/
def Encoding.Statement (i : Instr) : Prop :=
  i.wellFormed = true → ∃ row ∈ opcodeMap, row.mnemonic = i.mnemonic ∧ row.matchesWord (encode i) = true

theorem Encoding.nop : Encoding.Statement .nop := by unfold Encoding.Statement; decide

theorem Encoding.tblPreset (sel : BitVec 2) : Encoding.Statement (.tblPreset sel) := by
  unfold Encoding.Statement; revert sel; decide

theorem Encoding.tblCommit : Encoding.Statement .tblCommit := by unfold Encoding.Statement; decide

theorem Encoding.stgClear : Encoding.Statement .stgClear := by unfold Encoding.Statement; decide

theorem Encoding.renderTone : Encoding.Statement .renderTone := by unfold Encoding.Statement; decide

theorem Encoding.renderEffect : Encoding.Statement .renderEffect := by unfold Encoding.Statement; decide

theorem Encoding.noteResolve : Encoding.Statement .noteResolve := by unfold Encoding.Statement; decide

theorem Encoding.lookup : Encoding.Statement .lookup := by unfold Encoding.Statement; decide

theorem Encoding.oscGen (sel : BitVec 2) : Encoding.Statement (.oscGen sel) := by
  unfold Encoding.Statement; revert sel; decide

theorem Encoding.envEval (sel : BitVec 2) : Encoding.Statement (.envEval sel) := by
  unfold Encoding.Statement; revert sel; decide

end Laws
end Sys2Proof
end

