-- ==== Sys2Proof/Laws/Range.lean ====
section
/-! SUPPORT. Ranges the binary64 operations keep: sums between representable bounds, products, quotients and
differences in [0, 1], and the tone envelope. -/

namespace Sys2Proof
namespace F64
open Config

/-- Rounding an integer number of units stays between representable bounds. -/
theorem roundUnits_between (zs : Bool) {z : Int} {lo hi : F64} (hlo : lo.isFinite = true) (hhi : hi.isFinite = true)
    (h1 : lo.units ≤ z) (h2 : z ≤ hi.units) :
    (roundUnits zs z).isFinite = true ∧ lo.units ≤ (roundUnits zs z).units ∧ (roundUnits zs z).units ≤ hi.units := by
  have h0 : (0 : Nat) < infMag := by decide
  rw [isFinite_iff] at hlo hhi
  have hI := infMag_lt
  rw [units_eq lo] at h1 ⊢
  rw [units_eq hi] at h2 ⊢
  unfold roundUnits
  split
  · subst z
    refine ⟨isFinite_ofSign zs h0, ?_⟩
    rw [units_ofSign zs (by norm_num)]
    cases zs <;> simp <;> exact ⟨h1, h2⟩
  · rename_i hz
    by_cases hneg : z < 0
    · have hl : lo.signBit = true := by
        by_contra hn
        simp only [hn, if_false] at h1
        omega
      simp only [hl, if_true] at h1 ⊢
      have hle : roundMag z.natAbs 1 ≤ lo.magBits := roundMag_le one_pos (by omega)
      have hv := val_strictMono.monotone hle
      have hge : hi.signBit = true → hi.magBits ≤ roundMag z.natAbs 1 := fun hs => by
        simp only [hs, if_true] at h2
        exact roundMag_ge one_pos (by omega) (le_of_lt hhi)
      simp only [hneg, decide_true]
      generalize roundMag z.natAbs 1 = m at *
      rw [units_ofSign true (by omega)]
      refine ⟨isFinite_ofSign _ (by omega), by simp only [if_true]; omega, ?_⟩
      cases hs : hi.signBit
      · simp only [if_true, Bool.false_eq_true, if_false]; omega
      · have := val_strictMono.monotone (hge hs)
        simp only [if_true]; omega
    · have hh : hi.signBit = false := by
        by_contra hn
        simp only [Bool.not_eq_false] at hn
        simp only [hn, if_true] at h2
        omega
      simp only [hh, Bool.false_eq_true, if_false] at h2 ⊢
      have hle : roundMag z.natAbs 1 ≤ hi.magBits := roundMag_le one_pos (by omega)
      have hv := val_strictMono.monotone hle
      have hge : lo.signBit = false → lo.magBits ≤ roundMag z.natAbs 1 := fun hs => by
        simp only [hs, Bool.false_eq_true, if_false] at h1
        exact roundMag_ge one_pos (by omega) (le_of_lt hlo)
      simp only [hneg, decide_false]
      generalize roundMag z.natAbs 1 = m at *
      rw [units_ofSign false (by omega)]
      refine ⟨isFinite_ofSign _ (by omega), ?_, by simp only [Bool.false_eq_true, if_false]; omega⟩
      cases hs : lo.signBit
      · have := val_strictMono.monotone (hge hs)
        simp only [Bool.false_eq_true, if_false]; omega
      · simp only [if_true, Bool.false_eq_true, if_false]; omega

/-- A magnitude is the absolute value. -/
theorem magUnits_natAbs (x : F64) : x.magUnits = x.units.natAbs := by
  rw [magUnits_eq, units_eq]; cases x.signBit <;> simp

/-- A rounded ratio of magnitudes, of either sign where it is 0. -/
theorem ofSign_roundMag_unit {b : Bool} {num den : Nat} (hd : 0 < den) (h : num ≤ unitsPerOne * den)
    (hb : b = true → num = 0) :
    (ofSign b (roundMag num den)).isFinite = true ∧ 0 ≤ (ofSign b (roundMag num den)).units ∧
      (ofSign b (roundMag num den)).units ≤ (unitsPerOne : Int) := by
  have h1 : F64.one.magBits < infMag := by decide
  have hone : val F64.one.magBits = unitsPerOne := by
    have := units_one; rw [units_eq] at this
    have hs : F64.one.signBit = false := by decide
    simp only [hs, Bool.false_eq_true, if_false] at this
    exact_mod_cast this
  have hle : roundMag num den ≤ F64.one.magBits := roundMag_le hd (by rw [hone]; exact h)
  have hv := val_strictMono.monotone hle
  rw [hone] at hv
  have hI := infMag_lt
  have h0 : b = true → roundMag num den = 0 := fun hb' => by
    have := roundMag_le (num := num) (c := 0) hd (by rw [hb hb']; simp)
    omega
  generalize roundMag num den = m at *
  generalize F64.one.magBits = c at *
  rw [units_ofSign b (by omega)]
  refine ⟨isFinite_ofSign _ (by omega), ?_⟩
  cases b
  · simp only [Bool.false_eq_true, if_false]; omega
  · rw [h0 rfl]
    simp only [if_true, val_zero]
    omega

/-- Products stay in [0, 1]. -/
theorem mul_unit {x y : F64} (hx : x.inUnit = true) (hy : y.inUnit = true) : (x.mul y).inUnit = true := by
  obtain ⟨fx, x0, x1⟩ := (inUnit_iff x).1 hx
  obtain ⟨fy, y0, y1⟩ := (inUnit_iff y).1 hy
  rw [inUnit_iff, mul_finite fx fy]
  have hu := unitsPerOne_pos
  generalize hU : unitsPerOne = U at *
  rw [← hU]; rw [← hU] at hu
  refine ofSign_roundMag_unit hu ?_ ?_
  · rw [magUnits_natAbs, magUnits_natAbs, hU]
    exact Nat.mul_le_mul (by omega) (by omega)
  · intro hb
    rw [magUnits_eq, magUnits_eq]
    rw [units_eq] at x0 y0
    cases hsx : x.signBit <;> cases hsy : y.signBit <;> simp [hsx, hsy] at hb x0 y0 ⊢
    · right; exact y0
    · left; exact x0

/-- The quotient by a value no smaller stays in [0, 1]. -/
theorem div_unit {x y : F64} (fx : x.isFinite = true) (fy : y.isFinite = true) (x0 : 0 ≤ x.units) (h : x.units ≤ y.units)
    (y0 : 0 < y.units) : (x.div y).inUnit = true := by
  have hm : y.magBits ≠ 0 := by
    intro e; rw [units_eq, e] at y0; simp at y0
  have hys : y.signBit = false := by
    by_contra hn
    simp only [Bool.not_eq_false] at hn
    rw [units_eq, hn] at y0; simp at y0; omega
  have hd : x.div y = ofSign (x.signBit != y.signBit) (roundMag (x.magUnits * unitsPerOne) y.magUnits) := by
    simp [div, not_isNaN_of_isFinite fx, not_isNaN_of_isFinite fy, not_isInf_of_isFinite fx, not_isInf_of_isFinite fy, hm]
  rw [inUnit_iff, hd]
  refine ofSign_roundMag_unit (by rw [magUnits_natAbs]; omega) ?_ ?_
  · rw [Nat.mul_comm]; exact Nat.mul_le_mul_left _ (by rw [magUnits_natAbs, magUnits_natAbs]; omega)
  · intro hb
    rw [hys] at hb
    rw [units_eq] at x0
    cases hsx : x.signBit
    · simp [hsx] at hb
    · simp [hsx] at x0; rw [magUnits_eq, x0]; simp

/-- `1.0 - x` stays in [0, 1]. -/
theorem one_sub_unit {x : F64} (hx : x.inUnit = true) : (F64.one.sub x).inUnit = true := by
  obtain ⟨fx, x0, x1⟩ := (inUnit_iff x).1 hx
  rw [inUnit_iff, sub_finite one_isFinite fx, ← units_one, ← units_zero]
  exact roundUnits_between _ zero_isFinite one_isFinite (by rw [units_zero, units_one]; omega) (by rw [units_one]; omega)

/-- A time before a boundary `b + d`, and past `b`, is no more than `d` past `b`. -/
theorem sub_of_lt_add {t b d : F64} (ft : t.isFinite = true) (fb : b.isFinite = true) (fd : d.isFinite = true)
    (b0 : 0 ≤ b.units) (d0 : 0 ≤ d.units) (h1 : t.lt b = false) (h2 : t.lt (b.add d) = true) :
    (t.sub b).isFinite = true ∧ 0 ≤ (t.sub b).units ∧ (t.sub b).units ≤ d.units ∧ 0 < d.units := by
  have hb : b.units ≤ t.units := by
    by_contra hn
    rw [(lt_iff ft fb).2 (by omega)] at h1; simp at h1
  have hlt : t.units < b.units + d.units := by
    by_contra hn
    rw [add_finite fb fd] at h2
    have g := roundUnits_between (b.signBit && d.signBit) (z := b.units + d.units) zero_isFinite ft
      (by rw [units_zero]; omega) (by omega)
    rw [lt_iff ft g.1] at h2
    omega
  have hz := units_zero
  rw [sub_finite ft fb]
  have := roundUnits_between (t.signBit && !b.signBit) (z := t.units - b.units) zero_isFinite fd (by omega) (by omega)
  exact ⟨this.1, by omega, this.2.2, by omega⟩

/-- The decay's value `1.0 + (l - 1.0) * u` for a level and a shape in [0, 1]. -/
theorem decay_unit {l u : F64} (hl : l.inUnit = true) (hu : u.inUnit = true) :
    (F64.one.add ((l.sub F64.one).mul u)).inUnit = true := by
  obtain ⟨fl, l0, l1⟩ := (inUnit_iff l).1 hl
  have hm1 : F64.minusOne.isFinite = true ∧ F64.minusOne.units = -(unitsPerOne : Int) := by decide +kernel
  have hz := units_zero
  have ho := units_one
  have hs := roundUnits_between (l.signBit && !F64.one.signBit) (z := l.units - F64.one.units) hm1.1 zero_isFinite (by omega) (by omega)
  rw [← sub_finite fl one_isFinite] at hs
  generalize l.sub F64.one = s at *
  have hn : (neg s).inUnit = true := by
    rw [inUnit_iff, isFinite_neg, units_neg]; exact ⟨hs.1, by omega, by omega⟩
  obtain ⟨fp, p0, p1⟩ := (inUnit_iff _).1 (mul_unit hn hu)
  obtain ⟨fu, -, -⟩ := (inUnit_iff u).1 hu
  have hp : (s.mul u).isFinite = true ∧ (s.mul u).units = -((neg s).mul u).units := by
    rw [mul_finite hs.1 fu]
    rw [mul_finite (by rw [isFinite_neg]; exact hs.1) fu] at fp ⊢
    have hmm : (neg s).magUnits = s.magUnits := by rw [magUnits_natAbs, magUnits_natAbs, units_neg, Int.natAbs_neg]
    rw [hmm, signBit_neg] at fp ⊢
    have hlt := roundMag_lt (s.magUnits * u.magUnits) unitsPerOne
    rw [isFinite_iff, magBits_ofSign _ hlt] at fp
    refine ⟨isFinite_ofSign _ fp, ?_⟩
    rw [units_ofSign _ hlt, units_ofSign _ hlt]
    cases s.signBit <;> cases u.signBit <;> simp
  rw [inUnit_iff, add_finite one_isFinite hp.1]
  have := roundUnits_between (F64.one.signBit && (s.mul u).signBit) (z := F64.one.units + (s.mul u).units) zero_isFinite one_isFinite (by omega) (by omega)
  exact ⟨this.1, by omega, by omega⟩

/-- A boundary a finite time is not before is finite itself. -/
theorem add_reached {t x y : F64} (ft : t.isFinite = true) (fx : x.isFinite = true) (fy : y.isFinite = true)
    (x0 : 0 ≤ x.units) (y0 : 0 ≤ y.units) (h : t.lt (x.add y) = false) :
    (x.add y).isFinite = true ∧ 0 ≤ (x.add y).units := by
  rw [add_finite fx fy] at h ⊢
  generalize hz : x.units + y.units = z at *
  have hI := infMag_lt
  have h0 : (0 : Nat) < infMag := by decide
  unfold roundUnits at h ⊢
  split at h
  · rename_i hz0
    rw [if_pos hz0]
    refine ⟨isFinite_ofSign _ h0, ?_⟩
    rw [units_ofSign _ (by norm_num)]
    split <;> simp
  · rename_i hz0
    rw [if_neg hz0]
    have hneg : decide (z < 0) = false := by simp; omega
    rw [hneg] at h ⊢
    have hle := roundMag_le_infMag z.natAbs 1
    generalize roundMag z.natAbs 1 = m at *
    have hm : m < infMag := by
      by_contra hn
      obtain rfl : m = infMag := by omega
      have hk : t.orderKey < (ofSign false infMag).orderKey := by
        have := (isFinite_iff t).1 ft
        unfold orderKey
        rw [signBit_ofSign false hI, magBits_ofSign false hI]
        simp only [Bool.false_eq_true, if_false]
        split <;> omega
      simp [lt, not_isNaN_of_isFinite ft, not_isNaN_ofSign false (le_refl infMag), hk] at h
    refine ⟨isFinite_ofSign _ hm, ?_⟩
    rw [units_ofSign _ (by omega)]
    simp

/-- A sum or difference that is exactly 0 has no magnitude. -/
theorem magUnits_roundUnits_zero (zs : Bool) : (roundUnits zs 0).magUnits = 0 := by
  cases zs <;> decide +kernel

theorem magUnits_eq_zero {x : F64} (h : x.units = 0) : x.magUnits = 0 := by rw [magUnits_natAbs, h]; rfl

theorem magBits_ne_zero {x : F64} (h : 0 < x.units) : x.magBits ≠ 0 := by
  intro e; rw [units_eq, e] at h; simp at h

/-- Zero by a positive value is one of the two zeros. -/
theorem zero_div {x y : F64} (fx : x.isFinite = true) (fy : y.isFinite = true) (hx : x.magUnits = 0) (hy : 0 < y.units) :
    (x.div y).eq F64.zero = true := by
  have h : x.div y = ofSign (x.signBit != y.signBit) 0 := by
    simp [div, not_isNaN_of_isFinite fx, not_isNaN_of_isFinite fy, not_isInf_of_isFinite fx, not_isInf_of_isFinite fy,
      magBits_ne_zero hy, hx, roundMag, infMag]
  rw [h]
  cases (x.signBit != y.signBit) <;> decide +kernel

/-- The decay starts at 1.0, whichever zero its shape starts at. -/
theorem decay_start {l u : F64} (hl : l.inUnit = true) (fu : u.isFinite = true) (hu : u.units = 0) :
    F64.one.add ((l.sub F64.one).mul u) = F64.one := by
  obtain ⟨fl, l0, l1⟩ := (inUnit_iff l).1 hl
  have hm1 : F64.minusOne.isFinite = true ∧ F64.minusOne.units = -(unitsPerOne : Int) := by decide +kernel
  have hz := units_zero
  have ho := units_one
  have hs := roundUnits_between (l.signBit && !F64.one.signBit) (z := l.units - F64.one.units) hm1.1 zero_isFinite
    (by omega) (by omega)
  rw [← sub_finite fl one_isFinite] at hs
  rw [mul_finite hs.1 fu, magUnits_eq_zero hu, Nat.mul_zero, show roundMag 0 unitsPerOne = 0 by simp [roundMag]]
  cases ((l.sub one).signBit != u.signBit) <;> decide +kernel

end F64

namespace Machine
open F64 Config

/-- With an attack, the tone envelope is 0.0 at t = 0 (41_envelope.md R243). -/
theorem toneEnv_start (cfg : Config) {p : Params} {t : F64} (ha : p.tAttack.isNonneg = true) (ht : t.isNonneg = true)
    (h : t.eq F64.zero = true) (hpos : F64.zero.lt p.tAttack = true) : (toneEnv cfg p t).eq F64.zero = true := by
  obtain ⟨fa, -⟩ := (isNonneg_iff _).1 ha
  obtain ⟨ft, -⟩ := (isNonneg_iff _).1 ht
  have hu := (eq_iff ft zero_isFinite).1 h
  have hp := (lt_iff zero_isFinite fa).1 hpos
  rw [units_zero] at hu hp
  unfold toneEnv
  simp only [(lt_iff ft fa).2 (by omega), if_true]
  exact zero_div ft fa (magUnits_eq_zero hu) hp

/-- Where the decay starts, at `t = B1`, the tone envelope is 1.0 (41_envelope.md R243). -/
theorem toneEnv_peak {cfg : Config} (hc : cfg.Legal) {p : Params} {t : F64} (ha : p.tAttack.isNonneg = true)
    (hd : p.tDecay.isNonneg = true) (hl : p.tSustainLevel.inUnit = true) (ht : t.isNonneg = true)
    (h : t.eq p.tAttack = true) (h2 : t.lt (p.tAttack.add p.tDecay) = true) : toneEnv cfg p t = F64.one := by
  obtain ⟨fa, a0⟩ := (isNonneg_iff _).1 ha
  obtain ⟨fd, d0⟩ := (isNonneg_iff _).1 hd
  obtain ⟨ft, -⟩ := (isNonneg_iff _).1 ht
  have hu := (eq_iff ft fa).1 h
  have h1 : t.lt p.tAttack = false := by
    by_contra hn
    have := (lt_iff ft fa).1 (by simpa using hn)
    omega
  obtain ⟨g1, g2, g3, g4⟩ := sub_of_lt_add ft fa fd a0 d0 h1 h2
  have hm : (t.sub p.tAttack).magUnits = 0 := by
    rw [sub_finite ft fa, hu, Int.sub_self]
    exact magUnits_roundUnits_zero _
  have hz := hc.decayShape_zeros _ (zero_div g1 fd hm g4)
  have hf := ((inUnit_iff _).1 (hc.decayShape_range _ (div_unit g1 fd g2 g3 g4))).1
  unfold toneEnv
  simp only [h1, h2, Bool.false_eq_true, if_false, if_true]
  exact decay_start hl hf (by rw [← units_zero]; exact (eq_iff hf zero_isFinite).1 hz)

/-- The tone envelope stays in [0, 1] (41_envelope.md R249). -/
theorem toneEnv_unit {cfg : Config} (hc : cfg.Legal) {p : Params} {t : F64} (ha : p.tAttack.isNonneg = true)
    (hd : p.tDecay.isNonneg = true) (hs : p.tSustain.isNonneg = true) (hr : p.tRelease.isNonneg = true)
    (hl : p.tSustainLevel.inUnit = true) (ht : t.isNonneg = true) : (toneEnv cfg p t).inUnit = true := by
  obtain ⟨fa, a0⟩ := (isNonneg_iff _).1 ha
  obtain ⟨fd, d0⟩ := (isNonneg_iff _).1 hd
  obtain ⟨fr, r0⟩ := (isNonneg_iff _).1 hr
  obtain ⟨fs, s0⟩ := (isNonneg_iff _).1 hs
  obtain ⟨ft, t0⟩ := (isNonneg_iff _).1 ht
  unfold toneEnv
  dsimp only
  split
  · rename_i h
    rw [lt_iff ft fa] at h
    exact div_unit ft fa t0 (by omega) (by omega)
  split
  · rename_i h1 h2
    obtain ⟨g1, g2, g3, g4⟩ := sub_of_lt_add ft fa fd a0 d0 (by simpa using h1) h2
    exact decay_unit hl (hc.decayShape_range _ (div_unit g1 fd g2 g3 g4))
  split
  · exact hl
  split
  · rename_i h1 h2 h3 h4
    obtain ⟨f2, u2⟩ := add_reached ft fa fd a0 d0 (by simpa using h2)
    obtain ⟨f3, u3⟩ := add_reached ft f2 fs u2 s0 (by simpa using h3)
    obtain ⟨g1, g2, g3, g4⟩ := sub_of_lt_add ft f3 fr u3 r0 (by simpa using h3) h4
    exact mul_unit hl (one_sub_unit (div_unit g1 fr g2 g3 g4))
  · exact zero_inUnit

end Machine
end Sys2Proof
end

