-- ==== Sys2Proof/Tests/Slice0.lean ====
section
/-! SUPPORT. Tests of single steps and of the small functions under them, with the expected results of the spec's own
vectors (95_test_vectors.md) or tables, and a witness for every statement that has hypotheses. -/

namespace Sys2Proof
namespace Tests

-- One test at a time: run side by side they would take more threads, and so more memory, than a check allows.
set_option Elab.async false
open Machine Claims

/-! ## Helpers -/

/-- The reference configuration, with a POW2 that is right at integers and a SIN that is 0 everywhere. -/
def cfg : Config := Config.reference (fun _ => F64.zero) (Config.legalPow2 (fun _ => F64.one))

/-- The reset state with one parameter register changed. -/
def withReg (r : PReg) (v : F64) (s : State) : State := { s with params := s.params.set r v }

/-- The reset state. -/
def r0 : State := State.reset

/-- The state in which a command has been accepted and completes with the next step. -/
def busyWith (w : Word) : State := State.reset.acceptWith w 0

/-- 1.5. -/
def oneHalf : F64 := ⟨0x3FF8000000000000#64⟩

/-- A quiet NaN. -/
def qNaN : F64 := ⟨0x7FF8000000000000#64⟩

/-- The largest finite value. -/
def maxFinite : F64 := ⟨0x7FEFFFFFFFFFFFFF#64⟩

/-! ## Well-formedness and decoding (30_encoding.md, 95_test_vectors.md section 3) -/

theorem test_wellFormed_envEval_sel2 : (Instr.envEval 2).wellFormed = false := by decide

theorem test_wellFormed_envEval_sel3 : (Instr.envEval 3).wellFormed = false := by decide

theorem test_wellFormed_envEval_sel1 : (Instr.envEval 1).wellFormed = true := by decide

/-- RSV 22 zeros, SEL 00, OP 0x00. -/
theorem test_decode_nop : decode 0b00000000000000000000000000000000#32 = .ok .nop := by decide

/-- `cmd tbl.preset triangle` is 0x00000301 (R148). -/
theorem test_decode_tblPreset : decode 0b00000000000000000000001100000001#32 = .ok (.tblPreset 3) := by decide

theorem test_decode_tblCommit : decode 0b00000000000000000000000000000010#32 = .ok .tblCommit := by decide

theorem test_decode_stgClear : decode 0b00000000000000000000000000000011#32 = .ok .stgClear := by decide

theorem test_decode_renderTone : decode 0b00000000000000000000000000010000#32 = .ok .renderTone := by decide

theorem test_decode_renderEffect : decode 0b00000000000000000000000000010001#32 = .ok .renderEffect := by decide

theorem test_decode_noteResolve : decode 0b00000000000000000000000000100000#32 = .ok .noteResolve := by decide

theorem test_decode_lookup : decode 0b00000000000000000000000000110000#32 = .ok .lookup := by decide

/-- `cmd osc.gen noise` is 0x00000331 (R148). -/
theorem test_decode_oscGen : decode 0b00000000000000000000001100110001#32 = .ok (.oscGen 3) := by decide

/-- `cmd env.eval effect` is 0x00000132 (R148). -/
theorem test_decode_envEval : decode 0b00000000000000000000000100110010#32 = .ok (.envEval 1) := by decide

/-- The illegal words of 95_test_vectors.md section 3, each with its reason. -/
theorem test_decode_illegal :
    decode 0x00000100#32 = .error .selNotZero ∧ decode 0x00000400#32 = .error .reservedBits ∧
    decode 0x00000004#32 = .error .unassignedOp ∧ decode 0x00000110#32 = .error .selNotZero ∧
    decode 0x00000232#32 = .error .envSelHigh ∧ decode 0x00000401#32 = .error .reservedBits ∧
    decode 0xFFFFFFFF#32 = .error .reservedBits := by decide

/-- The opcode map has no two rows that match one word (R144): two rows differ in a bit both masks keep. -/
theorem test_rows_disjoint :
    opcodeMap.Pairwise (fun x y => x.matchBits &&& y.mask ≠ y.matchBits &&& x.mask) := by decide

/-- A row's word reaches the decoder and the step alike. -/
theorem test_table_word : decodeTableWord 32 0x331 = some (.oscGen 3) ∧
    (State.reset.withFetchWord 32 0x331).ready? = some 0x331#32 := by decide

/-! ## Helper functions (95_test_vectors.md section 2) -/

/-- `wrap(-0.25) = 0.75`, and `wrap(-1e-20)` rounds to 1.0 and folds to 0.0. -/
theorem test_wrap :
    F64.wrap cfg ⟨0xBFD0000000000000#64⟩ = ⟨0x3FE8000000000000#64⟩ ∧
    F64.wrap cfg (F64.lit 1 100000000000000000000).neg = F64.zero := by decide +kernel

/-- `quant(32767.9) = 32767`, `quant(-0.5) = -1`, `quant(-32768.5) = -32768`, `quant(NaN) = 0`. -/
theorem test_quant :
    (F64.lit 327679 10).quantInt = 32767 ∧ (F64.lit 1 2).neg.quantInt = -1 ∧
    (F64.lit 327685 10).neg.quantInt = -32768 ∧ qNaN.quantInt = 0 := by decide +kernel

/-- `tconv(1.5) = 32767`, `tconv(-inf) = -32767`, `tconv(-0.5) = -16384`, `tconv(NaN) = 0`. -/
theorem test_tconv :
    oneHalf.tconvInt = 32767 ∧ (F64.inf true).tconvInt = -32767 ∧ (F64.lit 1 2).neg.tconvInt = -16384 ∧
    qNaN.tconvInt = 0 := by decide +kernel

/-- `(0.1 + 0.2) * 44100` is just above 13230 (90_conflicts.md C4). -/
theorem test_rounding : (((F64.lit 1 10).add (F64.lit 2 10)).mul F64.sampleRate).ceil = 13231 := by decide +kernel

/-- The reset memories are in canonical form, and a write of an unlisted value removes the entry. -/
theorem test_memory_canonical :
    Memory.wf State.reset.mem ∧ Memory.writeBlock [(0x800, 5#8), (0x803, 7#8)] 0x800 [0, 0] = [(0x803, 7#8)] := by
  decide

/-! ## Host accesses -/

/-- `wr 0x008, 0xE` with STATUS = 0x6E leaves 0x60 (95_test_vectors.md section 13). -/
theorem test_status_w1c :
    (State.hostEvent cfg { r0 with status := ⟨true, true, true, .shortWavetable, .none⟩ }
      (.write 0x008#22 0x0000000E#32)).statusWord = 0x00000060#32 := by decide +kernel

/-- A misaligned read answers PSLVERR (95_test_vectors.md section 13, `rd 0x002`). -/
theorem test_misaligned : (State.hostEvent cfg r0 (.read 0x002#22)).response = .readError := by decide

/-- `rd 0x04C` is 0x00100000 in the reference configuration. -/
theorem test_caps : (State.hostEvent cfg r0 (.read 0x04C#22)).response = .readOk 0x00100000#32 := by decide +kernel

/-- `BASE_FREQ` resets to 0.3, `0x3FD3333333333333` (program 7). -/
theorem test_param_read : (State.hostEvent cfg r0 (.read 0x104#22)).response = .readOk 0x3FD33333#32 := by decide +kernel

/-- `smp 0x8000` stages -32768 (program 2). -/
theorem test_smp_in :
    ((State.hostEvent cfg r0 (.write 0x024#22 0x00008000#32)).stgAt 0).toInt = -32768 ∧
    (State.hostEvent cfg r0 (.write 0x024#22 0x00008000#32)).stgCount = 1 := by decide +kernel

/-! ## Commands, one step each -/

/-- NOP from STATUS 0x0E completes with 0x0A (95_test_vectors.md section 13). -/
theorem test_nop :
    (completeIn cfg ({ r0 with status := ⟨true, true, true, .none, .none⟩ }.acceptWith 0 0) .nop).statusWord =
      0x0000000A#32 := by decide

/-- The saw preset: `TBL[0] = -32767`, `TBL[511] = -33`, `TBL[512] = 32`, `TBL[1023] = 32767` (R208). -/
theorem test_tblPreset_saw :
    ([0, 511, 512, 1023].map fun i => (presetAt cfg F64.half (tablePoint i) (.ofBits 2)).tconvInt) =
      [-32767, -33, 32, 32767] := by decide +kernel

/-- The square preset with `TBL_DUTY = 1.5` fails with ERR_ADDR = 0x230 (R207). -/
theorem test_tblPreset_duty :
    (completeIn cfg (withReg .tblDuty oneHalf r0) (.tblPreset 1)).errAddr = 0x230#32 := by decide +kernel

/-- TBL_COMMIT of nothing: STATUS 0x26 (program 2). -/
theorem test_tblCommit_empty : (completeIn cfg r0 .tblCommit).statusWord = 0x00000026#32 := by decide +kernel

/-- TBL_COMMIT of three values under REJECT: STATUS 0x66 (program 2). -/
theorem test_tblCommit_short :
    (completeIn cfg { r0 with stgCount := 3 } .tblCommit).statusWord = 0x00000066#32 := by decide +kernel

/-- STG_CLEAR discards the count (R215, its example). -/
theorem test_stgClear : (completeIn cfg { r0 with stgCount := 7 } .stgClear).stgCount = 0 := by decide

/-- A flat table of 32767 at pitch 0 and level 1.0: every sample is 32767 (vector T8, with `T_SUSTAIN = 0.0001`). -/
theorem test_renderTone_zero_pitch :
    (let s := { withReg .pitchHz F64.zero (withReg .tSustain (.lit 1 10000) (withReg .tSustainLevel F64.one r0)) with
        mem := [(0x800, 0xFF#8), (0x801, 0x7F#8), (0x802, 0xFF#8), (0x803, 0x7F#8)] }
     let t := completeIn cfg s .renderTone
     (t.len, t.statusWord, (List.range 5).map t.pcm) = (5#32, 0x00000102#32, List.replicate 5 0x7FFF#16)) := by
  decide +kernel

/-- A pitch of -1.0 fails with ERR_ADDR = 0x200, STATUS 0x36 (vector T7). -/
theorem test_renderTone_bad_pitch :
    (let t := completeIn cfg (withReg .pitchHz F64.minusOne r0) .renderTone
     (t.errAddr, t.statusWord) = (0x200#32, 0x00000036#32)) := by decide +kernel

/-- The saw of vector E1. -/
theorem test_renderEffect_saw :
    (let s := withReg .baseFreq F64.half (withReg .envSustain (.lit 1 10000) (withReg .envDecay F64.zero
        { r0 with waveType := 1 }))
     let t := completeIn cfg s .renderEffect
     (t.len, t.duration, (List.range 5).map fun n => (t.pcm n).toInt) =
       (5#32, (⟨0x3F1DB8B6F9266DD5#64⟩ : F64), [-15726, -15068, -14410, -13752, -13094])) := by decide +kernel

/-- The noise of vector E3. -/
theorem test_renderEffect_noise :
    (let s := withReg .baseFreq F64.half (withReg .envSustain (.lit 2 10000) (withReg .envDecay F64.zero
        { r0 with waveType := 3 }))
     let t := completeIn cfg s .renderEffect
     (t.rng, (List.range 9).map fun n => (t.pcm n).toInt) =
       (0x8F947F36D0D0F606#64, [-13821, -13052, -13052, 3451, -3237, -3237, -3814, 1994, 1994])) := by decide +kernel

/-- `0x41003441` reads as `A4`, 440.0 (95_test_vectors.md section 13). -/
theorem test_noteResolve_a4 :
    (let t := completeIn cfg { r0 with note := 0x41003441#32 } .noteResolve
     (t.result, t.statusWord) = ((⟨0x407B800000000000#64⟩ : F64), 0x00000002#32)) := by decide +kernel

/-- `H4` fails: STATUS 0x16 (95_test_vectors.md section 13). -/
theorem test_noteResolve_h4 :
    (completeIn cfg { r0 with note := 0x00003448#32 } .noteResolve).statusWord = 0x00000016#32 := by decide +kernel

/-- Between `TBL[511] = 100` and `TBL[512] = -101`, phase 0.5 reads -0.5 (R218, its example). -/
theorem test_lookup :
    (completeIn cfg { withReg .uPhase F64.half r0 with mem := [(0xBFE, 100#8), (0xC00, 0x9B#8), (0xC01, 0xFF#8)] }
      .lookup).result = ⟨0xBFE0000000000000#64⟩ := by decide +kernel

/-- A NaN phase fails with ERR_ADDR = 0x238 (R218). -/
theorem test_lookup_nan : (completeIn cfg (withReg .uPhase qNaN r0) .lookup).errAddr = 0x238#32 := by decide +kernel

/-- One noise draw from `0x0123456789ABCDEF` (program 6). -/
theorem test_oscGen_noise :
    (let t := completeIn cfg { r0 with rng := 0x0123456789ABCDEF#64 } (.oscGen 3)
     (t.result, t.rng) = ((⟨0xBFE4C734B7328830#64⟩ : F64), 0x2CE32D2335DF4552#64)) := by decide +kernel

/-- The square at phase 0.5 and duty 0.5 is low: `phase < duty` is strict (42_oscillator.md R272). -/
theorem test_oscGen_square : (completeIn cfg (withReg .uPhase F64.half r0) (.oscGen 0)).result = F64.minusOne := by
  decide +kernel

/-- The tone envelope at 0.5 s holds 0.7 (95_test_vectors.md S3). -/
theorem test_envEval_tone :
    (completeIn cfg (withReg .tAttack (.lit 1 10) (withReg .tDecay (.lit 1 10) (withReg .tSustain (.lit 3 4)
      (withReg .uTime F64.half r0)))) (.envEval 0)).result = ⟨0x3FE6666666666666#64⟩ := by decide +kernel

/-- The effect envelope halfway through its attack is 0.5 (41_envelope.md R252). -/
theorem test_envEval_effect :
    (completeIn cfg (withReg .envAttack (.lit 1 10) (withReg .uTime (.lit 5 100) r0)) (.envEval 1)).result =
      F64.half := by decide +kernel

/-- At `t = B1 = -0.0` the tone envelope is 1.0 (R243), whatever DECAY_SHAPE is elsewhere. -/
theorem test_envEval_negativeZero :
    (completeIn (Config.legalise { cfg with decayShape := fun _ => F64.half })
      (withReg .tDecay F64.one (withReg .uTime F64.zero.neg r0)) (.envEval 0)).result = F64.one := by decide +kernel

/-- The first noise sample of a render draws (R276), for a NOISE_SEGS that overflows binary64 too. -/
theorem test_noise_firstDraws :
    ((NoiseHold.start 0x0123456789ABCDEF#64).next { cfg with noiseSegs := 2 ^ 1030 } F64.zero).rng =
      (Config.refRngNext 0x0123456789ABCDEF#64).2 := by decide +kernel

/-- An illegal word completes with STATUS 0x46 (95_test_vectors.md section 3). -/
theorem test_illegal_command :
    (match step (busyWith 0x00000232#32) with
     | .next t => t.statusWord
     | _ => 0) = 0x00000046#32 := by decide +kernel

/-! ## Witnesses: states and operands that meet the hypotheses of each statement, clause by clause -/

/-- The reference configuration kept to table P. -/
def legalCfg : Config := Config.legalise cfg

/-- A configuration whose every envelope duration is the largest finite value. -/
def longCfg : Config := { cfg with envTime := fun _ => maxFinite }

/-- A command has been accepted and two host events are to come, the second a reset. -/
def waiting : State := { State.reset.acceptWith 0#32 1 with inputs := [.read 0x008#22, .presetn] }

/-- An idle state in canonical form other than the reset state. -/
def named : State := { State.reset with note := 0x3441#32 }

/-- A completed render at its frequency limit, with OVR set. -/
def limited : State := { State.reset with status := ⟨true, false, true, .none, .limit⟩ }

/-- A completed command with an error. -/
def erred : State := { State.reset with status := ⟨true, true, false, .shortWavetable, .none⟩ }

theorem cap_low : 2 ≤ Config.machine.pcmCap := Config.machine_legal.pcmCap_low

theorem cap_high : Config.machine.pcmCap ≤ 0x180000 := Config.machine_legal.pcmCap_high

theorem witness_DecodeInvertsEncode : (Instr.envEval 1).wellFormed = true ∧ (Instr.oscGen 3).wellFormed = true := by
  decide

theorem witness_DecodeOnlyEncodings : decode 0x00000132#32 = .ok (.envEval 1) := by decide

theorem witness_OpcodeMapDecidesLegality :
    decode 0x00000331#32 = .ok (.oscGen 3) ∧ ("OSC_GEN", 0x00000031#32, 0xFFFFFCFF#32) ∈ opcodeRows ∧
    matchesRow 0x00000331#32 ("OSC_GEN", 0x00000031#32, 0xFFFFFCFF#32) := by decide

theorem witness_IllegalWordCompletes :
    (busyWith 0x00000232#32).seq = .busy 0x00000232#32 State.reset.snapshot 0 ∧
    ∀ row ∈ opcodeRows, ¬ matchesRow 0x00000232#32 row := ⟨rfl, by decide⟩

theorem witness_StepRunsDecodedInstruction :
    (busyWith 0x00000301#32).seq = .busy 0x00000301#32 State.reset.snapshot 0 ∧
    decode 0x00000301#32 = .ok (.tblPreset 3) := ⟨rfl, by decide⟩

theorem witness_StepTakesHostEvent :
    ({ State.reset with inputs := [.presetn] } : State).seq = .idle ∧
    waiting.seq = .busy 0#32 State.reset.snapshot (0 + 1) ∧
    waiting.inputs = .read 0x008#22 :: [.presetn] ∧
    (State.reset.acceptWith 0#32 1).seq = .busy 0#32 State.reset.snapshot (0 + 1) ∧
    (State.reset.acceptWith 0#32 1).inputs = [] := ⟨rfl, rfl, rfl, rfl, rfl⟩

theorem named_inv : Machine.Inv named where
  memWf := by decide
  memRange := by intro c h; cases h
  lenLe := Nat.zero_le _
  duration := by decide +kernel
  busyClear := by intro h; exact absurd h (by decide)
  busySnap := by intro w o n h; exact absurd h (by simp [named, State.reset])
  errCode := by intro h; exact absurd h (by decide)
  endReason := by intro h; exact absurd rfl h
  errAddr := by intro; rfl

theorem witness_StepKeepsInvariant : Machine.Inv named ∧ step named = .next named := ⟨named_inv, rfl⟩

theorem witness_AcceptedCommandCompletes :
    waiting.seq = .busy 0#32 State.reset.snapshot 1 ∧ ∀ e ∈ waiting.inputs.take 1, e.resets = false := by
  refine ⟨rfl, fun e h => ?_⟩
  simp only [waiting, List.take_succ_cons, List.take_zero, List.mem_singleton] at h
  subst h; rfl

theorem witness_IdleBlockWakesOnlyByCommand :
    named.seq = .idle ∧ named.inputs = [] ∧ (after named (.write (at22 0x04) 0x11#32)).busy = true := ⟨rfl, rfl, rfl⟩

theorem witness_BothResetsReachResetState :
    (0xFFFFFFFF#32).getLsbD 0 = true ∧ (0xFFFFFFFE#32).getLsbD 0 = false := by decide

theorem witness_ResetParametersInDomain : (Instr.tblPreset 1).wellFormed = true ∧
    ∃ t, exec (.tblPreset 1) State.reset = .next t := ⟨by decide, _, rfl⟩

theorem witness_MisalignedAccess :
    (0x3FFFFF#22).toNat % 4 ≠ 0 ∧ (0x000001#22).toNat % 4 ≠ 0 ∧ (0x3FFFFC#22).toNat % 4 = 0 := by decide

theorem witness_ReadsHaveNoSideEffect : named.busy = false := rfl

/-- Both ends of each reserved range, of each read-only range and of the list of write-only registers. The last
reserved range is empty when PCM_CAP is as large as it may be. -/
theorem witness_ReservedAndReadOnlyAccess :
    (∀ a ∈ [0x50, 0xFC, 0x1B4, 0x1FC, 0x250, 0x7FC, 0x1000, 0xFFFFC], a % 4 = 0 ∧ reservedOffset a) ∧
    (Config.machine.pcmCap < 0x180000 → reservedOffset 0x3FFFFC) ∧
    (∀ a ∈ [0x00, 0x4C, 0x800, 0xFFC, 0x100000], a % 4 = 0 ∧ readOnlyOffset a) ∧
    (∀ a ∈ [0x04, 0x14, 0x24, 0x28, 0x2C], a % 4 = 0) ∧ limited.busy = false := by
  have := cap_low
  refine ⟨?_, ?_, ?_, by decide, rfl⟩
  · intro a h
    simp only [List.mem_cons, List.not_mem_nil, or_false] at h
    refine ⟨?_, ?_⟩ <;> unfold reservedOffset at * <;> omega
  · intro h
    have := Config.machine_legal.pcmCap_even
    exact .inr (.inr (.inr (.inr ⟨by omega, by decide⟩)))
  · intro a h
    simp only [List.mem_cons, List.not_mem_nil, or_false] at h
    unfold readOnlyOffset
    simp only [List.mem_cons, List.not_mem_nil, or_false]
    omega

theorem witness_ParameterWordsIndependent : named.busy = false ∧
    (⟨.uDuty, 0x248, some F64.zero, some F64.one, .lit 5 10⟩ : RegRow) ∈ regTable := by
  refine ⟨rfl, ?_⟩
  simp only [regTable, toneRows, List.mem_append, List.mem_cons, unipolar, true_or, or_true]

theorem witness_OtherRegisterWrites : named.busy = false := rfl

theorem witness_BusyDropsWrites : (busyWith 0x00000020#32).busy = true := rfl

theorem witness_NoHostAccessChangesAcceptedCommand : (busyWith 0x00000020#32).busy = true ∧
    HostEvent.resets (.write 0x014#22 0xFFFFFFFE#32) = false ∧
    HostEvent.resets (.write 0x200#22 0xFFFFFFFF#32) = false := by decide

theorem witness_BusyReadsOfUnwrittenRegisters : (busyWith 0x00000020#32).busy = true := rfl

theorem witness_TableAndPcmWindows : named.busy = false ∧ 511 < 512 ∧ 0 < Config.machine.pcmCap / 2 := by
  have := cap_low
  exact ⟨rfl, by decide, by omega⟩

theorem witness_StatusWord : limited.busy = false ∧ limited.status.endReason = .limit ∧
    erred.busy = false ∧ erred.status.errCode = .shortWavetable := by decide

theorem witness_CmdWriteAccepts : limited.busy = false := rfl

/-- DONE, ERR and OVR each cleared by a write of 1; DONE and ERR also by the accept of a command. -/
theorem witness_StatusBitsClearedOnlyBy :
    limited.status.done = true ∧ (after limited (.write (at22 0x08) 0x2#32)).status.done = false ∧
    (after limited (.write (at22 0x04) 0#32)).status.done = false ∧
    erred.status.err = true ∧ (after erred (.write (at22 0x08) 0x4#32)).status.err = false ∧
    limited.status.ovr = true ∧ (after limited (.write (at22 0x08) 0x8#32)).status.ovr = false ∧
    HostEvent.resets (.write (at22 0x08) 0x8#32) = false ∧ HostEvent.resets (.write (at22 0x04) 0#32) = false ∧
    ∃ t, exec .renderTone limited = .next t := ⟨rfl, rfl, rfl, rfl, rfl, rfl, rfl, rfl, rfl, _, rfl⟩

/-- An empty staging buffer, its last place, a full one and a saturated count; and a BUSY block. -/
theorem witness_SmpInAppends :
    (∀ n ∈ [0#32, 1023#32, 1024#32, 0xFFFFFFFF#32], ({ State.reset with stgCount := n } : State).busy = false) ∧
    (busyWith 0x00000020#32).busy = true := ⟨fun _ _ => rfl, rfl⟩

theorem witness_FnInAppends :
    ({ State.reset with stgCount := 1023#32 } : State).busy = false ∧
    (⟨0x7FF80000#32 ++ 0#32⟩ : F64).isNaN = true ∧ (⟨0x7FF00000#32 ++ 0#32⟩ : F64) = F64.inf false ∧
    (⟨0xFFF00000#32 ++ 0#32⟩ : F64) = F64.inf true := ⟨rfl, by decide +kernel⟩

theorem witness_HostNeverWritesSampleMemories :
    HostEvent.resets (.write 0x100000#22 0xFFFFFFFF#32) = false ∧ HostEvent.resets (.read 0x800#22) = false := by
  decide

theorem witness_NopCompletes : named.status.ovr = false := rfl

theorem witness_TblCommitFullOrEmpty :
    State.reset.operands.stgCount = 0 ∧
    1024 ≤ ({ State.reset with stgCount := 1024 } : State).operands.stgCount.toNat ∧
    1024 ≤ ({ State.reset with stgCount := 0xFFFFFFFF#32 } : State).operands.stgCount.toNat := by decide

theorem witness_TblCommitShort :
    (∀ n ∈ [1#32, 2#32, 1023#32], 1 ≤ ({ State.reset with stgCount := n } : State).operands.stgCount.toNat ∧
      ({ State.reset with stgCount := n } : State).operands.stgCount.toNat < 1024) ∧
    cfg.shortPolicy = .reject ∧ ({ cfg with shortPolicy := .zeroPad } : Config).shortPolicy ≠ .reject ∧
    ({ cfg with shortPolicy := .repeatSeq } : Config).shortPolicy ≠ .reject ∧
    ({ cfg with shortPolicy := .resample } : Config).shortPolicy ≠ .reject := by
  refine ⟨?_, rfl, ?_, ?_, ?_⟩
  · intro n h
    simp only [List.mem_cons, List.not_mem_nil, or_false] at h
    rcases h with rfl | rfl | rfl <;> decide
  all_goals intro h; cases h

theorem witness_TblPresetBuilds :
    operandsOk (.tblPreset 1) State.reset ∧ operandsOk (.tblPreset 1) (withReg .tblDuty F64.one r0) ∧
    operandsOk (.tblPreset 0) (withReg .tblDuty oneHalf r0) ∧
    ¬ operandsOk (.tblPreset 1) (withReg .tblDuty oneHalf r0) := by decide +kernel

theorem witness_SampleConversions : maxFinite.isFinite = true ∧ F64.zero.isFinite = true := by decide

theorem witness_LookupInterpolates :
    State.reset.operands.params.uPhase.isFinite = true ∧
    (withReg .uPhase maxFinite r0).operands.params.uPhase.isFinite = true ∧
    (withReg .uPhase qNaN r0).operands.params.uPhase.isFinite = false := by decide

theorem witness_LookupOfZeroTable :
    (∀ k < 1024, State.reset.tbl k = 0) ∧ State.reset.operands.params.uPhase.isFinite = true := by
  have h : ∀ a, tblBase ≤ a → a < tblBase + 2048 → State.reset.byteAt a = 0 := by
    intro a h h'
    show ((none : Option Byte).or (Memory.unlisted a)).getD _ = 0
    rw [Memory.unlisted, if_pos ⟨h, h'⟩]
    rfl
  refine ⟨fun k hk => ?_, by decide⟩
  rw [State.tbl, State.sampleAt, h _ (by omega) (by omega), h _ (by omega) (by omega)]
  rfl

theorem witness_WrapIsPhase : (F64.one).isFinite = true ∧ maxFinite.isFinite = true := by decide

theorem witness_OscGenValue : ∀ sel : BitVec 2, operandsOk (.oscGen sel) (withReg .uPhase maxFinite r0) := by
  decide +kernel

theorem witness_EnvEvalTone :
    operandsOk (.envEval 0) (withReg .tAttack maxFinite (withReg .uTime maxFinite r0)) ∧
    operandsOk (.envEval 0) (withReg .tAttack ⟨0x8000000000000000#64⟩ r0) := by decide +kernel

/-- A time in each phase of a tone: attack, decay, hold, release, silence. -/
theorem witness_ToneEnvelopeRange :
    (F64.zero.eq F64.zero = true ∧ F64.zero.lt F64.one = true) ∧
    (F64.one.eq F64.one = true ∧ F64.one.lt (F64.one.add F64.one) = true) ∧
    (let s := withReg .tDecay F64.one (withReg .uTime F64.zero.neg r0)
     operandsOk (.envEval 0) s ∧ s.operands.params.uTime.eq s.operands.params.tAttack = true ∧
       s.operands.params.uTime.lt (s.operands.params.tAttack.add s.operands.params.tDecay) = true) ∧
    ∀ t ∈ [F64.zero, F64.one, F64.lit 2 1, F64.lit 3 1, F64.lit 4 1], operandsOk (.envEval 0)
      (withReg .tAttack F64.one (withReg .tDecay F64.one (withReg .tSustain F64.one (withReg .tRelease F64.one
        (withReg .uTime t r0))))) := by
  refine ⟨by decide +kernel, by decide +kernel, by decide +kernel, fun t h => ?_⟩
  simp only [List.mem_cons, List.not_mem_nil, or_false] at h
  rcases h with rfl | rfl | rfl | rfl | rfl <;> decide +kernel

/-- The effect envelope before its attack's end, at its very end, and between. -/
theorem witness_EnvEvalEffect :
    Config.Legal legalCfg ∧
    (let s := withReg .envAttack (.lit 1 10) r0
     operandsOk (.envEval 1) s ∧ s.operands.params.uTime.lt (legalCfg.envTime s.operands.params.envAttack) = true) ∧
    (let s := withReg .envDecay F64.zero (withReg .uTime (.lit 3 10) r0)
     operandsOk (.envEval 1) s ∧ s.operands.params.uTime.lt (legalCfg.envTime s.operands.params.envAttack) = false ∧
       (effectSpan legalCfg s.operands.params).le s.operands.params.uTime = true) ∧
    (operandsOk (.envEval 1) r0 ∧ r0.operands.params.uTime.lt (legalCfg.envTime r0.operands.params.envAttack) = false ∧
       (effectSpan legalCfg r0.operands.params).le r0.operands.params.uTime = false) :=
  ⟨Config.legalise_legal cfg, by decide +kernel⟩

theorem witness_ToneEnvelopeOfZeroDurations : operandsOk (.envEval 0) State.reset ∧
    ∀ r ∈ [PReg.tAttack, .tDecay, .tSustain, .tRelease], (State.reset.operands.params.get r).eq F64.zero = true := by
  decide +kernel

/-- `A4`, `B#8` and `Cb0` are names, the empty string is none. -/
theorem witness_NoteResolveValue :
    spells 0x00003441#32 0 ∧ spells 0x00382342#32 51 ∧ spells 0x00306243#32 (-58) ∧ ¬ ∃ k, spells 0#32 k := by
  refine ⟨⟨(0x41, 0), by decide, 4, by decide, by decide, .inl (by decide)⟩,
    ⟨(0x42, 2), by decide, 8, by decide, by decide, .inr ⟨(0x23, 1), by decide, by decide⟩⟩,
    ⟨(0x43, -9), by decide, 0, by decide, by decide, .inr ⟨(0x62, -1), by decide, by decide⟩⟩, ?_⟩
  rintro ⟨k, l, hl, o, -, h, -⟩
  have : ∀ l ∈ noteLetters, (0#32).extractLsb' 0 8 ≠ l.1 := by decide
  exact this l hl h

theorem witness_ConcertPitchExact : (0x00003041#32, F64.lit 275 10) ∈
      [(0x00003441#32, F64.lit 440 1), (0x00003041#32, .lit 275 10), (0x00003841#32, .lit 7040 1)] ∧
    ({ State.reset with note := 0x00003041#32 } : State).operands.note = 0x00003041#32 :=
  ⟨List.mem_cons_of_mem _ (List.mem_cons_self ..), rfl⟩

/-- A tone of no sample and a tone of two, which every PCM RAM holds. -/
theorem witness_RenderToneSamples :
    ∀ s ∈ [r0, withReg .tSustain ((F64.lit 2 1).div rate) r0], operandsOk .renderTone s ∧
      ((toneSpan s.operands.params).mul rate).isFinite = true ∧
      ((toneSpan s.operands.params).mul rate).ceil.toNat ≤ Config.machine.pcmCap := by
  have h : ∀ s ∈ [r0, withReg .tSustain ((F64.lit 2 1).div rate) r0], operandsOk .renderTone s ∧
      ((toneSpan s.operands.params).mul rate).isFinite = true ∧
      ((toneSpan s.operands.params).mul rate).ceil.toNat ≤ 2 := by decide +kernel
  exact fun s hs => ⟨(h s hs).1, (h s hs).2.1, le_trans (h s hs).2.2 cap_low⟩

/-- A tone longer than any PCM RAM, one whose length is not finite, and the same of an effect. -/
theorem witness_RenderCapacity :
    (let s := withReg .tSustain (.lit 100 1) r0
     operandsOk .renderTone s ∧ ((toneSpan s.operands.params).mul rate).isFinite = true ∧
       Config.machine.pcmCap < ((toneSpan s.operands.params).mul rate).ceil.toNat) ∧
    (let s := withReg .tSustain maxFinite r0
     operandsOk .renderTone s ∧ ((toneSpan s.operands.params).mul rate).isFinite = false) ∧
    (let c := { cfg with pcmCap := 30868 }
     operandsOk .renderEffect r0 ∧ ((effectSpan c r0.operands.params).mul rate).isFinite = true ∧
       c.pcmCap < ((effectSpan c r0.operands.params).mul rate).ceil.toNat) ∧
    ((effectSpan longCfg r0.operands.params).mul rate).isFinite = false := by
  have h : (let s := withReg .tSustain (.lit 100 1) r0
     operandsOk .renderTone s ∧ ((toneSpan s.operands.params).mul rate).isFinite = true ∧
       0x180000 < ((toneSpan s.operands.params).mul rate).ceil.toNat) := by decide +kernel
  exact ⟨⟨h.1, h.2.1, lt_of_le_of_lt cap_high h.2.2⟩, by decide +kernel, by decide +kernel, by decide +kernel⟩

/-- An effect of 30870 samples, vector E2, and one of none. -/
theorem witness_RenderEffectFollowsLoop :
    ∀ s ∈ [r0, withReg .envSustain F64.zero (withReg .envDecay F64.zero r0)], operandsOk .renderEffect s ∧
      ((effectSpan cfg s.operands.params).mul rate).isFinite = true ∧
      ((effectSpan cfg s.operands.params).mul rate).ceil.toNat ≤ cfg.pcmCap ∧ 2 ≤ cfg.phaserLen := by
  decide +kernel

/-- Vectors E7 and E6. -/
theorem witness_EffectEndsAtOnce :
    (let s := withReg .freqLimit F64.half (withReg .envSustain F64.zero (withReg .envDecay F64.zero r0))
     operandsOk .renderEffect s ∧ ((effectSpan cfg s.operands.params).mul rate).isFinite = true ∧
       ((effectSpan cfg s.operands.params).mul rate).ceil.toNat = 0) ∧
    (let s := withReg .freqLimit F64.half r0
     operandsOk .renderEffect s ∧ ((effectSpan cfg s.operands.params).mul rate).isFinite = true ∧
       0 < ((effectSpan cfg s.operands.params).mul rate).ceil.toNat ∧
       ((effectSpan cfg s.operands.params).mul rate).ceil.toNat ≤ cfg.pcmCap ∧
       (cfg.freqMap s.operands.params.baseFreq).lt (cfg.limitMap s.operands.params.freqLimit) = true) := by
  decide +kernel

theorem cfg_ne_machine (c : Config) (h : Config.machine.pcmCap < c.pcmCap) : c ≠ Config.machine := by
  rintro rfl; exact lt_irrefl _ h

/-- Two blocks with other notes and the same effect operands both render, with success, under a configuration that is
not the machine's. -/
theorem witness_EffectReadsOnlyItsOperands :
    let c := { cfg with pcmCap := 0x200000 }
    let s := withReg .envSustain F64.zero (withReg .envDecay F64.zero r0)
    let s' := { s with note := 0x3441#32 }
    (∀ row ∈ effectRows, s.operands.params.get row.reg = s'.operands.params.get row.reg) ∧
    s.operands.waveType = s'.operands.waveType ∧ s.operands.rng = s'.operands.rng ∧
    runs c .renderEffect s (completeIn c s .renderEffect) ∧
    runs c .renderEffect s' (completeIn c s' .renderEffect) ∧
    (completeIn c s .renderEffect).status.err = false := by
  have h : ({ cfg with pcmCap := 0x200000 } : Config) ≠ Config.machine :=
    cfg_ne_machine _ (lt_of_le_of_lt cap_high (by decide))
  exact ⟨fun _ _ => rfl, rfl, rfl, ⟨rfl, fun e => absurd e h⟩, ⟨rfl, fun e => absurd e h⟩, by decide +kernel⟩

theorem witness_ToneReadsOnlyItsOperands :
    (∀ r ∈ [PReg.pitchHz, .tAttack, .tDecay, .tSustain, .tRelease, .tSustainLevel],
      State.reset.operands.params.get r = named.operands.params.get r) ∧
    (∀ k < 1024, State.reset.tbl k = named.tbl k) ∧
    (∃ t, exec .renderTone State.reset = .next t) ∧ ∃ t, exec .renderTone named = .next t :=
  ⟨fun _ _ => rfl, fun _ _ => rfl, ⟨_, rfl⟩, ⟨_, rfl⟩⟩

/-- A command that fails and a command that succeeds. -/
theorem witness_FailureChangesOnlyStatus :
    (∃ t, exec .noteResolve State.reset = .next t ∧ t.status.err = true ∧ t.status.errCode ≠ .invalidParameter) ∧
    (∃ t, exec .lookup (withReg .uPhase qNaN r0) = .next t ∧ t.status.err = true ∧
      t.status.errCode = .invalidParameter) ∧
    (∃ t, exec .nop State.reset = .next t ∧ t.status.err = false) := by
  refine ⟨⟨_, rfl, rfl, by decide⟩, ⟨_, rfl, ?_⟩, _, rfl, rfl⟩
  have h : (withReg .uPhase qNaN r0).operands.firstBad [.uPhase] = some .uPhase := by decide +kernel
  show (lookupStep Config.machine _).status.err = true ∧ (lookupStep Config.machine _).status.errCode = _
  unfold lookupStep
  rw [State.checked_of_bad h]
  exact ⟨rfl, rfl⟩

/-- BASE_FREQ and DUTY both out of domain: 0x100 is the lowest (vector E9); DUTY alone: 0x120 (vector S9). -/
theorem witness_DomainCheckReportsLowest :
    (Instr.renderEffect).wellFormed = true ∧
    (let s := withReg .baseFreq qNaN (withReg .duty oneHalf r0)
     rowOk s (unipolar .baseFreq 0x100 (.lit 3 10)) = false ∧
     ∀ row ∈ regTable, row.offset ∈ checkedOffsets .renderEffect → row.offset < 0x100 → rowOk s row = true) ∧
    (let s := withReg .duty oneHalf r0
     rowOk s (unipolar .duty 0x120 (.lit 5 10)) = false ∧
     ∀ row ∈ regTable, row.offset ∈ checkedOffsets .renderEffect → row.offset < 0x120 → rowOk s row = true) ∧
    operandsOk .renderEffect r0 := by decide +kernel

theorem witness_CommandsKeepOtherRegisters :
    (∃ t, exec .renderEffect State.reset = .next t) ∧ State.reset.operands.waveType ≠ 3 ∧
    (∃ t, exec (.oscGen 3) State.reset = .next t) := ⟨⟨_, rfl⟩, by decide, ⟨_, rfl⟩⟩

/-- A failed command, and a tone that succeeds. -/
theorem witness_CommandsKeepOtherBytes :
    (∃ t, exec .noteResolve State.reset = .next t ∧ t.status.err = true) ∧
    (∃ t, exec .renderTone State.reset = .next t ∧ t.status.err = false) := by
  refine ⟨⟨_, rfl, rfl⟩, _, rfl, ?_⟩
  show (renderToneStep Config.machine State.reset).status.err = false
  have h : renderLength Config.machine
      (toneEnd State.reset.operands.params.tAttack State.reset.operands.params.tDecay
        State.reset.operands.params.tSustain State.reset.operands.params.tRelease) = some 0 := by
    have e : ((toneEnd State.reset.operands.params.tAttack State.reset.operands.params.tDecay
      State.reset.operands.params.tSustain State.reset.operands.params.tRelease).mul F64.sampleRate) = F64.zero := by
      decide +kernel
    have z : F64.zero.isFinite = true ∧ F64.zero.ceil.toNat = 0 := by decide +kernel
    unfold renderLength
    rw [e]
    dsimp only
    rw [z.1, z.2]
    simp
  rw [renderToneStep_ok (by decide +kernel) h]
  rfl

theorem witness_RoundingIsNearest :
    F64.one.isFinite = true ∧ (F64.lit 3 1).isFinite = true ∧ (F64.lit 3 1).units ≠ 0 ∧ 0 < (F64.lit 3 1).units ∧
    (F64.one.add (F64.lit 3 1)).isFinite = true ∧ (F64.one.div (F64.lit 3 1)).isFinite = true := by decide +kernel

end Tests
end Sys2Proof
end

section
/-! SUPPORT. The statements of 00_scope.md: one step of the block (R22), nearest rounding (R16), `floor` and `wrap`
(R17), and the conversions to samples (R19, R20). Each part builds the rule that its theorem then cites. -/

namespace Sys2Proof
namespace Machine

/-! ## The step (R22) -/

/-- Settles O6: the word of a command whose latency is over is the one the step decodes. -/
theorem stepRunsDecodedInstruction : Obligations.StepRunsDecodedInstruction := by
  intro s w o i hseq hdec
  have hready : s.ready? = some w := (s.ready_iff w).2 ⟨o, hseq⟩
  simp only [step, hready, hdec]

end Machine

namespace F64
open Claims Config

/-! ## Rounding (R16) -/

/-- No value, of either sign, lies strictly between two neighbouring magnitudes. -/
theorem units_outside_gap (v : F64) (b : Nat) : v.units ≤ val b ∨ (val (b + 1) : Int) ≤ v.units := by
  rw [units_eq]
  by_cases h : v.magBits ≤ b
  · have := val_strictMono.monotone h
    left; split <;> omega
  · have := val_strictMono.monotone (show b + 1 ≤ v.magBits by omega)
    split <;> omega

/-- Rounding to a finite value takes the nearer of the two neighbours of the exact ratio, the even one on a tie. -/
theorem roundMag_nearer {num den : Nat} (hd : 0 < den) (hfin : roundMag num den < infMag) :
    ∃ b, val b * den ≤ num ∧ num < val (b + 1) * den ∧
      (val (roundMag num den) * den = val b * den ∧ 2 * num ≤ val b * den + val (b + 1) * den ∨
        val (roundMag num den) * den = val (b + 1) * den ∧ val b * den + val (b + 1) * den ≤ 2 * num) ∧
      (2 * num = val b * den + val (b + 1) * den → roundMag num den % 2 = 0) := by
  obtain ⟨b, hlo, hhi, hbelow, habove, htie⟩ := roundMag_bracket num hd
  rw [Nat.add_mul] at hbelow habove htie
  have hr : roundMag num den = b ∧ 2 * num ≤ val b * den + val (b + 1) * den ∨
      roundMag num den = b + 1 ∧ val b * den + val (b + 1) * den ≤ 2 * num := by
    generalize infMag = I at *
    rcases lt_trichotomy (2 * num) (val b * den + val (b + 1) * den) with h | h | h
    · have := hbelow h; omega
    · have := htie h; split at this <;> omega
    · have := habove h; omega
  refine ⟨b, hlo, hhi, hr.imp (fun h => ⟨by rw [h.1], h.2⟩) (fun h => ⟨by rw [h.1], h.2⟩), fun h => ?_⟩
  have := htie h
  generalize infMag = I at *
  split at this <;> omega

/-- The nearer end `w` of a gap around `e` is no further from `e` than any `z` outside the gap, and as near as another
one only at the midpoint. -/
theorem nearer_end_nearest {lo hi e w z : Int} (hlo : lo ≤ e) (hhi : e < hi) (hz : z ≤ lo ∨ hi ≤ z)
    (hw : w = lo ∧ 2 * e ≤ lo + hi ∨ w = hi ∧ lo + hi ≤ 2 * e) :
    |e - w| ≤ |e - z| ∧ (|e - w| = |e - z| → z ≠ w → 2 * e = lo + hi) := by
  rw [Int.abs_eq_natAbs, Int.abs_eq_natAbs]
  omega

/-- A finite rounded magnitude is nearest to the exact ratio among the values, and even where another is as near. -/
theorem roundMag_nearest {num den : Nat} (hd : 0 < den) (hfin : roundMag num den < infMag) (v : F64) :
    |(num : Int) - val (roundMag num den) * den| ≤ |num - v.units * den| ∧
    (|(num : Int) - val (roundMag num den) * den| = |num - v.units * den| → v.units ≠ val (roundMag num den) →
      roundMag num den % 2 = 0) := by
  obtain ⟨b, hlo, hhi, hnear, htie⟩ := roundMag_nearer hd hfin
  have hd0 : (0 : Int) < den := by omega
  have hgap : v.units * den ≤ val b * den ∨ (val (b + 1) * den : Int) ≤ v.units * den :=
    (units_outside_gap v b).imp (Int.mul_le_mul_of_nonneg_right · hd0.le) (Int.mul_le_mul_of_nonneg_right · hd0.le)
  obtain ⟨hle, hmid⟩ := nearer_end_nearest (e := num) (w := val (roundMag num den) * den)
    (by exact_mod_cast hlo) (by exact_mod_cast hhi) hgap (by exact_mod_cast hnear)
  exact ⟨hle, fun he hne => htie (by exact_mod_cast hmid he (fun h => hne (Int.eq_of_mul_eq_mul_right hd0.ne' h)))⟩

theorem fracField_ofSign_mod_two (b : Bool) {m : Nat} (hm : m < 2 ^ 63) : (ofSign b m).fracField % 2 = m % 2 := by
  rw [fracField_eq, magBits_ofSign b hm]; omega

/-- Turning the sign of the exact value and of `v` keeps how near they are. -/
theorem nearestEven_neg {e den : Int} {w : F64} (h : nearestEven e den w) : nearestEven (-e) den (neg w) := by
  intro v hv
  have habs : ∀ u : Int, |-e - -u * den| = |e - u * den| := fun u => by rw [← abs_neg]; congr 1; ring
  have hfrac : (neg w).fracField = w.fracField := by rw [fracField_eq, fracField_eq, magBits_neg]
  have := h (neg v) (by rwa [isFinite_neg])
  rw [units_neg, ← habs (-v.units), neg_neg, ← habs] at this
  rw [units_neg, hfrac]
  exact ⟨this.1, fun he hne => this.2 he (by omega)⟩

theorem neg_ofSign (b : Bool) {m : Nat} (h : m < 2 ^ 63) : neg (ofSign b m) = ofSign (!b) m := by
  rw [← ofSign_fields (neg _), signBit_neg, magBits_neg, signBit_ofSign b h, magBits_ofSign b h]

/-- A rounded ratio of either sign, where it is finite, is the nearest value. -/
theorem nearestEven_ofSign_roundMag (b : Bool) {num den : Nat} (hd : 0 < den)
    (hfin : (ofSign b (roundMag num den)).isFinite = true) :
    nearestEven (if b then -(num : Int) else num) den (ofSign b (roundMag num den)) := by
  have hlt := roundMag_lt num den
  rw [isFinite_iff, magBits_ofSign b hlt] at hfin
  have hpos : nearestEven num den (ofSign false (roundMag num den)) := fun v _ => by
    rw [units_ofSign false hlt, fracField_ofSign_mod_two false hlt]
    exact roundMag_nearest hd hfin v
  cases b with
  | false => exact hpos
  | true => exact neg_ofSign false hlt ▸ nearestEven_neg hpos

/-- An integer number of units, rounded to a finite value, goes to the nearest one. -/
theorem nearestEven_roundUnits (zs : Bool) {z : Int} (hfin : (roundUnits zs z).isFinite = true) :
    nearestEven z 1 (roundUnits zs z) := by
  have hround : roundUnits zs z = ofSign (if z = 0 then zs else decide (z < 0)) (roundMag z.natAbs 1) := by
    unfold roundUnits
    split
    · next hz => rw [hz]; rfl
    · rfl
  have hexact : (if (if z = 0 then zs else decide (z < 0)) then -(z.natAbs : Int) else z.natAbs) = z := by
    by_cases hz : z = 0
    · simp [hz]
    · rw [if_neg hz]
      by_cases hneg : z < 0
      · simp only [hneg, decide_true, if_true]; omega
      · simp only [hneg, decide_false, Bool.false_eq_true, if_false]; omega
  rw [hround] at hfin ⊢
  have := nearestEven_ofSign_roundMag _ one_pos hfin
  rwa [hexact] at this

/-- A value is its magnitude with its sign. -/
theorem units_signed (x : F64) : x.units = if x.signBit then -(x.magUnits : Int) else x.magUnits := rfl

theorem magBits_ne_zero_of_units {x : F64} (h : x.units ≠ 0) : x.magBits ≠ 0 := by
  intro e; rw [units_eq, e] at h; simp at h

/-- The quotient of finite values is the ratio of their magnitudes, rounded once. -/
theorem div_finite {x y : F64} (hx : x.isFinite = true) (hy : y.isFinite = true) (h0 : y.units ≠ 0) :
    div x y = ofSign (x.signBit != y.signBit) (roundMag (x.magUnits * unitsPerOne) y.magUnits) := by
  simp [div, not_isNaN_of_isFinite hx, not_isNaN_of_isFinite hy, not_isInf_of_isFinite hx, not_isInf_of_isFinite hy,
    magBits_ne_zero_of_units h0]

/-- The exact product has the sign of R16 and the product of the magnitudes. -/
theorem units_mul (x y : F64) : x.units * y.units =
    if (x.signBit != y.signBit) = true then -((x.magUnits * y.magUnits : Nat) : Int)
    else (x.magUnits * y.magUnits : Nat) := by
  rw [units_signed, units_signed]
  cases x.signBit <;> cases y.signBit <;> simp

/-- The numerator of the exact quotient, with the sign of R16. -/
theorem units_div_numerator {x y : F64} (h0 : y.units ≠ 0) :
    (if 0 < y.units then x.units * unitsPerOne else -(x.units * unitsPerOne)) =
    if (x.signBit != y.signBit) = true then -((x.magUnits * unitsPerOne : Nat) : Int)
    else (x.magUnits * unitsPerOne : Nat) := by
  have hy := units_signed y
  rw [units_signed x]
  generalize unitsPerOne = U
  cases hs : y.signBit
  · have hpos : 0 < y.units := by simp only [hs, Bool.false_eq_true, if_false] at hy; omega
    cases x.signBit <;> simp [hpos]
  · have hneg : ¬ 0 < y.units := by simp only [hs, if_true] at hy; omega
    cases x.signBit <;> simp [hneg]

/-- Settles O60: every operation rounds the magnitude of its exact result once, which `nearestEven_ofSign_roundMag`
shows to be nearest. -/
theorem roundingIsNearest : Obligations.RoundingIsNearest := by
  intro x y hx hy
  refine ⟨fun hfin => ?_, fun hfin => ?_, fun hfin => ?_, fun h0 hfin => ?_⟩
  · rw [add_finite hx hy] at hfin ⊢
    exact nearestEven_roundUnits _ hfin
  · rw [sub_finite hx hy] at hfin ⊢
    exact nearestEven_roundUnits _ hfin
  · rw [mul_finite hx hy] at hfin ⊢
    rw [units_mul]
    exact nearestEven_ofSign_roundMag _ unitsPerOne_pos hfin
  · rw [div_finite hx hy h0] at hfin ⊢
    rw [units_div_numerator h0, Int.abs_eq_natAbs, ← magUnits_natAbs]
    exact nearestEven_ofSign_roundMag _ (by rw [magUnits_natAbs]; omega) hfin

/-! ## floor (R17) -/

/-- `floor` of a finite value is the greatest integer below it. -/
theorem le_floor_iff {x : F64} (hx : x.isFinite = true) (k : Int) : k ≤ x.floor ↔ k * unitsPerOne ≤ x.units := by
  rw [floor_finite hx]
  exact Int.le_ediv_iff_mul_le (by have := unitsPerOne_pos; omega)

/-! ## wrap (R17) -/

/-- A 53-bit integer at scale `2^t` is a magnitude. -/
theorem exists_val_eq_mul_pow (t : Nat) : ∀ {n : Nat}, n < 2 ^ 53 → ∃ c < (t + 2) * 2 ^ 52, val c = n * 2 ^ t := by
  induction t with
  | zero => exact fun {n} hn => ⟨0 * 2 ^ 52 + n, by omega, val_scaled hn (by omega)⟩
  | succ t ih =>
    intro n hn
    by_cases h : 2 ^ 52 ≤ n
    · exact ⟨(t + 1) * 2 ^ 52 + n, by omega, val_scaled hn (fun _ => h)⟩
    · obtain ⟨c, hlt, hc⟩ := ih (n := 2 * n) (by omega)
      exact ⟨c, lt_of_lt_of_le hlt (Nat.mul_le_mul_right _ (by omega)), by rw [hc, pow_succ]; ring⟩

/-- A magnitude that is no multiple of `2^p` is below `2^52` times that. -/
theorem val_dvd_or_lt (p m : Nat) : 2 ^ p ∣ val m ∨ val m < 2 ^ 52 * 2 ^ p := by
  obtain ⟨s, k, rfl, hk, hs⟩ := exists_scaled m
  rw [val_scaled hk hs]
  by_cases h : p ≤ s
  · exact .inl ((pow_dvd_pow 2 h).mul_left k)
  · right
    calc k * 2 ^ s < 2 ^ 53 * 2 ^ s := Nat.mul_lt_mul_of_pos_right hk (by positivity)
      _ = 2 ^ 52 * 2 ^ (s + 1) := by ring
      _ ≤ 2 ^ 52 * 2 ^ p := Nat.mul_le_mul_left _ (Nat.pow_le_pow_right (by norm_num) (by omega))

/-- The floor of a finite value is a finite magnitude. -/
theorem exists_val_eq_floor {x : F64} (hx : x.isFinite = true) :
    ∃ c < infMag, (x.floor * unitsPerOne).natAbs = val c := by
  have hmag : x.units.natAbs = val x.magBits := by rw [← magUnits_natAbs, magUnits_eq]
  have hcases : unitsPerOne ∣ val x.magBits ∨ val x.magBits < 2 ^ 52 * unitsPerOne := by
    unfold unitsPerOne; exact val_dvd_or_lt 1074 _
  rcases hcases with hdvd | hsmall
  · refine ⟨x.magBits, (isFinite_iff x).1 hx, ?_⟩
    rw [← hmag, Int.natCast_dvd.symm] at hdvd
    rw [floor_finite hx, Int.ediv_mul_cancel hdvd, hmag]
  · rw [← hmag] at hsmall
    have hlo := (le_floor_iff hx (-2 ^ 52)).2 (by push_cast; omega)
    have hhi := (le_floor_iff hx (2 ^ 52)).not.2 (by push_cast; omega)
    obtain ⟨c, hc, hval⟩ := exists_val_eq_mul_pow 1074 (n := x.floor.natAbs) (by omega)
    exact ⟨c, by unfold infMag; omega, by rw [Int.natAbs_mul, hval, Int.natAbs_natCast, unitsPerOne]⟩

/-- `x - real(floor(x))` lies in [0, 1]: `real(floor(x))` is exact, and the difference rounds between the two. -/
theorem sub_floor_unit {x : F64} (hx : x.isFinite = true) : (x.sub (ofInt x.floor)).inUnit = true := by
  obtain ⟨c, hc, hz⟩ := exists_val_eq_floor hx
  obtain ⟨hfin, hunits⟩ := units_roundUnits_exact false hc hz
  rw [← ofInt] at hfin hunits
  have hlo := (le_floor_iff hx x.floor).1 (le_refl _)
  have hhi := (le_floor_iff hx (x.floor + 1)).not.1 (by omega)
  rw [Int.add_mul, one_mul] at hhi
  rw [inUnit_iff, sub_finite hx hfin, ← units_one, ← units_zero]
  exact roundUnits_between _ zero_isFinite one_isFinite (by rw [units_zero]; omega) (by rw [units_one]; omega)

theorem isPhase_iff (x : F64) :
    x.isPhase = true ↔ x.isFinite = true ∧ 0 ≤ x.units ∧ x.units < (unitsPerOne : Int) := by
  unfold isPhase
  rw [Bool.and_eq_true, Bool.and_eq_true, and_assoc]
  refine and_congr_right fun h => ?_
  rw [le_iff zero_isFinite h, lt_iff h one_isFinite, units_zero, units_one]

/-- Folding a result of 1.0 to 0.0 takes [0, 1] to [0, 1). -/
theorem fold_isPhase {r : F64} (hr : r.inUnit = true) : (if r.eq one then zero else r).isPhase = true := by
  obtain ⟨hfin, h0, h1⟩ := (inUnit_iff r).1 hr
  split
  · exact zero_isPhase
  · next hne =>
    rw [eq_iff hfin one_isFinite, units_one] at hne
    exact (isPhase_iff r).2 ⟨hfin, h0, by omega⟩

theorem wrap_of_isFinite (cfg : Config) {x : F64} (hx : x.isFinite = true) :
    x.wrap cfg = if (x.sub (ofInt x.floor)).eq one then zero else x.sub (ofInt x.floor) := if_pos hx

/-- `wrap` yields a phase, under every configuration that table P allows. -/
theorem wrap_isPhase {cfg : Config} (hc : cfg.Legal) (x : F64) : (x.wrap cfg).isPhase = true := by
  by_cases hx : x.isFinite = true
  · rw [wrap_of_isFinite cfg hx]
    exact fold_isPhase (sub_floor_unit hx)
  · rw [wrap, if_neg hx]
    exact hc.wrapNonFinite_range x (by simpa using hx)

/-- Settles O42: the range is `wrap_isPhase`, the formula `wrap_of_isFinite`. -/
theorem wrapIsPhase : Obligations.WrapIsPhase := by
  intro x
  have h := wrap_isPhase machine_legal x
  rw [isPhase, Bool.and_eq_true, Bool.and_eq_true, and_assoc] at h
  exact ⟨h, wrap_of_isFinite _⟩

/-! ## Sample conversions (R19, R20) -/

/-- A 16-bit sample holds every integer of its range. -/
theorem toInt_ofInt_sample {k : Int} (hlo : -32768 ≤ k) (hhi : k ≤ 32767) : (BitVec.ofInt 16 k).toInt = k := by
  rw [BitVec.toInt_ofInt, Int.bmod_eq_of_le (by norm_num; omega) (by norm_num; omega)]

theorem quantInt_range (v : F64) : -32768 ≤ v.quantInt ∧ v.quantInt ≤ 32767 := by
  unfold quantInt
  split <;> omega

theorem natAbs_orderKey (x : F64) : x.orderKey.natAbs = x.magBits := by
  unfold orderKey
  split <;> omega

/-- A clamped value that is no NaN is finite and in [-1, 1]. -/
theorem clamp_bipolar {v : F64} (hv : v.isNaN = false) : (clamp v minusOne one).inBipolar = true := by
  have hm : minusOne.isNaN = false ∧ minusOne.orderKey = -one.magBits := by decide
  have ho : one.isNaN = false ∧ one.orderKey = one.magBits ∧ one.magBits < infMag := by decide
  unfold clamp
  split
  · decide +kernel
  · next hlo =>
    split
    · decide +kernel
    · next hhi =>
      simp only [lt, hv, hm, ho, Bool.not_false, Bool.true_and, decide_eq_true_eq, not_lt] at hlo hhi
      have hfin : v.isFinite = true := by
        rw [isFinite_iff, ← natAbs_orderKey]
        omega
      simp only [inBipolar, inRange, le, hfin, hv, hm, ho, Bool.not_false, Bool.true_and, Bool.and_eq_true,
        decide_eq_true_eq]
      exact ⟨hlo, hhi⟩

theorem inBipolar_iff (x : F64) :
    x.inBipolar = true ↔ x.isFinite = true ∧ x.magUnits ≤ unitsPerOne := by
  have hm : minusOne.isFinite = true ∧ minusOne.units = -(unitsPerOne : Int) := by decide +kernel
  unfold inBipolar inRange
  rw [Bool.and_eq_true, Bool.and_eq_true, and_assoc]
  refine and_congr_right fun h => ?_
  rw [le_iff hm.1 h, le_iff h one_isFinite, hm.2, units_one, magUnits_natAbs]
  omega

/-- A product with a factor in [-1, 1] has no greater magnitude than the other factor. -/
theorem mul_finite_of_bipolar {c y : F64} (hc : c.inBipolar = true) (hy : y.isFinite = true) :
    (c.mul y).isFinite = true ∧ (c.mul y).magUnits ≤ y.magUnits := by
  obtain ⟨hfin, hle⟩ := (inBipolar_iff c).1 hc
  have hround : roundMag (c.magUnits * y.magUnits) unitsPerOne ≤ y.magBits :=
    roundMag_le unitsPerOne_pos (by rw [← magUnits_eq, Nat.mul_comm]; exact Nat.mul_le_mul_left _ hle)
  have hlt := lt_of_le_of_lt hround ((isFinite_iff y).1 hy)
  rw [mul_finite hfin hy, magUnits_eq (ofSign _ _), magBits_ofSign _ (roundMag_lt _ _)]
  exact ⟨isFinite_ofSign _ hlt, (val_strictMono.monotone hround).trans_eq (magUnits_eq y).symm⟩

theorem tconvInt_eq_tableValue (v : F64) : v.tconvInt = tableValue v := by
  have h : lit 32767 1 = fullScale := by decide +kernel
  rw [tconvInt, tableValue, h]
  rfl

theorem tconvInt_range (v : F64) : -32767 ≤ v.tconvInt ∧ v.tconvInt ≤ 32767 := by
  have hscale : fullScale.isFinite = true ∧ fullScale.magUnits = 32767 * unitsPerOne := by decide +kernel
  have hpos := unitsPerOne_pos
  unfold tconvInt
  split
  · omega
  · next hv =>
    obtain ⟨hfin, hmag⟩ := mul_finite_of_bipolar (clamp_bipolar (by simpa using hv)) hscale.1
    rw [magUnits_natAbs, hscale.2] at hmag
    have hlo := (le_floor_iff hfin (-32767)).2 (by omega)
    have hhi := (le_floor_iff hfin 32768).not.2 (by omega)
    exact ⟨hlo, by omega⟩

/-- Settles O39: both integers fit a sample, so their 16-bit forms stand for them. -/
theorem sampleConversions : Obligations.SampleConversions := by
  intro v
  obtain ⟨hqlo, hqhi⟩ := quantInt_range v
  obtain ⟨htlo, hthi⟩ := tconvInt_range v
  rw [← tconvInt_eq_tableValue]
  exact ⟨toInt_ofInt_sample hqlo hqhi, toInt_ofInt_sample (by omega) (by omega), htlo, hthi, le_floor_iff⟩

end F64
end Sys2Proof
end

section
/-! SUPPORT. The statements of 10_state.md: how a command ends and which registers and bytes it leaves unchanged, the
invariant that every step keeps, and the host's accesses to the registers at their offsets. -/

namespace Sys2Proof
namespace Machine
open Claims

/-! ## The noise hold of a render (42_oscillator.md R275, R280): only the noise wave draws -/

theorem Wave.ofBits_eq_noise_iff : ∀ b : BitVec 2, Wave.ofBits b = .noise ↔ b = 3 := by decide

theorem generate_hold {wave : Wave} (hw : wave ≠ .noise) (cfg : Config) (phase duty : F64) (h : NoiseHold) :
    (generate cfg wave phase duty h).2 = h := by
  cases wave with
  | noise => exact absurd rfl hw
  | _ => rfl

@[simp] theorem Render.arpeggio_noise (pl : EffectPlan) (n : Nat) (r : Render) :
    (r.arpeggio pl n).noise = r.noise := by
  unfold Render.arpeggio; split <;> rfl

@[simp] theorem Render.lowpassStage_noise (cfg : Config) (pl : EffectPlan) (t x : F64) (r : Render) :
    (r.lowpassStage cfg pl t x).2.noise = r.noise := by
  unfold Render.lowpassStage; split <;> rfl

@[simp] theorem Render.highpassStage_noise (cfg : Config) (pl : EffectPlan) (t x : F64) (r : Render) :
    (r.highpassStage cfg pl t x).2.noise = r.noise := by
  unfold Render.highpassStage; split <;> rfl

@[simp] theorem Render.phaserStage_noise (cfg : Config) (pl : EffectPlan) (t x : F64) (r : Render) :
    (r.phaserStage cfg pl t x).2.noise = r.noise := by
  unfold Render.phaserStage; split <;> rfl

@[simp] theorem Render.modulate_noise (pl : EffectPlan) (r : Render) : (r.modulate pl).noise = r.noise := rfl

@[simp] theorem Render.repeatStep_noise (pl : EffectPlan) (r : Render) : (r.repeatStep pl).noise = r.noise := by
  unfold Render.repeatStep
  split
  · split <;> rfl
  · rfl

theorem Render.sample_noise {pl : EffectPlan} (hw : pl.wave ≠ .noise) (cfg : Config) (n : Nat) (r : Render) :
    (r.sample cfg pl n).2.noise = r.noise := by
  simp [Render.sample, Render.oscillate, generate_hold hw]

theorem effectSamples_rng {pl : EffectPlan} (hw : pl.wave ≠ .noise) (cfg : Config) (k n : Nat) (r : Render) :
    (effectSamples cfg pl k n r).rng = r.noise.rng := by
  induction k generalizing n r with
  | zero => rfl
  | succ k ih =>
    unfold effectSamples
    split
    · rfl
    · exact (ih _ _).trans (by rw [Render.sample_noise hw])

/-- An effect render of another wave than noise ends with the working RNG state it began with. -/
theorem effectRender_rng {o : Snapshot} (hw : o.waveType ≠ 3) (cfg : Config) (nEnv : Nat) :
    (effectRender cfg o nEnv).rng = o.rng :=
  effectSamples_rng (mt (Wave.ofBits_eq_noise_iff o.waveType).1 hw) cfg nEnv 0 _

/-! ## How a command ends (60_exceptions.md R442) -/

/-- How the complete step of a command can end: with an error, the address of which is 0 but for INVALID_PARAMETER, or
with the writes of its rule. -/
inductive CommandEnds (cfg : Config) (s : State) : Instr → State → Prop where
  | failed (i : Instr) (c : ErrCode) (a : Word) (hc : c ≠ .none)
      (ha : c = .invalidParameter ∧ (∃ r, a = BitVec.ofNat 32 (PReg.offset r)) ∨ c ≠ .invalidParameter ∧ a = 0) :
      CommandEnds cfg s i (s.raiseError c a)
  | nop : CommandEnds cfg s .nop (s.finish .none)
  | tblPreset (sel : BitVec 2) (vs : List Sample) (hvs : vs.length = 1024) :
      CommandEnds cfg s (.tblPreset sel) ((s.storeTable vs).finish .none)
  | tblCommit (vs : List Sample) (hvs : vs.length = 1024) :
      CommandEnds cfg s .tblCommit { (s.storeTable vs).finish .none with stgCount := 0 }
  | stgClear : CommandEnds cfg s .stgClear (stgClearStep s)
  | renderTone (vs : List Sample) (hvs : vs.length ≤ cfg.pcmCap) :
      CommandEnds cfg s .renderTone (s.finishRender vs .envelope)
  | renderEffect (vs : List Sample) (reason : EndReason) (g : RngState) (hvs : vs.length ≤ cfg.pcmCap)
      (hg : s.operands.waveType ≠ 3 → g = s.operands.rng) :
      CommandEnds cfg s .renderEffect { s.finishRender vs reason with rng := g }
  | noteResolve (v : F64) :
      CommandEnds cfg s .noteResolve { s.finishResult v with params := s.params.set .pitchHz v }
  | lookup (v : F64) : CommandEnds cfg s .lookup (s.finishResult v)
  | oscGen (sel : BitVec 2) (v : F64) : CommandEnds cfg s (.oscGen sel) (s.finishResult v)
  | oscNoise (v : F64) (g : RngState) : CommandEnds cfg s (.oscGen 3) { s.finishResult v with rng := g }
  | envEval (sel : BitVec 2) (v : F64) : CommandEnds cfg s (.envEval sel) (s.finishResult v)

theorem completeIn_err_or_commandEnds (cfg : Config) (s : State) (i : Instr) :
    (completeIn cfg s i).status.err = true ∨ CommandEnds cfg s i (completeIn cfg s i) := by
  have bad : ∀ {t : State} {c a}, t = s.raiseError c a → t.status.err = true := fun h => by rw [h]; rfl
  cases i with
  | nop => exact .inr .nop
  | stgClear => exact .inr .stgClear
  | tblPreset sel =>
    rcases tblPresetStep_cases cfg sel s with ⟨_, h⟩ | h
    · exact .inl (bad h)
    · rw [completeIn, h]; exact .inr (.tblPreset _ _ (presetTable_length _ _ _))
  | tblCommit =>
    rcases tblCommitStep_cases cfg s with ⟨_, -, -, -, h⟩ | ⟨vs, -, hvs, h⟩
    · exact .inl (bad h)
    · rw [completeIn, h]; exact .inr (.tblCommit vs hvs)
  | renderTone =>
    rcases renderToneStep_cases cfg s with ⟨_, h⟩ | h | ⟨vs, hvs, h⟩
    · exact .inl (bad h)
    · exact .inl (bad h)
    · rw [completeIn, h]; exact .inr (.renderTone vs hvs)
  | renderEffect =>
    rcases renderEffectStep_cases cfg s with ⟨_, h⟩ | h | ⟨n, hn, hvs, -, h⟩
    · exact .inl (bad h)
    · exact .inl (bad h)
    · rw [completeIn, h]
      exact .inr (.renderEffect _ _ _ (hvs.trans hn) fun hw => effectRender_rng hw cfg n)
  | noteResolve =>
    rcases noteResolveStep_cases cfg s with ⟨-, h⟩ | ⟨k, -, h⟩
    · exact .inl (bad h)
    · rw [completeIn, h]; exact .inr (.noteResolve _)
  | lookup =>
    rcases lookupStep_cases cfg s with ⟨_, h⟩ | h
    · exact .inl (bad h)
    · rw [completeIn, h]; exact .inr (.lookup _)
  | oscGen sel =>
    rcases oscGenStep_cases cfg sel s with ⟨_, h⟩ | ⟨v, -, h⟩ | ⟨hw, h⟩
    · exact .inl (bad h)
    · rw [completeIn, h]; exact .inr (.oscGen sel v)
    · rw [completeIn, h, (Wave.ofBits_eq_noise_iff sel).1 hw]; exact .inr (.oscNoise _ _)
  | envEval sel =>
    rcases envEvalStep_cases cfg sel s with h | ⟨_, h⟩ | h
    · exact .inl (bad h)
    · exact .inl (bad h)
    · rw [completeIn, h]; exact .inr (.envEval sel _)

/-- Every complete step ends in one of these ways. -/
theorem completeIn_commandEnds (cfg : Config) (s : State) (i : Instr) : CommandEnds cfg s i (completeIn cfg s i) := by
  rcases completeIn_ends cfg s i with ⟨c, a, h, hc, ha⟩ | ⟨-, -, reason, hst⟩
  · rw [h]; exact .failed i c a hc ha
  · exact (completeIn_err_or_commandEnds cfg s i).resolve_left (by rw [hst]; exact Bool.false_ne_true)

theorem exec_commandEnds {i : Instr} {s t : State} (h : exec i s = .next t) : CommandEnds Config.machine s i t := by
  rw [(exec_next_iff i s t).1 h]; exact completeIn_commandEnds Config.machine s i

/-! ## The registers a command leaves unchanged -/

namespace CommandEnds

variable {cfg : Config} {i : Instr} {s t : State}

theorem hostRegisters (h : CommandEnds cfg s i t) :
    t.waveType = s.waveType ∧ t.note = s.note ∧ t.fnInLo = s.fnInLo ∧ t.stg = s.stg ∧ t.irqEn = s.irqEn ∧
      t.status.ovr = s.status.ovr ∧ t.inputs = s.inputs ∧ t.response = s.response := by
  cases h <;> exact ⟨rfl, rfl, rfl, rfl, rfl, rfl, rfl, rfl⟩

theorem params_eq (h : CommandEnds cfg s i t) (hi : i ≠ .noteResolve) : t.params = s.params := by
  cases h with
  | noteResolve => exact absurd rfl hi
  | _ => rfl

theorem params_get (h : CommandEnds cfg s i t) {r : PReg} (hr : r ≠ .pitchHz) : t.params.get r = s.params.get r := by
  cases h with
  | noteResolve v => exact s.params.get_set_ne hr v
  | _ => rfl

theorem stgCount_eq (h : CommandEnds cfg s i t) (hc : i ≠ .tblCommit) (hk : i ≠ .stgClear) :
    t.stgCount = s.stgCount := by
  cases h with
  | tblCommit => exact absurd rfl hc
  | stgClear => exact absurd rfl hk
  | _ => rfl

theorem renderRegisters (h : CommandEnds cfg s i t) (ht : i ≠ .renderTone) (he : i ≠ .renderEffect) :
    t.len = s.len ∧ t.duration = s.duration ∧ t.status.endReason = .none := by
  cases h with
  | renderTone => exact absurd rfl ht
  | renderEffect => exact absurd rfl he
  | _ => exact ⟨rfl, rfl, rfl⟩

theorem result_eq (h : CommandEnds cfg s i t) (hl : i ≠ .lookup) (hn : i ≠ .noteResolve)
    (ho : ∀ sel, i ≠ .oscGen sel) (he : ∀ sel, i ≠ .envEval sel) : t.result = s.result := by
  cases h with
  | lookup => exact absurd rfl hl
  | noteResolve => exact absurd rfl hn
  | oscGen sel => exact absurd rfl (ho sel)
  | oscNoise => exact absurd rfl (ho 3)
  | envEval sel => exact absurd rfl (he sel)
  | _ => rfl

theorem rng_eq (h : CommandEnds cfg s i t) (ho : i ≠ .oscGen 3) (he : i ≠ .renderEffect) : t.rng = s.rng := by
  cases h with
  | oscNoise => exact absurd rfl ho
  | renderEffect => exact absurd rfl he
  | _ => rfl

theorem effect_rng (h : CommandEnds cfg s .renderEffect t) (hw : s.operands.waveType ≠ 3) :
    t.rng = s.rng ∨ t.rng = s.operands.rng := by
  cases h with
  | failed => exact .inl rfl
  | renderEffect vs reason g hvs hg => exact .inr (hg hw)

end CommandEnds

/-- Settles O58: each clause is a fact about the ways a command can end. -/
theorem commandsKeepOtherRegisters : Obligations.CommandsKeepOtherRegisters := by
  intro i s t hexec
  have h := exec_commandEnds hexec
  exact ⟨h.hostRegisters, fun _ => h.params_get, h.params_eq, h.stgCount_eq, h.renderRegisters, h.result_eq, h.rng_eq,
    fun hi => by subst hi; exact h.effect_rng⟩

/-! ## The bytes a command leaves unchanged -/

/-- What a command does to the sample memories and to LEN and DURATION: nothing, or the table anew, or the first
samples of the PCM RAM with their LEN and DURATION (10_state.md R53, R55, 47_renderers.md R380). -/
inductive Stores (cfg : Config) (s : State) (i : Instr) (t : State) : Prop where
  | nothing (hmem : t.mem = s.mem) (hlen : t.len = s.len) (hdur : t.duration = s.duration)
  | table (vs : List Sample) (hi : (∃ sel, i = .tblPreset sel) ∨ i = .tblCommit) (hvs : vs.length = 1024)
      (herr : t.status.err = false) (hmem : t.mem = Memory.writeBlock s.mem tblBase (samplesBytes vs))
      (hlen : t.len = s.len) (hdur : t.duration = s.duration)
  | pcm (vs : List Sample) (hi : i = .renderTone ∨ i = .renderEffect) (hvs : vs.length ≤ cfg.pcmCap)
      (herr : t.status.err = false) (hmem : t.mem = Memory.writeBlock s.mem pcmBase (samplesBytes vs))
      (hlen : t.len = BitVec.ofNat 32 vs.length) (hdur : t.duration = (F64.ofNat vs.length).div F64.sampleRate)

theorem CommandEnds.stores {cfg : Config} {s t : State} {i : Instr} (h : CommandEnds cfg s i t) : Stores cfg s i t := by
  cases h with
  | tblPreset sel vs hvs => exact .table vs (.inl ⟨sel, rfl⟩) hvs rfl rfl rfl rfl
  | tblCommit vs hvs => exact .table vs (.inr rfl) hvs rfl rfl rfl rfl
  | renderTone vs hvs => exact .pcm vs (.inl rfl) hvs rfl rfl rfl rfl
  | renderEffect vs reason g hvs => exact .pcm vs (.inr rfl) hvs rfl rfl rfl rfl
  | _ => exact .nothing rfl rfl rfl

theorem CommandEnds.pcmEpoch_eq {cfg : Config} {s t : State} {i : Instr} (h : CommandEnds cfg s i t) :
    t.pcmEpoch = s.pcmEpoch := by
  cases h <;> rfl

/-- The PCM RAM is small enough for LEN to hold the number of its samples. -/
theorem toNat_ofNat_of_le_pcmCap {n : Nat} (h : n ≤ Config.machine.pcmCap) : (BitVec.ofNat 32 n).toNat = n := by
  have := Config.machine_legal.pcmCap_high
  rw [BitVec.toNat_ofNat]; omega

theorem State.sampleAt_congr {s t : State} (h : ∀ a, t.byteAt a = s.byteAt a) (a : Nat) :
    t.sampleAt a = s.sampleAt a := by
  rw [State.sampleAt, State.sampleAt, h, h]

/-- Settles O59: the bytes outside the block that `Stores` names read as before, and the table and the PCM window do
not meet. -/
theorem commandsKeepOtherBytes : Obligations.CommandsKeepOtherBytes := by
  intro i s t hexec
  have hends := exec_commandEnds hexec
  have hepoch := hends.pcmEpoch_eq
  cases hends.stores with
  | nothing hmem =>
    have hbytes : ∀ a, t.byteAt a = s.byteAt a := fun a => State.byteAt_eq (by rw [hmem]) hepoch
    exact ⟨fun _ => hbytes, fun _ _ _ _ => State.sampleAt_congr hbytes _, fun _ _ _ => State.sampleAt_congr hbytes _,
      fun _ _ a _ => hbytes a, fun _ _ _ _ => hbytes⟩
  | table vs hi hvs herr hmem =>
    refine ⟨fun h => ?_, fun hp hc => ?_, fun _ _ n => ?_, fun hr => ?_, fun hp hc => ?_⟩
    · exact absurd (h.symm.trans herr) (by decide)
    · rcases hi with ⟨sel, hi⟩ | hi
      · exact absurd hi (hp sel)
      · exact absurd hi hc
    · refine State.sampleAt_writeBlock_outside s t tblBase _ _ hmem hepoch (.inr ?_)
      rw [samplesBytes_length, hvs]; simp only [tblBase, pcmBase]; omega
    · rcases hi with ⟨sel, rfl⟩ | rfl <;> simp at hr
    · rcases hi with ⟨sel, hi⟩ | hi
      · exact absurd hi (hp sel)
      · exact absurd hi hc
  | pcm vs hi hvs herr hmem hlen =>
    refine ⟨fun h => ?_, fun _ _ k hk => ?_, fun ht he => ?_, fun _ _ a ha => ?_, fun _ _ ht he => ?_⟩
    · exact absurd (h.symm.trans herr) (by decide)
    · refine State.sampleAt_writeBlock_outside s t pcmBase _ _ hmem hepoch (.inl ?_)
      simp only [tblBase, pcmBase]; omega
    · exact absurd hi (not_or.2 ⟨ht, he⟩)
    · refine State.byteAt_writeBlock_outside s t pcmBase _ a hmem hepoch ?_
      rw [hlen, toNat_ofNat_of_le_pcmCap hvs] at ha
      rwa [samplesBytes_length]
    · exact absurd hi (not_or.2 ⟨ht, he⟩)

/-! ## The invariant (Safety.lean) -/

/-- The part of the invariant about the sample memories, LEN and DURATION. -/
structure StorageOk (s : State) : Prop where
  memWf : Memory.wf s.mem
  memRange : ∀ c ∈ s.mem, inWindow Config.machine.pcmCap c.1
  lenLe : s.len.toNat ≤ Config.machine.pcmCap
  duration : s.duration = (F64.ofNat s.len.toNat).div F64.sampleRate

/-- The part of the invariant about the completion status. -/
structure CompletionOk (s : State) : Prop where
  busyClear : s.busy = true →
    s.status.done = false ∧ s.status.err = false ∧ s.status.errCode = .none ∧ s.status.endReason = .none
  errCode : s.status.err = true → s.status.errCode ≠ .none
  endReason : s.status.errCode ≠ .none → s.status.endReason = .none
  errAddr : s.busy = false →
    if s.status.errCode = .invalidParameter then ∃ r : PReg, s.errAddr = BitVec.ofNat 32 r.offset else s.errAddr = 0

/-- The part of the invariant about the snapshot of a running command. -/
def SnapshotOk (s : State) : Prop := ∀ w o n, s.seq = .busy w o n → o.rng = s.rng ∧ o.stgCount = s.stgCount

theorem inv_iff (s : State) : Inv s ↔ StorageOk s ∧ CompletionOk s ∧ SnapshotOk s :=
  ⟨fun h => ⟨⟨h.memWf, h.memRange, h.lenLe, h.duration⟩, ⟨h.busyClear, h.errCode, h.endReason, h.errAddr⟩, h.busySnap⟩,
    fun ⟨hs, hc, hn⟩ => ⟨hs.memWf, hs.memRange, hs.lenLe, hs.duration, hc.busyClear, hn, hc.errCode, hc.endReason,
      hc.errAddr⟩⟩

theorem SnapshotOk.of_idle {s : State} (h : s.seq = .idle) : SnapshotOk s := by
  intro w o n hb; rw [h] at hb; nomatch hb

theorem StorageOk.congr {s t : State} (h : StorageOk s) (hmem : t.mem = s.mem) (hlen : t.len = s.len)
    (hdur : t.duration = s.duration) : StorageOk t where
  memWf := by rw [hmem]; exact h.memWf
  memRange := by rw [hmem]; exact h.memRange
  lenLe := by rw [hlen]; exact h.lenLe
  duration := by rw [hdur, hlen]; exact h.duration

/-! ### Complete steps keep it -/

/-- Writing samples inside one window keeps every listed byte inside the windows. -/
theorem inWindow_writeBlock {m : Memory} {cap base : Nat} {vs : List Sample} (h : ∀ c ∈ m, inWindow cap c.1)
    (hb : ∀ a, base ≤ a → a < base + 2 * vs.length → inWindow cap a) :
    ∀ c ∈ Memory.writeBlock m base (samplesBytes vs), inWindow cap c.1 := by
  intro c hc
  rcases Memory.mem_writeBlock hc with hm | ⟨hlo, hhi⟩
  · exact h c hm
  · exact hb _ hlo (by rwa [samplesBytes_length] at hhi)

theorem Stores.storageOk {i : Instr} {s t : State} (h : Stores Config.machine s i t) (hs : StorageOk s) :
    StorageOk t := by
  cases h with
  | nothing hmem hlen hdur => exact hs.congr hmem hlen hdur
  | table vs _ hvs _ hmem hlen hdur =>
    constructor
    · rw [hmem]; exact Memory.wf_writeBlock _ _ _ hs.memWf
    · rw [hmem]; exact inWindow_writeBlock hs.memRange fun a hlo hhi => .inl ⟨hlo, by omega⟩
    · rw [hlen]; exact hs.lenLe
    · rw [hdur, hlen]; exact hs.duration
  | pcm vs _ hvs _ hmem hlen hdur =>
    have hN := toNat_ofNat_of_le_pcmCap hvs
    constructor
    · rw [hmem]; exact Memory.wf_writeBlock _ _ _ hs.memWf
    · rw [hmem]; exact inWindow_writeBlock hs.memRange fun a hlo hhi => .inr ⟨hlo, by omega⟩
    · rw [hlen, hN]; exact hvs
    · rw [hdur, hlen, hN]

theorem completionOk_raiseError (s : State) {c : ErrCode} {a : Word} (hc : c ≠ .none)
    (ha : c = .invalidParameter ∧ (∃ r, a = BitVec.ofNat 32 (PReg.offset r)) ∨ c ≠ .invalidParameter ∧ a = 0) :
    CompletionOk (s.raiseError c a) where
  busyClear h := nomatch h
  errCode _ := hc
  endReason _ := rfl
  errAddr _ := by
    rcases ha with ⟨hp, hr⟩ | ⟨hp, h0⟩
    · exact (if_pos hp).mpr hr
    · exact (if_neg hp).mpr h0

theorem completionOk_success {t : State} {st : Status} {reason : EndReason} (hseq : t.seq = .idle)
    (haddr : t.errAddr = 0)
    (hst : t.status = { st with done := true, err := false, errCode := .none, endReason := reason }) :
    CompletionOk t where
  busyClear h := by rw [State.busy_of_idle hseq] at h; nomatch h
  errCode h := by rw [hst] at h; nomatch h
  endReason h := by rw [hst] at h; exact absurd rfl h
  errAddr _ := by rw [hst]; exact haddr

theorem completionOk_completeIn (cfg : Config) (s : State) (i : Instr) : CompletionOk (completeIn cfg s i) := by
  rcases completeIn_ends cfg s i with ⟨c, a, h, hc, ha⟩ | ⟨hseq, haddr, reason, hst⟩
  · rw [h]; exact completionOk_raiseError s hc ha
  · exact completionOk_success hseq haddr hst

theorem completeIn_idle (cfg : Config) (s : State) (i : Instr) : (completeIn cfg s i).seq = .idle := by
  rcases completeIn_ends cfg s i with ⟨c, a, h, -, -⟩ | ⟨hseq, -⟩
  · rw [h]; rfl
  · exact hseq

theorem inv_completeIn {s : State} (h : Inv s) (i : Instr) : Inv (completeIn Config.machine s i) := by
  obtain ⟨hstore, -, -⟩ := (inv_iff s).1 h
  exact (inv_iff _).2 ⟨(completeIn_commandEnds _ s i).stores.storageOk hstore, completionOk_completeIn _ s i,
    .of_idle (completeIn_idle _ s i)⟩

theorem inv_illegalCommand {s : State} (h : Inv s) : Inv (s.raiseError .illegalCommand 0) := by
  obtain ⟨hstore, -, -⟩ := (inv_iff s).1 h
  exact (inv_iff _).2 ⟨hstore.congr rfl rfl rfl, completionOk_raiseError s (by decide) (.inr ⟨by decide, rfl⟩),
    .of_idle rfl⟩

/-! ### Host events keep it -/

/-- The sequencer and the completion status after an event that accepts no command: DONE and ERR are at most cleared. -/
structure KeepsCompletion (s t : State) : Prop where
  seq : t.seq = s.seq
  done : t.status.done = true → s.status.done = true
  err : t.status.err = true → s.status.err = true
  errCode : t.status.errCode = s.status.errCode
  endReason : t.status.endReason = s.status.endReason

theorem keepsCompletion_of_eq {s t : State} (hseq : t.seq = s.seq) (hst : t.status = s.status) :
    KeepsCompletion s t := by
  constructor <;> simp [hseq, hst]

theorem KeepsCompletion.busy {s t : State} (h : KeepsCompletion s t) : t.busy = s.busy := by
  simp only [State.busy, h.seq]

theorem KeepsCompletion.completionOk {s t : State} (h : KeepsCompletion s t) (hs : CompletionOk s)
    (haddr : t.errAddr = s.errAddr) : CompletionOk t where
  busyClear hb := by
    obtain ⟨hd, he, hc, hr⟩ := hs.busyClear (h.busy ▸ hb)
    exact ⟨by simpa [hd] using h.done, by simpa [he] using h.err, h.errCode.trans hc, h.endReason.trans hr⟩
  errCode he := by rw [h.errCode]; exact hs.errCode (h.err he)
  endReason hc := by rw [h.endReason]; exact hs.endReason (h.errCode ▸ hc)
  errAddr hb := by rw [h.errCode, haddr]; exact hs.errAddr (h.busy ▸ hb)

theorem whenIdle_keepsCompletion {s t : State} (h : KeepsCompletion s t) : KeepsCompletion s (s.whenIdle t) := by
  unfold State.whenIdle
  split
  · exact ⟨rfl, id, id, rfl, rfl⟩
  · exact h

/-- A write that is no reset accepts a command or keeps the completion status. -/
theorem writeLoc_completion (s : State) (v : Word) (l : Loc) (h : l = .ctrl → v.getLsbD 0 = false) :
    (s.busy = false ∧ s.writeLoc v l = s.accept v) ∨ KeepsCompletion s (s.writeLoc v l) := by
  cases l with
  | cmd =>
    cases hb : s.busy with
    | false => exact .inl ⟨rfl, by simp [State.writeLoc, State.whenIdle, hb]⟩
    | true => exact .inr (by simp only [State.writeLoc, State.whenIdle, hb]; exact ⟨rfl, id, id, rfl, rfl⟩)
  | status => exact .inr ⟨rfl, fun h => (Bool.and_eq_true_iff.1 h).1, fun h => (Bool.and_eq_true_iff.1 h).1, rfl, rfl⟩
  | ctrl => rw [writeLoc_ctrl_off s v (h rfl)]; exact .inr (keepsCompletion_of_eq rfl rfl)
  | rngLo | rngHi | smpIn | fnInLo | fnInHi => exact .inr (whenIdle_keepsCompletion (keepsCompletion_of_eq rfl rfl))
  | _ => exact .inr (keepsCompletion_of_eq rfl rfl)

/-- The same of every host event but a reset. -/
theorem hostEvent_completion (cfg : Config) (s : State) (e : HostEvent) (h : e.resets = false) :
    (s.busy = false ∧ ∃ v, State.hostEvent cfg s e = { s.accept v with response := .writeOk }) ∨
      KeepsCompletion s (State.hostEvent cfg s e) := by
  cases e with
  | presetn => nomatch h
  | read a =>
    by_cases ha : a.toNat % 4 = 0
    · rw [hostEvent_read ha]; exact .inr (keepsCompletion_of_eq rfl rfl)
    · rw [hostEvent_read_misaligned ha]; exact .inr (keepsCompletion_of_eq rfl rfl)
  | write a v =>
    by_cases ha : a.toNat % 4 = 0
    · rw [hostEvent_write ha]
      rcases writeLoc_completion s v _ (not_srst h) with ⟨hb, hw⟩ | ⟨hseq, hdone, herr, hcode, hreason⟩
      · exact .inl ⟨hb, v, by rw [hw]⟩
      · exact .inr ⟨hseq, hdone, herr, hcode, hreason⟩
    · rw [hostEvent_write_misaligned ha]; exact .inr (keepsCompletion_of_eq rfl rfl)

/-- Right after an accept the completion status is clear and the snapshot is the registers'. -/
theorem inv_accept {s : State} (h : StorageOk s) (w : Word) : Inv { s.accept w with response := .writeOk } :=
  (inv_iff _).2 ⟨h.congr rfl rfl rfl,
    ⟨fun _ => ⟨rfl, rfl, rfl, rfl⟩, fun h => (nomatch h), fun _ => rfl, fun h => (nomatch h)⟩,
    fun _ _ _ hseq => by cases hseq; exact ⟨rfl, rfl⟩⟩

theorem duration_reset : State.reset.duration = (F64.ofNat State.reset.len.toNat).div F64.sampleRate := by
  decide +kernel

theorem inv_toReset (s : State) : Inv s.toReset :=
  (inv_iff _).2 ⟨⟨Memory.wf_reset, fun _ h => (nomatch h), Nat.zero_le _, duration_reset⟩,
    ⟨fun h => (nomatch h), fun h => (nomatch h), fun h => absurd rfl h, fun _ => rfl⟩, .of_idle rfl⟩

/-- A host event that resets the block is followed by the reset state, whatever the response port shows. -/
theorem hostEvent_of_resets (cfg : Config) (s : State) {e : HostEvent} (h : e.resets = true) :
    ∃ r, State.hostEvent cfg s e = { s.toReset with response := r } := by
  cases e with
  | read a => nomatch h
  | presetn => exact ⟨_, rfl⟩
  | write a v =>
    obtain ⟨ha, hv⟩ : a = 0x014#22 ∧ v.getLsbD 0 = true := by simpa [HostEvent.resets] using h
    subst ha
    refine ⟨.writeOk, ?_⟩
    rw [hostEvent_write (by decide), locOf_register cfg (by decide),
      show (registerMap.lookup (0x014#22).toNat).getD .reserved = .ctrl by decide]
    simp only [State.writeLoc, hv, if_true]

theorem SnapshotOk.keep {s t : State} (h : SnapshotOk s) (hseq : t.seq = s.seq)
    (hregs : s.busy = true → t.rng = s.rng ∧ t.stgCount = s.stgCount) : SnapshotOk t := by
  intro w o n hb
  rw [hseq] at hb
  obtain ⟨hrng, hcount⟩ := hregs (State.busy_of_busy hb)
  rw [hrng, hcount]
  exact h w o n hb

theorem inv_hostEvent {s : State} (h : Inv s) (e : HostEvent) : Inv (State.hostEvent Config.machine s e) := by
  obtain ⟨hstore, hcompl, hsnap⟩ := (inv_iff s).1 h
  cases hr : e.resets with
  | true =>
    obtain ⟨r, he⟩ := hostEvent_of_resets Config.machine s hr
    rw [he]
    exact { inv_toReset s with }
  | false =>
    obtain ⟨hmem, -, hlen, hdur, -, haddr, -⟩ := hostEvent_frame Config.machine s e hr
    rcases hostEvent_completion Config.machine s e hr with ⟨-, v, he⟩ | hkeep
    · rw [he]; exact inv_accept hstore v
    · refine (inv_iff _).2 ⟨hstore.congr hmem hlen hdur, hkeep.completionOk hcompl haddr,
        hsnap.keep hkeep.seq fun hb => ?_⟩
      obtain ⟨-, hrng, hcount, -⟩ := hostEvent_busy Config.machine s e hb hr
      exact ⟨hrng, hcount⟩

/-! ### The passing of time keeps it -/

theorem inv_tick {s : State} (h : Inv s) (es : List HostEvent) : Inv { s with inputs := es, seq := s.seq.tick } := by
  obtain ⟨hstore, hcompl, hsnap⟩ := (inv_iff s).1 h
  refine (inv_iff _).2 ⟨hstore.congr rfl rfl rfl, ?_⟩
  cases hseq : s.seq with
  | idle =>
    exact ⟨⟨fun h => (nomatch h), hcompl.errCode, hcompl.endReason,
      fun _ => hcompl.errAddr (State.busy_of_idle hseq)⟩, .of_idle rfl⟩
  | busy w o n =>
    exact ⟨⟨fun _ => hcompl.busyClear (State.busy_of_busy hseq), hcompl.errCode, hcompl.endReason,
      fun h => (nomatch h)⟩, fun _ _ _ h => by cases h; exact hsnap w o n hseq⟩

theorem inv_elapse {s : State} (h : Inv s) : Inv (s.elapse Config.machine) := by
  unfold State.elapse
  split
  · exact inv_tick h s.inputs
  · exact inv_hostEvent (inv_tick h _) _

/-- Settles O9: a step is a complete step, an illegal command's or the passing of time, and each keeps the
invariant. -/
theorem stepKeepsInvariant : Obligations.StepKeepsInvariant := by
  intro s t h hstep
  rcases step_cases s with ⟨w, i, -, -, he⟩ | ⟨w, e, -, -, he⟩ | ⟨-, he⟩ <;>
    obtain rfl := Host.Outcome.next.inj (he.symm.trans hstep)
  · exact inv_completeIn h i
  · exact inv_illegalCommand h
  · exact inv_elapse h

/-- Settles O33, by the frame of a host event. -/
theorem hostNeverWritesSampleMemories : Obligations.HostNeverWritesSampleMemories := by
  intro s e h
  obtain ⟨hmem, hepoch, hlen, hdur, hres, haddr, -⟩ := hostEvent_frame Config.machine s e h
  exact ⟨fun a => State.byteAt_eq (by rw [after, hmem]) hepoch, hlen, hdur, hres, haddr⟩

/-! ## The host's accesses to a register at its offset (20_memory.md R100) -/

/-- A register stands at an offset of the register map. -/
abbrev RegisterAt (k : Nat) (l : Loc) : Prop := k % 4 = 0 ∧ k < tblBase ∧ registerMap.lookup k = some l

namespace RegisterAt

variable {k : Nat} {l : Loc}

theorem toNat_at22 (h : RegisterAt k l) : (at22 k).toNat = k := by
  obtain ⟨-, hlt, -⟩ := h
  simp only [tblBase] at hlt
  rw [at22, BitVec.toNat_ofNat]; omega

theorem locOf_eq (h : RegisterAt k l) (cfg : Config) : locOf cfg (at22 k).toNat = l := by
  obtain ⟨-, hlt, hmap⟩ := id h
  rw [h.toNat_at22, locOf_register cfg hlt, hmap, Option.getD_some]

theorem aligned (h : RegisterAt k l) : (at22 k).toNat % 4 = 0 := by rw [h.toNat_at22]; exact h.1

theorem after_write (h : RegisterAt k l) (s : State) (v : Word) :
    after s (.write (at22 k) v) = { s.writeLoc v l with response := .writeOk } := by
  rw [after, hostEvent_write h.aligned, h.locOf_eq]

theorem read_response (h : RegisterAt k l) (s : State) :
    (after s (.read (at22 k))).response = .readOk (s.busRead Config.machine (Config.busyRead s.free) l) := by
  rw [after, hostEvent_read h.aligned, h.locOf_eq]

theorem read_idle (h : RegisterAt k l) {s : State} (hs : s.busy = false) :
    (after s (.read (at22 k))).response = .readOk (s.readLoc Config.machine l) := by
  rw [h.read_response, busRead_idle hs]

/-- A register that is neither STATUS nor a result reads its contents, idle or BUSY. -/
theorem read_current (h : RegisterAt k l) (hl : l ≠ .status ∧ l.isResult = false) (s : State) :
    (after s (.read (at22 k))).response = .readOk (s.readLoc Config.machine l) := by
  rw [h.read_response, busRead_current hl.1 hl.2]

end RegisterAt

theorem registerAt_low (r : PReg) : RegisterAt r.offset (.paramLo r) := by cases r <;> decide

theorem registerAt_high (r : PReg) : RegisterAt (r.offset + 4) (.paramHi r) := by cases r <;> decide

/-- The offsets of the tables of 10_state.md R47, R49, R50 are those of the model. -/
theorem regTable_offset : ∀ row ∈ regTable, row.offset = row.reg.offset := by decide

/-! ### Constant and parameter registers -/

/-- A register that reads the same idle or BUSY and ignores writes. -/
theorem RegisterAt.constant {k : Nat} {l : Loc} {x : Word} {s : State} {v : Word} (h : RegisterAt k l)
    (hl : l ≠ .status ∧ l.isResult = false) (hread : s.readLoc Config.machine l = x) (hwrite : s.writeLoc v l = s) :
    (after s (.read (at22 k))).response = .readOk x ∧ after s (.write (at22 k) v) = { s with response := .writeOk } :=
  ⟨by rw [h.read_current hl, hread], by rw [h.after_write, hwrite]⟩

/-- Settles O18: none of the three is a result, and a write to each does nothing. -/
theorem constantRegisters : Obligations.ConstantRegisters := by
  intro s v
  simp only [List.forall_mem_cons, List.not_mem_nil, false_imp_iff, implies_true, and_true]
  have id : RegisterAt 0x00 .id := by decide
  have sampleRate : RegisterAt 0x44 .sampleRate := by decide
  have caps : RegisterAt 0x4C .caps := by decide
  exact ⟨id.constant (by decide) rfl rfl, sampleRate.constant (by decide) rfl rfl, caps.constant (by decide) rfl rfl⟩

/-- A write that sets one parameter register changes no other and nothing else. -/
theorem paramWrite_frame {s t : State} {r : PReg} {x : F64}
    (h : t = { s with params := s.params.set r x, response := .writeOk }) :
    t = { s with params := t.params, response := .writeOk } ∧ t.params.get r = x ∧
      ∀ q, q ≠ r → t.params.get q = s.params.get q := by
  subst h
  exact ⟨rfl, Params.get_set_same _ _ _, fun _ hq => Params.get_set_ne _ hq _⟩

/-- Settles O20: each word is a location of its own. -/
theorem parameterWordsIndependent : Obligations.ParameterWordsIndependent := by
  intro row hrow s v
  have hlow := registerAt_low row.reg
  have hhigh := registerAt_high row.reg
  rw [← regTable_offset row hrow] at hlow hhigh
  exact ⟨⟨_, rfl, paramWrite_frame (hlow.after_write s v)⟩, ⟨_, rfl, paramWrite_frame (hhigh.after_write s v)⟩,
    fun hs => ⟨hlow.read_idle hs, hhigh.read_idle hs⟩⟩

/-! ### The other writable registers -/

/-- The low field of a word, as a read gives it back. -/
theorem setWidth_lowField {n : Nat} (hn : n ≤ 32) (v : Word) :
    (v.extractLsb' 0 n).setWidth 32 = v &&& BitVec.ofNat 32 (2 ^ n - 1) := by
  apply BitVec.eq_of_toNat_eq
  have hpow : 2 ^ n ≤ 2 ^ 32 := Nat.pow_le_pow_right (by decide) hn
  have hpos : 0 < 2 ^ n := Nat.two_pow_pos n
  have hmask : (2 ^ n - 1) % 2 ^ 32 = 2 ^ n - 1 := Nat.mod_eq_of_lt (by omega)
  have hlow : v.toNat % 2 ^ n % 2 ^ 32 = v.toNat % 2 ^ n :=
    Nat.mod_eq_of_lt ((Nat.mod_lt _ hpos).trans_le hpow)
  simp only [BitVec.toNat_setWidth, BitVec.extractLsb'_toNat, Nat.shiftRight_zero, BitVec.toNat_and,
    BitVec.toNat_ofNat, hmask, hlow, Nat.and_two_pow_sub_one_eq_mod]

/-- A write of RNG or FN_IN_LO takes effect while idle. -/
theorem RegisterAt.after_write_idle {k : Nat} {l : Loc} (h : RegisterAt k l) {s t : State} {v : Word}
    (hw : s.writeLoc v l = s.whenIdle t) (hs : s.busy = false) :
    after s (.write (at22 k) v) = { t with response := .writeOk } := by
  rw [h.after_write, hw, State.whenIdle, hs]; rfl

/-- Settles O21, register by register. -/
theorem otherRegisterWrites : Obligations.OtherRegisterWrites := by
  intro s v
  have note : RegisterAt 0x40 .note := by decide
  have irqEn : RegisterAt 0x10 .irqEn := by decide
  have waveType : RegisterAt 0x1B0 .waveType := by decide
  have rngLo : RegisterAt 0x18 .rngLo := by decide
  have rngHi : RegisterAt 0x1C .rngHi := by decide
  have fnInLo : RegisterAt 0x28 .fnInLo := by decide
  refine ⟨note.after_write s v, irqEn.after_write s v, waveType.after_write s v, ?_, ?_, ?_, fun hs =>
    ⟨rngLo.after_write_idle rfl hs, rngHi.after_write_idle rfl hs, fnInLo.after_write_idle rfl hs,
      rngLo.read_idle hs, rngHi.read_idle hs⟩⟩
  · rw [note.read_current (by decide), note.after_write]; rfl
  · rw [irqEn.read_current (by decide), irqEn.after_write]
    exact congrArg _ (setWidth_lowField (by decide) v)
  · rw [waveType.read_current (by decide), waveType.after_write]
    exact congrArg _ (setWidth_lowField (by decide) v)

/-! ### STATUS and CMD -/

theorem registerAt_status : RegisterAt 0x08 .status := by decide

theorem errCode_code_table : ∀ x ∈ [(ErrCode.none, 0#4), (.invalidNote, 1#4), (.emptyWavetable, 2#4),
    (.invalidParameter, 3#4), (.illegalCommand, 4#4), (.capacityExceeded, 5#4), (.shortWavetable, 6#4)],
    x.1.code = x.2 := by decide

theorem endReason_code_table : ∀ x ∈ [(EndReason.none, 0#2), (.envelope, 1#2), (.limit, 2#2)], x.1.code = x.2 := by
  decide

/-- Settles O26: the fields of the word that a read of STATUS returns, idle and BUSY. -/
theorem statusWord : Obligations.StatusWord := by
  intro s
  cases hb : s.busy with
  | false =>
    obtain ⟨hbusy, hdone, herr, hovr, hcode, hreason, hrsv⟩ := statusBits_fields s.busy s.status.done s.status.err
      s.status.ovr s.status.errCode.code s.status.endReason.code
    refine ⟨s.statusWord, registerAt_status.read_idle hb, hbusy.trans hb, hovr, ?_, ?_, hrsv, fun _ =>
      ⟨hdone, herr, fun x hx he => ?_, fun x hx he => ?_⟩⟩
    · exact hcode ▸ code_le _
    · exact hreason ▸ reason_le _
    · exact hcode.trans (he ▸ errCode_code_table x hx)
    · exact hreason.trans (he ▸ endReason_code_table x hx)
  | true =>
    have hread : (after s (.read (at22 0x08))).response = .readOk (s.busyStatusWord (Config.busyRead s.free)) := by
      rw [registerAt_status.read_response]; simp [State.busRead, hb]
    obtain ⟨hbusy, -, -, hovr, hcode, hreason, hrsv⟩ := statusBits_fields s.busy s.status.done s.status.err
      s.status.ovr (anyErrCode ((Config.busyRead s.free).extractLsb' 4 4))
      (anyEndReason ((Config.busyRead s.free).extractLsb' 8 2))
    refine ⟨_, hread, hbusy.trans hb, hovr, ?_, ?_, hrsv, fun h => (nomatch h)⟩
    · exact hcode ▸ anyErrCode_le _
    · exact hreason ▸ anyEndReason_le _

theorem and_not_eq_ite (b c : Bool) : (b && !c) = if c then false else b := by cases c <;> simp

/-- Settles O27: the acknowledgement of R33, bit by bit. -/
theorem statusWriteOneToClear : Obligations.StatusWriteOneToClear := by
  intro s v
  rw [registerAt_status.after_write]
  simp only [State.writeLoc, State.ackStatus, and_not_eq_ite]

/-- Settles O28: the write is the accept step, at the latency and with the counter the model draws. -/
theorem cmdWriteAccepts : Obligations.CmdWriteAccepts := by
  intro s w hs
  have cmd : RegisterAt 0x04 .cmd := by decide
  exact ⟨Config.latency s.free, s.free + 1, cmd.after_write_idle rfl hs⟩

end Machine
end Sys2Proof
end

section
/-! SUPPORT. The statements of 20_memory.md: what a step without a completion does (R109), reads without side effects
(R106), the words of the table and PCM windows (R101, R102), reserved, read-only and write-only offsets (R104), and a
running command that no host access reaches (R112). -/

namespace Sys2Proof
namespace Machine
open Claims

/-! ## Steps in which the core completes nothing (R109) -/

theorem step_of_not_ready {s : State} (h : s.ready? = none) : step s = .next (s.elapse Config.machine) := by
  simp only [step, h]

theorem elapse_cons {s : State} {e : HostEvent} {es : List HostEvent} (h : s.inputs = e :: es) :
    s.elapse Config.machine = after { s with inputs := es, seq := s.seq.tick } e := by
  simp only [State.elapse, h, after]

theorem elapse_nil (cfg : Config) {s : State} (h : s.inputs = []) : s.elapse cfg = { s with seq := s.seq.tick } := by
  simp only [State.elapse, h]

/-- Settles O7: neither an idle block nor one with latency left is ready to complete, so time passes; the tick leaves
an idle sequencer as it is and takes one from the latency. -/
theorem stepTakesHostEvent : Obligations.StepTakesHostEvent := by
  refine fun s => ⟨fun hseq e es hin => ?_, fun w o n hseq => ?_⟩
  · have htick : s.seq.tick = s.seq := by rw [hseq]; rfl
    rw [step_of_not_ready (s.ready_none_iff.2 (.inl hseq)), elapse_cons hin, htick]
  · have hstep := step_of_not_ready (s.ready_none_iff.2 (.inr ⟨w, o, n, hseq⟩))
    have htick : s.seq.tick = .busy w o n := by rw [hseq]; rfl
    exact ⟨fun e es hin => by rw [hstep, elapse_cons hin, htick], fun hin => by rw [hstep, elapse_nil _ hin, htick]⟩

/-! ## Reads (R106) -/

/-- A read moves the response port and the counter of free values at most. -/
theorem after_read_eq (s : State) (a : Offset) :
    ∃ r free, after s (.read a) = { s with response := r, free := free } := by
  by_cases ha : a.toNat % 4 = 0
  · exact ⟨_, _, hostEvent_read ha⟩
  · exact ⟨_, s.free, hostEvent_read_misaligned ha⟩

/-- No location shows the response port or the counter of free values. -/
theorem readLoc_set_response_free (cfg : Config) (s : State) (r : BusResponse) (free : Nat) (l : Loc) :
    State.readLoc cfg { s with response := r, free := free } l = s.readLoc cfg l := by
  cases l <;> rfl

theorem read_response_aligned (s : State) {a : Offset} (ha : a.toNat % 4 = 0) : (after s (.read a)).response =
    .readOk (s.busRead Config.machine (Config.busyRead s.free) (locOf Config.machine a.toNat)) := by
  rw [after, hostEvent_read ha]

theorem read_response_idle {s : State} (hs : s.busy = false) {a : Offset} (ha : a.toNat % 4 = 0) :
    (after s (.read a)).response = .readOk (s.readLoc Config.machine (locOf Config.machine a.toNat)) := by
  rw [read_response_aligned s ha, busRead_idle hs]

theorem read_response_misaligned (s : State) {a : Offset} (ha : a.toNat % 4 ≠ 0) :
    (after s (.read a)).response = .readError := by
  rw [after, hostEvent_read_misaligned ha]

/-- Settles O17: an idle read returns the contents of its location, which no read changes. -/
theorem readsHaveNoSideEffect : Obligations.ReadsHaveNoSideEffect := by
  refine fun s a => ⟨after_read_eq s a, fun hs => ?_⟩
  by_cases ha : a.toNat % 4 = 0
  · obtain ⟨r, free, hread⟩ := after_read_eq s a
    have hidle : (after s (.read a)).busy = false := by rw [hread]; exact hs
    rw [read_response_idle hidle ha, read_response_idle hs ha, hread, readLoc_set_response_free]
  · rw [read_response_misaligned _ ha, read_response_misaligned _ ha]

/-! ## The table and PCM windows (R101, R102) -/

/-- A word of a sample window stands at an offset. -/
structure WindowAt (k : Nat) : Prop where
  aligned : k % 4 = 0
  lt : k < 2 ^ 22
  locOf_eq : locOf Config.machine k = .sampleWord k

theorem windowAt_table {j : Nat} (h : j < 512) : WindowAt (tblBase + 4 * j) where
  aligned := by simp only [tblBase]; omega
  lt := by simp only [tblBase]; omega
  locOf_eq := locOf_table _ (by omega) (by omega)

theorem windowAt_pcm {j : Nat} (h : j < Config.machine.pcmCap / 2) : WindowAt (pcmBase + 4 * j) where
  aligned := by simp only [pcmBase]; omega
  lt := by
    have := Config.machine_legal.pcmCap_high
    simp only [pcmBase]; omega
  locOf_eq := locOf_pcm _ (by omega) (by omega)

namespace WindowAt

variable {k : Nat}

theorem toNat_at22 (h : WindowAt k) : (at22 k).toNat = k := by
  rw [at22, BitVec.toNat_ofNat, Nat.mod_eq_of_lt h.lt]

theorem aligned_at22 (h : WindowAt k) : (at22 k).toNat % 4 = 0 := by rw [h.toNat_at22, h.aligned]

theorem after_write (h : WindowAt k) (s : State) (v : Word) :
    after s (.write (at22 k) v) = { s with response := .writeOk } := by
  rw [after, hostEvent_write h.aligned_at22, h.toNat_at22, h.locOf_eq]; rfl

theorem read_idle (h : WindowAt k) {s : State} (hs : s.busy = false) :
    (after s (.read (at22 k))).response = .readOk (s.windowWord k) := by
  rw [read_response_idle hs h.aligned_at22, h.toNat_at22, h.locOf_eq]; rfl

end WindowAt

/-- Word `j` of a window is samples `2 * j` and `2 * j + 1`, the even one in the low half. -/
theorem windowWord_eq (s : State) (base j : Nat) :
    s.windowWord (base + 4 * j) = s.sampleAt (base + 2 * (2 * j + 1)) ++ s.sampleAt (base + 2 * (2 * j)) := by
  rw [State.windowWord, show base + 4 * j + 2 = base + 2 * (2 * j + 1) by ring,
    show base + 4 * j = base + 2 * (2 * j) by ring]

/-- Settles O25: a word of a window is two samples, a sample two bytes, and no write reaches a window. -/
theorem tableAndPcmWindows : Obligations.TableAndPcmWindows := by
  refine fun s => ⟨fun hs j hj => ?_, fun hs j hj => ?_, fun n => rfl, fun j v =>
    ⟨fun hj => (windowAt_table hj).after_write s v, fun hj => (windowAt_pcm hj).after_write s v⟩⟩
  · exact ((windowAt_table hj).read_idle hs).trans (congrArg _ (windowWord_eq s tblBase j))
  · exact ((windowAt_pcm hj).read_idle hs).trans (congrArg _ (windowWord_eq s pcmBase j))

/-! ## Reserved, read-only and write-only offsets (R100, R104) -/

/-- The registers stand below the table window, outside the reserved ranges there. -/
theorem registerMap_offset : ∀ x ∈ registerMap,
    x.1 < tblBase ∧ ¬ (0x50 ≤ x.1 ∧ x.1 < 0x100) ∧ ¬ (0x1B4 ≤ x.1 ∧ x.1 < 0x200) ∧ ¬ (0x250 ≤ x.1 ∧ x.1 < tblBase) := by
  decide

/-- The reserved ranges lie outside the windows, and no register stands in them. -/
theorem locOf_reserved {a : Nat} (h : reservedOffset a) : locOf Config.machine a = .reserved := by
  have htbl : ¬ (tblBase ≤ a ∧ a < tblBase + 2048) := by simp only [tblBase]; unfold reservedOffset at h; omega
  have hpcm : ¬ (pcmBase ≤ a ∧ a < pcmBase + 2 * Config.machine.pcmCap) := by
    simp only [pcmBase]; unfold reservedOffset at h; omega
  have hnone : registerMap.lookup a = none := by
    refine Option.eq_none_iff_forall_ne_some.2 fun l hl => ?_
    have := registerMap_offset _ (mem_of_lookup hl)
    simp only [tblBase] at this
    unfold reservedOffset at h
    omega
  rw [locOf, if_neg htbl, if_neg hpcm, hnone, Option.getD_none]

theorem RegisterAt.locOf_self {k : Nat} {l : Loc} (h : RegisterAt k l) (cfg : Config) : locOf cfg k = l := by
  rw [← h.locOf_eq cfg, h.toNat_at22]

/-- CMD, CTRL, SMP_IN and the two words of FN_IN read 0, idle or BUSY. -/
theorem writeOnly_registers : ∀ k ∈ [0x04, 0x14, 0x24, 0x28, 0x2C],
    ∃ l, RegisterAt k l ∧ (l ≠ .status ∧ l.isResult = false) ∧ ∀ cfg s, State.readLoc cfg s l = 0 := by
  simp only [List.forall_mem_cons, List.not_mem_nil, false_imp_iff, implies_true, and_true]
  exact ⟨⟨.cmd, by decide, by decide, fun _ _ => rfl⟩, ⟨.ctrl, by decide, by decide, fun _ _ => rfl⟩,
    ⟨.smpIn, by decide, by decide, fun _ _ => rfl⟩, ⟨.fnInLo, by decide, by decide, fun _ _ => rfl⟩,
    ⟨.fnInHi, by decide, by decide, fun _ _ => rfl⟩⟩

/-- A write to a read-only register does nothing. -/
theorem readOnly_registers : ∀ k ∈ [0x00, 0x0C, 0x20, 0x30, 0x34, 0x38, 0x3C, 0x44, 0x48, 0x4C],
    ∃ l, RegisterAt k l ∧ ∀ s v, State.writeLoc s v l = s := by
  simp only [List.forall_mem_cons, List.not_mem_nil, false_imp_iff, implies_true, and_true]
  exact ⟨⟨.id, by decide, fun _ _ => rfl⟩, ⟨.len, by decide, fun _ _ => rfl⟩, ⟨.stgCount, by decide, fun _ _ => rfl⟩,
    ⟨.durationLo, by decide, fun _ _ => rfl⟩, ⟨.durationHi, by decide, fun _ _ => rfl⟩,
    ⟨.resultLo, by decide, fun _ _ => rfl⟩, ⟨.resultHi, by decide, fun _ _ => rfl⟩,
    ⟨.sampleRate, by decide, fun _ _ => rfl⟩, ⟨.errAddr, by decide, fun _ _ => rfl⟩, ⟨.caps, by decide, fun _ _ => rfl⟩⟩

/-- A read of a reserved offset, of a write-only register or of CTRL returns 0, idle or BUSY. -/
theorem busRead_zero {a : Nat} (h : reservedOffset a ∨ a ∈ [0x04, 0x14, 0x24, 0x28, 0x2C]) (s : State) (v : Word) :
    s.busRead Config.machine v (locOf Config.machine a) = 0 := by
  rcases h with hres | hwo
  · rw [locOf_reserved hres, busRead_current (by decide) rfl]; rfl
  · obtain ⟨l, hl, hcur, hzero⟩ := writeOnly_registers a hwo
    rw [hl.locOf_self, busRead_current hcur.1 hcur.2, hzero]

/-- A write to a reserved offset, a read-only register or a window does nothing, idle or BUSY. -/
theorem writeLoc_ignored {a : Nat} (h : reservedOffset a ∨ readOnlyOffset a) (s : State) (v : Word) :
    s.writeLoc v (locOf Config.machine a) = s := by
  rcases h with hres | hro | ⟨hlo, hhi⟩ | ⟨hlo, hhi⟩
  · rw [locOf_reserved hres]; rfl
  · obtain ⟨l, hl, hw⟩ := readOnly_registers a hro
    rw [hl.locOf_self, hw]
  · rw [locOf_table _ hlo hhi]; rfl
  · rw [locOf_pcm _ hlo hhi]; rfl

/-- Settles O19: the location decides it for the reads and writes without effect; each result register reads its
contents while idle. -/
theorem reservedAndReadOnlyAccess : Obligations.ReservedAndReadOnlyAccess := by
  refine ⟨fun s a v ha => ⟨fun h => ?_, fun h => ?_⟩, fun s hs => ?_⟩
  · rw [read_response_aligned s ha, busRead_zero h]
  · rw [after, hostEvent_write ha, writeLoc_ignored h]
  · simp only [List.forall_mem_cons, List.not_mem_nil, false_imp_iff, implies_true, and_true]
    have len : RegisterAt 0x0C .len := by decide
    have stgCount : RegisterAt 0x20 .stgCount := by decide
    have durationLo : RegisterAt 0x30 .durationLo := by decide
    have durationHi : RegisterAt 0x34 .durationHi := by decide
    have resultLo : RegisterAt 0x38 .resultLo := by decide
    have resultHi : RegisterAt 0x3C .resultHi := by decide
    have errAddr : RegisterAt 0x48 .errAddr := by decide
    exact ⟨len.read_idle hs, stgCount.read_idle hs, durationLo.read_idle hs, durationHi.read_idle hs,
      resultLo.read_idle hs, resultHi.read_idle hs, errAddr.read_idle hs⟩

/-! ## The accepted command (R112) -/

/-- The operands of a running command are those of its snapshot, which the sequencer holds. -/
theorem operands_congr_of_busy {s t : State} (hs : s.busy = true) (h : t.seq = s.seq) : t.operands = s.operands := by
  cases hseq : s.seq with
  | idle => exact absurd (State.busy_of_idle hseq) (by rw [hs]; decide)
  | busy w o n => rw [State.operands_of_busy hseq, State.operands_of_busy (h.trans hseq)]

/-- Settles O23: while BUSY only a reset moves the sequencer. -/
theorem noHostAccessChangesAcceptedCommand : Obligations.NoHostAccessChangesAcceptedCommand := by
  intro s e hb he
  obtain ⟨hseq, -⟩ := hostEvent_busy Config.machine s e hb he
  exact ⟨hseq, operands_congr_of_busy hb hseq⟩

end Machine
end Sys2Proof
end

section
/-! SUPPORT. The statements of 30_encoding.md: what a decoded opcode says of its command, decoding against encoding
(R142, R145), and the rows of the opcode map (R143, R144). -/

namespace Sys2Proof
open Claims

/-! ## Decoding and encoding (R142, R143, R145) -/

theorem requireNoSel_ok {sel : BitVec 2} {i j : Instr} (h : requireNoSel sel j = .ok i) : sel = 0 ∧ j = i := by
  unfold requireNoSel at h
  split at h
  · exact ⟨‹_›, Except.ok.inj h⟩
  · nomatch h

/-- An opcode whose SEL must be 0 decodes to no command but the one whose word is that opcode with SEL = 0. -/
theorem requireNoSel_encode {op : BitVec 8} {sel : BitVec 2} {i j : Instr} (h : requireNoSel sel j = .ok i)
    (hwf : j.wellFormed = true) (he : encode j = formatC op 0) :
    i.wellFormed = true ∧ encode i = formatC op sel := by
  obtain ⟨rfl, rfl⟩ := requireNoSel_ok h
  exact ⟨hwf, he⟩

/-- The fields OP and SEL that decode to a command are those of the command's word. -/
theorem decodeOp_ok {op : BitVec 8} {sel : BitVec 2} {i : Instr} (h : decodeOp op sel = .ok i) :
    i.wellFormed = true ∧ encode i = formatC op sel := by
  simp only [decodeOp, ite_eq_iff] at h
  obtain ⟨rfl, h⟩ | ⟨-, ⟨rfl, h⟩ | ⟨-, ⟨rfl, h⟩ | ⟨-, ⟨rfl, h⟩ | ⟨-, ⟨rfl, h⟩ | ⟨-, ⟨rfl, h⟩ | ⟨-, ⟨rfl, h⟩ |
    ⟨-, ⟨rfl, h⟩ | ⟨-, ⟨rfl, h⟩ | ⟨-, ⟨rfl, ⟨hsel, h⟩ | ⟨-, h⟩⟩ | ⟨-, h⟩⟩⟩⟩⟩⟩⟩⟩⟩⟩ := h
  · exact requireNoSel_encode h rfl rfl
  · cases h; exact ⟨rfl, rfl⟩
  · exact requireNoSel_encode h rfl rfl
  · exact requireNoSel_encode h rfl rfl
  · exact requireNoSel_encode h rfl rfl
  · exact requireNoSel_encode h rfl rfl
  · exact requireNoSel_encode h rfl rfl
  · exact requireNoSel_encode h rfl rfl
  · cases h; exact ⟨rfl, rfl⟩
  · cases h; exact ⟨hsel, rfl⟩
  · nomatch h
  · nomatch h

/-- Settles O2: a command's word is of format C, and its opcode decodes to it with any selector it admits. -/
theorem decodeInvertsEncode : Obligations.DecodeInvertsEncode := by
  intro i hwf
  cases i with
  | envEval sel =>
    calc decode (encode (.envEval sel))
      _ = decodeOp 0x32#8 sel := decode_formatC _ _
      _ = .ok (.envEval sel) := if_pos hwf
  | tblPreset sel | oscGen sel => exact decode_formatC _ sel
  | nop | tblCommit | stgClear | renderTone | renderEffect | noteResolve | lookup => exact decode_formatC _ 0

/-- Settles O3: the word is of format C with the opcode and the selector of the decoded command. -/
theorem decodeOnlyEncodings : Obligations.DecodeOnlyEncodings := by
  intro w i h
  obtain ⟨op, sel, rfl, hop⟩ := decode_ok h
  exact decodeOp_ok hop

/-- Settles O1: each word is that of its command. -/
theorem knownWordsDecode : Obligations.KnownWordsDecode := by
  have h := decodeInvertsEncode
  exact ⟨h .nop rfl, h (.tblPreset 3) rfl, h .tblCommit rfl, h .stgClear rfl, h .renderTone rfl, h .renderEffect rfl,
    h .noteResolve rfl, h .lookup rfl, h (.oscGen 3) rfl, h (.envEval 1) rfl⟩

/-! ## The opcode map (R143, R144) -/

theorem opcodeMap_rows : opcodeMap.map (fun r => (r.mnemonic, r.matchBits, r.mask)) = opcodeRows := rfl

theorem encoding_statement (i : Instr) : Laws.Encoding.Statement i := by
  cases i with
  | nop => exact Laws.Encoding.nop
  | tblPreset sel => exact Laws.Encoding.tblPreset sel
  | tblCommit => exact Laws.Encoding.tblCommit
  | stgClear => exact Laws.Encoding.stgClear
  | renderTone => exact Laws.Encoding.renderTone
  | renderEffect => exact Laws.Encoding.renderEffect
  | noteResolve => exact Laws.Encoding.noteResolve
  | lookup => exact Laws.Encoding.lookup
  | oscGen sel => exact Laws.Encoding.oscGen sel
  | envEval sel => exact Laws.Encoding.envEval sel

/-- The word of a well-formed command matches the row with the command's mnemonic. -/
theorem encode_matchesRow {i : Instr} (hwf : i.wellFormed = true) :
    ∃ row ∈ opcodeRows, row.1 = i.mnemonic ∧ matchesRow (encode i) row := by
  obtain ⟨r, hr, hname, hmatch⟩ := encoding_statement i hwf
  refine ⟨(r.mnemonic, r.matchBits, r.mask), ?_, hname, beq_iff_eq.1 hmatch⟩
  rw [← opcodeMap_rows]
  exact List.mem_map_of_mem hr

/-- Every row fixes OP and RSV, the latter to 0. -/
theorem opcodeRows_fields : ∀ row ∈ opcodeRows, opField row.2.2 = BitVec.allOnes 8 ∧
    rsvField row.2.2 = BitVec.allOnes 22 ∧ rsvField row.2.1 = 0 := by decide

/-- A row's OP, with any SEL that the row admits, decodes to the command of the row's mnemonic. -/
theorem opcodeRows_decodeOp : ∀ row ∈ opcodeRows, ∀ sel : BitVec 2, sel &&& selField row.2.2 = selField row.2.1 →
    (decodeOp (opField row.2.1) sel).map Instr.mnemonic = .ok row.1 := by decide

theorem opField_and (v w : Word) : opField (v &&& w) = opField v &&& opField w := BitVec.extractLsb'_and

theorem selField_and (v w : Word) : selField (v &&& w) = selField v &&& selField w := BitVec.extractLsb'_and

theorem rsvField_and (v w : Word) : rsvField (v &&& w) = rsvField v &&& rsvField w := BitVec.extractLsb'_and

/-- A word that matches a row has RSV = 0, the row's OP, and a SEL that the row admits. -/
theorem matchesRow_fields {w : Word} {row : String × Word × Word} (hrow : row ∈ opcodeRows) (h : matchesRow w row) :
    rsvField w = 0 ∧ opField w = opField row.2.1 ∧ selField w &&& selField row.2.2 = selField row.2.1 := by
  obtain ⟨hopMask, hrsvMask, hrsv⟩ := opcodeRows_fields row hrow
  refine ⟨?_, ?_, ?_⟩
  · calc rsvField w
      _ = rsvField (w &&& row.2.2) := by rw [rsvField_and, hrsvMask, BitVec.and_allOnes]
      _ = 0 := by rw [h, hrsv]
  · calc opField w
      _ = opField (w &&& row.2.2) := by rw [opField_and, hopMask, BitVec.and_allOnes]
      _ = opField row.2.1 := by rw [h]
  · rw [← selField_and, h]

theorem decode_of_matchesRow {w : Word} {row : String × Word × Word} (hrow : row ∈ opcodeRows)
    (h : matchesRow w row) : ∃ i, decode w = .ok i ∧ i.mnemonic = row.1 := by
  obtain ⟨hrsv, hop, hsel⟩ := matchesRow_fields hrow h
  have hdec := opcodeRows_decodeOp row hrow (selField w) hsel
  rw [decode, if_pos hrsv, hop]
  cases hd : decodeOp (opField row.2.1) (selField w) with
  | ok i => exact ⟨i, rfl, by rw [hd] at hdec; exact Except.ok.inj hdec⟩
  | error e => rw [hd] at hdec; nomatch hdec

theorem opcodeRows_eq_of_mnemonic : ∀ row ∈ opcodeRows, ∀ row' ∈ opcodeRows, row.1 = row'.1 → row = row' := by decide

/-- Settles O4: a decoded command's word matches the command's row, a word that matches a row decodes to the row's
command, and so two rows that match one word have one mnemonic. -/
theorem opcodeMapDecidesLegality : Obligations.OpcodeMapDecidesLegality := by
  refine fun w => ⟨fun i hdec => ?_, fun row hrow => decode_of_matchesRow hrow, fun row hrow row' hrow' h h' => ?_⟩
  · obtain ⟨hwf, rfl⟩ := decodeOnlyEncodings w i hdec
    exact encode_matchesRow hwf
  · obtain ⟨i, hi, hname⟩ := decode_of_matchesRow hrow h
    obtain ⟨i', hi', hname'⟩ := decode_of_matchesRow hrow' h'
    obtain rfl : i = i' := Except.ok.inj (hi.symm.trans hi')
    exact opcodeRows_eq_of_mnemonic row hrow row' hrow' (hname.symm.trans hname')

end Sys2Proof
end

section
/-! SUPPORT. The statements of 40_waveform_table.md: staging (R201, R202), the table that TBL_COMMIT and TBL_PRESET
write (R200, R205, R207, R210 to R212), STG_CLEAR (R215), and LOOKUP (R216, R218). -/

namespace Sys2Proof

namespace F64
open Claims Config

/-! ## Literals of the rules -/

theorem lit_two : lit 2 1 = two := by decide +kernel
theorem lit_four : lit 4 1 = four := by decide +kernel
theorem lit_half : lit 1 2 = half := by decide +kernel
theorem lit_tableSpan : lit 1023 1 = tableSpan := by decide +kernel

/-! ## Conversion of staged function values (R202) -/

theorem tableValue_of_isNaN {v : F64} (h : v.isNaN = true) : tableValue v = 0 := if_pos h

theorem tableValue_posInf : tableValue (inf false) = 32767 := by decide +kernel

theorem tableValue_negInf : tableValue (inf true) = -32767 := by decide +kernel

theorem toInt_tconv (v : F64) : v.tconv.toInt = tableValue v := (sampleConversions v).2.1

/-! ## The position of a phase in the table (R216) -/

theorem roundMag_zero (den : Nat) : roundMag 0 den = 0 := by simp [roundMag]

/-- The product of two values that are not below 0 is not below 0. -/
theorem units_mul_nonneg {x y : F64} (hx : x.isFinite = true) (hy : y.isFinite = true) (x0 : 0 ≤ x.units)
    (y0 : 0 ≤ y.units) : 0 ≤ (x.mul y).units := by
  have hprod := Int.mul_nonneg x0 y0
  rw [units_mul] at hprod
  rw [mul_finite hx hy, units_ofSign _ (roundMag_lt _ _)]
  split
  · next hneg =>
    rw [if_pos hneg] at hprod
    rw [show x.magUnits * y.magUnits = 0 by omega, roundMag_zero, val_zero]
    rfl
  · exact Int.natCast_nonneg _

theorem tableSpan_isFinite : tableSpan.isFinite = true := by decide

theorem units_tableSpan : tableSpan.units = 1023 * unitsPerOne := by decide +kernel

/-- The position `p * 1023.0` of a phase lies in [0, 1023]. -/
theorem mul_tableSpan_of_isPhase {p : F64} (hp : p.isPhase = true) :
    (p.mul tableSpan).isFinite = true ∧ 0 ≤ (p.mul tableSpan).units ∧
      (p.mul tableSpan).units ≤ 1023 * unitsPerOne := by
  obtain ⟨hfin, h0, h1⟩ := (isPhase_iff p).1 hp
  have hspan := units_tableSpan
  have hbipolar : p.inBipolar = true := (inBipolar_iff p).2 ⟨hfin, by rw [magUnits_natAbs]; omega⟩
  obtain ⟨hxfin, hxmag⟩ := mul_finite_of_bipolar hbipolar tableSpan_isFinite
  rw [magUnits_natAbs, magUnits_natAbs] at hxmag
  exact ⟨hxfin, units_mul_nonneg hfin tableSpan_isFinite h0 (by omega), by omega⟩

/-- The distance of a table position from an index of the table is finite. -/
theorem sub_ofInt_isFinite {x : F64} {k : Int} (hfin : x.isFinite = true) (h0 : 0 ≤ x.units)
    (h1 : x.units ≤ 1023 * unitsPerOne) (hk0 : 0 ≤ k) (hk1 : k ≤ 1023) : (x.sub (ofInt k)).isFinite = true := by
  have hz := units_zero
  have hspan := units_tableSpan
  have hU : (0 : Int) ≤ unitsPerOne := Int.natCast_nonneg _
  obtain ⟨kfin, k0, k1⟩ := roundUnits_between false (z := k * unitsPerOne) zero_isFinite tableSpan_isFinite
    (by rw [hz]; exact Int.mul_nonneg hk0 hU) (by rw [hspan]; exact Int.mul_le_mul_of_nonneg_right hk1 hU)
  rw [← ofInt] at kfin k0 k1
  rw [sub_finite hfin kfin]
  have hneg : (neg tableSpan).isFinite = true := by rw [isFinite_neg]; exact tableSpan_isFinite
  exact (roundUnits_between _ hneg tableSpan_isFinite (by rw [units_neg]; omega) (by omega)).1

theorem ofInt_zero : ofInt 0 = zero := by decide +kernel

/-- Interpolation between two zeros gives +0.0. -/
theorem zero_add_mul_zero {x : F64} (h : x.isFinite = true) : zero.add (x.mul zero) = zero := by
  rw [mul_finite h zero_isFinite, show zero.magUnits = 0 by decide, Nat.mul_zero, roundMag_zero]
  cases x.signBit != zero.signBit <;> decide +kernel

end F64

namespace Machine
open Claims

/-! ## The domain check against the register tables (60_exceptions.md R443) -/

theorem allRegs_offset_injective : ∀ r ∈ allRegs, ∀ q ∈ allRegs, r.offset = q.offset → r = q := by decide

theorem PReg.offset_injective {r q : PReg} (h : r.offset = q.offset) : r = q :=
  allRegs_offset_injective r (mem_allRegs r) q (mem_allRegs q) h

/-- The domains of the register tables are those of the model. -/
theorem regTable_admits (v : F64) : ∀ row ∈ regTable, row.admits v = row.reg.domain.admits v := by
  simp [regTable, effectRows, toneRows, RegRow.admits, unipolar, bipolar, nonneg, PReg.domain, Domain.admits,
    F64.inUnit, F64.inBipolar, F64.inRange, F64.isNonneg]

theorem exists_row (r : PReg) : ∃ row ∈ regTable, row.reg = r := by cases r <;> decide

/-- A command's operands are in domain exactly when the check of its registers finds none that is not. -/
theorem operandsOk_iff {i : Instr} {regs : List PReg} (h : checkedOffsets i = regs.map PReg.offset) (s : State) :
    operandsOk i s ↔ s.operands.firstBad regs = none := by
  rw [Snapshot.firstBad_none_iff]
  have hrow : ∀ row ∈ regTable, rowOk s row = s.operands.inDomain row.reg := fun row hr => regTable_admits _ row hr
  constructor
  · intro hok r hr
    obtain ⟨row, hmem, rfl⟩ := exists_row r
    rw [← hrow row hmem]
    exact hok row hmem (by rw [h, regTable_offset row hmem]; exact List.mem_map_of_mem hr)
  · intro hok row hmem hoff
    rw [h, regTable_offset row hmem] at hoff
    obtain ⟨r, hr, heq⟩ := List.mem_map.1 hoff
    rw [hrow row hmem, ← PReg.offset_injective heq]
    exact hok r hr

/-- A check of one register fails with that register's offset. -/
theorem Snapshot.firstBad_singleton {o : Snapshot} {r : PReg} (h : o.firstBad [r] ≠ none) :
    o.firstBad [r] = some r := by
  obtain ⟨q, hq⟩ := Option.ne_none_iff_exists'.1 h
  rw [hq, List.mem_singleton.1 (Snapshot.firstBad_some hq).1]

/-! ## Completion under a configuration -/

theorem runs_completeIn (cfg : Config) (i : Instr) (s : State) : runs cfg i s (completeIn cfg s i) :=
  ⟨rfl, fun h => h ▸ exec_eq_next i s⟩

/-! ## Staging (R201, R202) -/

/-- A write that needs an idle block is dropped while BUSY and sets OVR (10_state.md R52). -/
theorem RegisterAt.after_write_busy {k : Nat} {l : Loc} (h : RegisterAt k l) {s t : State} {v : Word}
    (hw : s.writeLoc v l = s.whenIdle t) (hs : s.busy = true) :
    after s (.write (at22 k) v) = { s with status := { s.status with ovr := true }, response := .writeOk } := by
  rw [h.after_write, hw, State.whenIdle, hs]; rfl

/-- An append writes the entry at the count, if there is one, and no other. -/
theorem stage_stg_get (s : State) (v : Sample) (k : Fin 1024) :
    (s.stage v).stg[k] = if s.stgCount.toNat = k.val then v else s.stg[k] := by
  rw [State.stage_stg]
  split
  · exact Vector.getElem_set ..
  · next hfull => rw [if_neg (by omega)]

/-- The count saturates at its largest value. -/
theorem stage_stgCount_toNat (s : State) (v : Sample) :
    (s.stage v).stgCount.toNat = min (s.stgCount.toNat + 1) (2 ^ 32 - 1) := by
  rw [State.stage_stgCount]
  split
  · bv_omega
  · omega

/-- What an append does: one entry, the count, and nothing else but the response of the write that asked for it. -/
theorem stage_appends {s t : State} {v : Sample} (h : t = { s.stage v with response := .writeOk }) :
    t = { s with stg := t.stg, stgCount := t.stgCount, response := .writeOk } ∧
      (∀ k : Fin 1024, t.stg[k] = if s.stgCount.toNat = k.val then v else s.stg[k]) ∧
      t.stgCount.toNat = min (s.stgCount.toNat + 1) (2 ^ 32 - 1) := by
  subst h
  exact ⟨rfl, stage_stg_get s v, stage_stgCount_toNat s v⟩

/-- Settles O31: the write is an append of the low half of the word. -/
theorem smpInAppends : Obligations.SmpInAppends := by
  intro s v
  have smpIn : RegisterAt 0x24 .smpIn := by decide
  exact ⟨fun hs => ⟨_, rfl, stage_appends (smpIn.after_write_idle rfl hs)⟩, smpIn.after_write_busy rfl⟩

/-- Settles O32: the write is an append of the converted value. -/
theorem fnInAppends : Obligations.FnInAppends := by
  intro s v hs
  have fnInHi : RegisterAt 0x2C .fnInHi := by decide
  obtain ⟨hframe, hstg, hcount⟩ := stage_appends (fnInHi.after_write_idle rfl hs)
  refine ⟨_, _, rfl, rfl, hframe, fun k => ?_, hcount, F64.tableValue_of_isNaN, fun h => h ▸ F64.tableValue_posInf,
    fun h => h ▸ F64.tableValue_negInf⟩
  rw [hstg, apply_ite BitVec.toInt, F64.toInt_tconv]; rfl

/-- Settles O35, by the meaning of the command. -/
theorem stgClearCompletes : Obligations.StgClearCompletes := fun s => exec_eq_next .stgClear s

/-! ## The table a command writes (R200) -/

/-- Writing 1024 samples builds every entry of the table and touches no other byte. -/
theorem table_written {s t : State} {f : Nat → Sample}
    (hmem : t.mem = Memory.writeBlock s.mem tblBase (samplesBytes ((List.range 1024).map f)))
    (hepoch : t.pcmEpoch = s.pcmEpoch) : (∀ k < 1024, t.tbl k = f k) ∧ sameBytesOutside s t 0x800 2048 := by
  refine ⟨fun k hk => ?_, fun a ha => ?_⟩
  · refine State.sampleAt_writeBlock_inside t s.mem tblBase k _ _ hmem ?_
    rw [List.getElem?_map, List.getElem?_range hk, Option.map_some]
  · refine State.byteAt_writeBlock_outside s t tblBase _ a hmem hepoch ?_
    rw [samplesBytes_length, List.length_map, List.length_range]
    exact ha

/-! ## TBL_COMMIT (R210 to R212) -/

theorem tblCommitStep_error {cfg : Config} {s : State} {code : ErrCode}
    (h : commitTable cfg s.stgAt s.operands.stgCount.toNat = .error code) : tblCommitStep cfg s = failed s code 0 := by
  rw [tblCommitStep, h]; rfl

theorem tblCommitStep_ok {cfg : Config} {s : State} {vs : List Sample}
    (h : commitTable cfg s.stgAt s.operands.stgCount.toNat = .ok vs) :
    tblCommitStep cfg s = { (s.storeTable vs).finish .none with stgCount := 0 } := by
  rw [tblCommitStep, h]

theorem commitTable_empty (cfg : Config) (stg : Nat → Sample) : commitTable cfg stg 0 = .error .emptyWavetable := rfl

theorem commitTable_full (cfg : Config) (stg : Nat → Sample) {n : Nat} (h : 1024 ≤ n) :
    commitTable cfg stg n = .ok ((List.range 1024).map stg) := by
  rw [commitTable, if_neg (by omega), if_neg (by omega)]

theorem commitTable_reject {cfg : Config} (hp : cfg.shortPolicy = .reject) (stg : Nat → Sample) {n : Nat} (h1 : 1 ≤ n)
    (h2 : n < 1024) : commitTable cfg stg n = .error .shortWavetable := by
  rw [commitTable, if_neg (by omega), if_pos h2, hp]; rfl

/-- The index of a resampled entry, bounded by the last pair of staged values. -/
theorem toNat_min_sub_two (j : Int) {n : Nat} (h : 2 ≤ n) :
    (min j ((n : Int) - 2)).toNat = if j ≤ (n : Int) - 2 then j.toNat else n - 2 := by
  split <;> omega

theorem shortEntry_resample (stg : Nat → Sample) {n : Nat} (h : 1 ≤ n) (k : Nat) :
    shortEntry .resample stg n k = some (resampleAt stg n k) := by
  rw [shortEntry, resampleAt]
  split
  · rfl
  · next hne => rw [F64.lit_tableSpan]; simp only [toNat_min_sub_two _ (show 2 ≤ n by omega)]

/-- Every policy but REJECT makes a table of the entries of R211. -/
theorem shortTable_entries {policy : ShortPolicy} (hp : policy ≠ .reject) (stg : Nat → Sample) {n : Nat} (h : 1 ≤ n) :
    ∃ f, shortTable policy stg n = some ((List.range 1024).map f) ∧ ∀ k, shortEntry policy stg n k = some (f k) := by
  cases policy with
  | reject => exact absurd rfl hp
  | zeroPad | repeatSeq => exact ⟨_, rfl, fun _ => rfl⟩
  | resample => exact ⟨_, rfl, shortEntry_resample stg h⟩

theorem commitTable_short {cfg : Config} {stg : Nat → Sample} {n : Nat} {vs : List Sample} (h1 : 1 ≤ n) (h2 : n < 1024)
    (h : shortTable cfg.shortPolicy stg n = some vs) : commitTable cfg stg n = .ok vs := by
  rw [commitTable, if_neg (by omega), if_pos h2, h]

/-- A commit of a table clears STG_COUNT, builds the table and changes nothing else. -/
theorem tblCommitStep_written {cfg : Config} {s : State} {f : Nat → Sample}
    (h : commitTable cfg s.stgAt s.operands.stgCount.toNat = .ok ((List.range 1024).map f)) :
    tblCommitStep cfg s = { succeeded s .none with stgCount := 0, mem := (tblCommitStep cfg s).mem } ∧
      (∀ k < 1024, (tblCommitStep cfg s).tbl k = f k) ∧ sameBytesOutside s (tblCommitStep cfg s) 0x800 2048 := by
  rw [tblCommitStep_ok h]
  exact ⟨rfl, table_written rfl rfl⟩

/-- Settles O36: the two ends of the commit source rule of R210. -/
theorem tblCommitFullOrEmpty : Obligations.TblCommitFullOrEmpty := by
  refine fun s => ⟨fun hempty => ?_, fun hfull => ?_⟩
  · rw [exec_eq_next, completeIn, tblCommitStep_error (by rw [hempty]; exact commitTable_empty _ _)]
  · obtain ⟨hframe, htbl, hbytes⟩ := tblCommitStep_written (commitTable_full Config.machine s.stgAt hfull)
    refine ⟨_, exec_eq_next .tblCommit s, hframe, fun k => ?_, hbytes⟩
    exact (htbl k k.isLt).trans (dif_pos k.isLt)

/-- Settles O37: REJECT makes no table, every other policy the entries of R211. -/
theorem tblCommitShort : Obligations.TblCommitShort := by
  refine fun cfg s h1 h2 => ⟨fun hp => ?_, fun hp => ?_⟩
  · rw [← tblCommitStep_error (commitTable_reject hp s.stgAt h1 h2)]
    exact runs_completeIn cfg .tblCommit s
  · obtain ⟨f, hshort, hentry⟩ := shortTable_entries hp s.stgAt h1
    obtain ⟨hframe, htbl, hbytes⟩ := tblCommitStep_written (commitTable_short h1 h2 hshort)
    refine ⟨_, runs_completeIn cfg .tblCommit s, hframe, fun k hk => ?_, hbytes⟩
    exact (hentry k).trans (congrArg some (htbl k hk).symm)

/-! ## TBL_PRESET (R203 to R207) -/

theorem checkedOffsets_tblPreset :
    ∀ sel, checkedOffsets (.tblPreset sel) = (presetOperands (.ofBits sel)).map PReg.offset := by decide

/-- Only the square checks a register. -/
theorem presetOperands_eq : ∀ sel, presetOperands (.ofBits sel) = if sel = 1 then [.tblDuty] else [] := by decide

theorem selector_cases : ∀ sel : BitVec 2, sel = 0 ∨ sel = 1 ∨ sel = 2 ∨ sel = 3 := by decide

theorem presetAt_ofBits (sel : BitVec 2) (d p : F64) :
    presetAt Config.machine d p (.ofBits sel) = presetGenerator sel d p := by
  rw [presetGenerator, F64.lit_two, F64.lit_four, F64.lit_half]
  rcases selector_cases sel with rfl | rfl | rfl | rfl <;> rfl

/-- TBL_PRESET with its checked register in domain builds the table and changes nothing else. -/
theorem tblPresetStep_written {cfg : Config} {sel : BitVec 2} {s : State}
    (h : s.operands.firstBad (presetOperands (.ofBits sel)) = none) :
    tblPresetStep cfg sel s = { succeeded s .none with mem := (tblPresetStep cfg sel s).mem } ∧
      (∀ k < 1024, (tblPresetStep cfg sel s).tbl k =
        (presetAt cfg s.operands.params.tblDuty (tablePoint k) (.ofBits sel)).tconv) ∧
      sameBytesOutside s (tblPresetStep cfg sel s) 0x800 2048 := by
  rw [tblPresetStep_ok h]
  exact ⟨rfl, table_written rfl rfl⟩

/-- Settles O38: the check of the preset's registers decides it, and only the square can fail it. -/
theorem tblPresetBuilds : Obligations.TblPresetBuilds := by
  intro sel s
  rw [operandsOk_iff (checkedOffsets_tblPreset sel), exec_eq_next, completeIn]
  refine ⟨fun hok => ?_, fun hbad => ?_⟩
  · obtain ⟨hframe, htbl, hbytes⟩ := tblPresetStep_written (cfg := Config.machine) hok
    refine ⟨_, rfl, hframe, fun k hk => ?_, hbytes⟩
    rw [htbl k hk, F64.toInt_tconv, presetAt_ofBits, tablePoint, F64.lit_tableSpan]
  · rw [presetOperands_eq] at hbad
    by_cases hsel : sel = 1
    · rw [if_pos hsel] at hbad
      subst hsel
      exact ⟨rfl, congrArg _ (State.checked_of_bad (Snapshot.firstBad_singleton hbad) _)⟩
    · rw [if_neg hsel] at hbad
      exact absurd rfl hbad

/-! ## LOOKUP (R216, R218) -/

/-- The check of LOOKUP is that its phase is finite. -/
theorem firstBad_uPhase (o : Snapshot) : o.firstBad [.uPhase] = none ↔ o.params.uPhase.isFinite = true := by
  rw [Snapshot.firstBad_none_iff, List.forall_mem_singleton]; rfl

theorem lookupStep_bad {cfg : Config} {s : State} (h : s.operands.params.uPhase.isFinite = false) :
    lookupStep cfg s = failed s .invalidParameter 0x238 :=
  State.checked_of_bad (Snapshot.firstBad_singleton fun hok => by rw [(firstBad_uPhase _).1 hok] at h; nomatch h) _

/-- The index of a position that is not below 0 is one of the first 1023 entries. -/
theorem tableIndex_range {x : F64} (hfin : x.isFinite = true) (h0 : 0 ≤ x.units) :
    0 ≤ min x.floor 1022 ∧ min x.floor 1022 ≤ 1022 :=
  ⟨le_min ((F64.le_floor_iff hfin 0).2 (by rwa [Int.zero_mul])) (by decide), min_le_right _ _⟩

/-- The two readings of R216 agree, because an index is not below 0. -/
theorem lookupAt_eq_lookupFormula (tbl : Nat → Sample) (phase : F64) :
    lookupAt Config.machine tbl phase = lookupFormula tbl phase := by
  obtain ⟨hfin, h0, -⟩ := F64.mul_tableSpan_of_isPhase (F64.wrap_isPhase Config.machine_legal phase)
  have hnext := Int.toNat_add (tableIndex_range hfin h0).1 (show (0 : Int) ≤ 1 by decide)
  rw [lookupFormula, F64.lit_tableSpan]
  simp only [← min_def, hnext]
  rfl

/-- Over a table of zeros the interpolated value is +0.0, whatever the phase. -/
theorem lookupAt_zero {cfg : Config} (hc : cfg.Legal) {tbl : Nat → Sample} (h : ∀ k < 1024, tbl k = 0) (phase : F64) :
    lookupAt cfg tbl phase = F64.zero := by
  obtain ⟨hfin, h0, h1⟩ := F64.mul_tableSpan_of_isPhase (F64.wrap_isPhase hc phase)
  obtain ⟨hk0, hk1⟩ := tableIndex_range hfin h0
  have hzero : ∀ k < 1024, (tbl k).toInt = 0 := fun k hk => by rw [h k hk]; rfl
  rw [lookupAt]
  simp (disch := omega) only [hzero, Int.sub_self, F64.ofInt_zero]
  exact F64.zero_add_mul_zero (F64.sub_ofInt_isFinite hfin h0 h1 hk0 (by omega))

/-- Settles O40: the check of the phase decides it. -/
theorem lookupInterpolates : Obligations.LookupInterpolates := by
  intro s
  rw [exec_eq_next, completeIn, ← lookupAt_eq_lookupFormula]
  exact ⟨fun h => congrArg _ (lookupStep_ok ((firstBad_uPhase _).2 h)), fun h => congrArg _ (lookupStep_bad h)⟩

/-- Settles O41: the two entries between which LOOKUP interpolates are zeros. -/
theorem lookupOfZeroTable : Obligations.LookupOfZeroTable := fun s htbl hphase =>
  ⟨_, (lookupInterpolates s).1 hphase, by
    rw [← lookupAt_eq_lookupFormula]; exact lookupAt_zero Config.machine_legal htbl _⟩

end Machine
end Sys2Proof
end

section
/-! SUPPORT. The statements of 41_envelope.md: ENV_EVAL under both selectors (R241, R242, R250 to R252), the range and
the fixed points of the tone envelope (R243, R249), and zero durations (R248). -/

namespace Sys2Proof

namespace F64
open Config

theorem inRange_iff (lo hi x : F64) :
    inRange lo hi x = true ↔ x.isFinite = true ∧ lo.le x = true ∧ x.le hi = true := by
  rw [inRange, Bool.and_eq_true, Bool.and_eq_true, and_assoc]

/-! ## Zeros of either sign -/

theorem isZero_iff (x : F64) : isZero x = true ↔ x.isFinite = true ∧ x.units = 0 := by
  constructor
  · intro h
    have hkey : x.orderKey = 0 := by
      rw [isZero, eq, Bool.and_eq_true, decide_eq_true_eq] at h
      exact h.2
    have hfin : x.isFinite = true := by
      rw [isFinite_iff, ← natAbs_orderKey, hkey]
      decide
    rw [isZero, eq_iff hfin zero_isFinite, units_zero] at h
    exact ⟨hfin, h⟩
  · rintro ⟨hfin, hunits⟩
    rw [isZero, eq_iff hfin zero_isFinite, units_zero, hunits]

theorem isZero_add {x y : F64} (hx : isZero x = true) (hy : isZero y = true) : isZero (x.add y) = true := by
  obtain ⟨fx, ux⟩ := (isZero_iff x).1 hx
  obtain ⟨fy, uy⟩ := (isZero_iff y).1 hy
  rw [isZero_iff, add_finite fx fy, ux, uy]
  exact units_roundUnits_exact _ (c := 0) (by decide) rfl

/-- No value that is finite and >= 0 lies before a zero, -0.0 included. -/
theorem not_lt_isZero {t x : F64} (ht : t.isNonneg = true) (hx : isZero x = true) : t.lt x = false := by
  obtain ⟨ft, t0⟩ := (isNonneg_iff t).1 ht
  obtain ⟨fx, ux⟩ := (isZero_iff x).1 hx
  rw [← Bool.not_eq_true, lt_iff ft fx]
  omega

end F64

namespace Machine
open Claims Config

/-! ## ENV_EVAL with its operands in domain (R250) -/

theorem checkedOffsets_envEval : ∀ sel : BitVec 2, sel.getLsbD 1 = false →
    checkedOffsets (.envEval sel) = (envOperands (sel.getLsbD 0)).map PReg.offset := by decide

theorem envValue_tone (cfg : Config) (p : Params) :
    envValue cfg ((0 : BitVec 2).getLsbD 0) p = toneEnv cfg p p.uTime := if_neg (by decide)

theorem envValue_effect (cfg : Config) (p : Params) :
    envValue cfg ((1 : BitVec 2).getLsbD 0) p = effectEnv cfg p p.uTime := if_pos (by decide)

section
variable {sel : BitVec 2} {s : State} (hsel : sel.getLsbD 1 = false) (hok : operandsOk (.envEval sel) s)
include hsel hok

theorem envEval_firstBad : s.operands.firstBad (envOperands (sel.getLsbD 0)) = none :=
  (operandsOk_iff (checkedOffsets_envEval sel hsel) s).1 hok

theorem envEval_inDomain : ∀ r ∈ envOperands (sel.getLsbD 0), r.domain.admits (s.operands.params.get r) = true :=
  (Snapshot.firstBad_none_iff _ _).1 (envEval_firstBad hsel hok)

/-- ENV_EVAL writes the value of its envelope to RESULT and changes nothing else. -/
theorem envEval_runs (cfg : Config) : runs cfg (.envEval sel) s
    { succeeded s .none with result := envValue cfg (sel.getLsbD 0) s.operands.params } := by
  have hstep : completeIn cfg s (.envEval sel) =
      { succeeded s .none with result := envValue cfg (sel.getLsbD 0) s.operands.params } :=
    envEvalStep_ok hsel (envEval_firstBad hsel hok)
  exact hstep ▸ runs_completeIn cfg (.envEval sel) s

end

/-! ## The tone envelope (R241 to R243, R248, R249) -/

/-- The operands of the tone envelope, in the domains of 10_state.md R49 and R50. -/
structure ToneDomain (p : Params) : Prop where
  attack : p.tAttack.isNonneg = true
  decay : p.tDecay.isNonneg = true
  sustain : p.tSustain.isNonneg = true
  release : p.tRelease.isNonneg = true
  level : p.tSustainLevel.inUnit = true
  time : p.uTime.isNonneg = true

theorem toneDomain_of_operandsOk {s : State} (hok : operandsOk (.envEval 0) s) : ToneDomain s.operands.params :=
  have h := envEval_inDomain rfl hok
  { attack := h .tAttack (by decide)
    decay := h .tDecay (by decide)
    sustain := h .tSustain (by decide)
    release := h .tRelease (by decide)
    level := h .tSustainLevel (by decide)
    time := h .uTime (by decide) }

/-- The spec's tone envelope is the model's, under the machine's DECAY_SHAPE. -/
theorem toneEnvelope_eq_toneEnv (p : Params) (t : F64) :
    toneEnvelope p.tAttack p.tDecay p.tSustain p.tRelease p.tSustainLevel t = toneEnv Config.machine p t := rfl

theorem exec_envEval_tone {s : State} (hok : operandsOk (.envEval 0) s) : exec (.envEval 0) s =
    .next { succeeded s .none with result := toneEnv Config.machine s.operands.params s.operands.params.uTime } := by
  rw [← envValue_tone]
  exact (envEval_runs rfl hok Config.machine).2 rfl

/-- With zeros for durations every boundary of R241 is a zero, so every time is past the end. -/
theorem toneEnv_of_zero_durations (cfg : Config) {p : Params} {t : F64} (ht : t.isNonneg = true)
    (ha : isZero p.tAttack = true) (hd : isZero p.tDecay = true) (hs : isZero p.tSustain = true)
    (hr : isZero p.tRelease = true) : toneEnv cfg p t = F64.zero := by
  have b2 := F64.isZero_add ha hd
  have b3 := F64.isZero_add b2 hs
  have b4 := F64.isZero_add b3 hr
  simp only [toneEnv, F64.not_lt_isZero ht ha, F64.not_lt_isZero ht b2, F64.not_lt_isZero ht b3,
    F64.not_lt_isZero ht b4, Bool.false_eq_true, if_false]

/-- Settles O44: with its operands in domain the command answers `toneEnv`, which is the spec's formula. -/
theorem envEvalTone : Obligations.EnvEvalTone := by
  intro s hok
  refine ⟨_, rfl, ?_⟩
  rw [toneEnvelope_eq_toneEnv]
  exact exec_envEval_tone hok

/-- Settles O45: the result is `toneEnv` under a legal configuration, whose range, start and peak are known. -/
theorem toneEnvelopeRange : Obligations.ToneEnvelopeRange := by
  intro s hok
  have dom := toneDomain_of_operandsOk hok
  have hunit := toneEnv_unit machine_legal dom.attack dom.decay dom.sustain dom.release dom.level dom.time
  obtain ⟨hfin, hlow, hhigh⟩ := (F64.inRange_iff _ _ _).1 hunit
  exact ⟨_, _, rfl, exec_envEval_tone hok, hfin, hlow, hhigh,
    toneEnv_start Config.machine dom.attack dom.time, toneEnv_peak machine_legal dom.attack dom.decay dom.level dom.time⟩

/-- Settles O47: by `toneEnv_of_zero_durations`, whichever zeros the durations are. -/
theorem toneEnvelopeOfZeroDurations : Obligations.ToneEnvelopeOfZeroDurations := by
  intro s hok hzero
  have hvalue := toneEnv_of_zero_durations Config.machine (toneDomain_of_operandsOk hok).time
    (hzero .tAttack (by decide)) (hzero .tDecay (by decide)) (hzero .tSustain (by decide)) (hzero .tRelease (by decide))
  rw [exec_envEval_tone hok, hvalue]

/-! ## The effect envelope (R251, R252) -/

/-- ENV_TIME maps the checked operands into the domain on which R252 constrains EFFECT_ENV. -/
theorem envDomain_of_operandsOk {cfg : Config} (hc : cfg.Legal) {s : State} (hok : operandsOk (.envEval 1) s) :
    envDomain (cfg.envTime s.operands.params.envAttack) (cfg.envTime s.operands.params.envSustain)
      (cfg.envTime s.operands.params.envDecay) s.operands.params.envPunch s.operands.params.uTime = true := by
  have h := envEval_inDomain rfl hok
  simp only [envDomain, Bool.and_eq_true]
  exact ⟨⟨⟨⟨hc.envTime_range _ (h .envAttack (by decide)), hc.envTime_range _ (h .envSustain (by decide))⟩,
    hc.envTime_range _ (h .envDecay (by decide))⟩, h .envPunch (by decide)⟩, h .uTime (by decide)⟩

theorem runs_envEval_effect {s : State} (hok : operandsOk (.envEval 1) s) (cfg : Config) : runs cfg (.envEval 1) s
    { succeeded s .none with result := effectEnv cfg s.operands.params s.operands.params.uTime } := by
  rw [← envValue_effect]
  exact envEval_runs rfl hok cfg

/-- Settles O46: the value is EFFECT_ENV of the mapped operands under every configuration, and its bounds are the
constraints of table P on the domain that `envDomain_of_operandsOk` gives. -/
theorem envEvalEffect : Obligations.EnvEvalEffect := by
  refine ⟨fun s hok => ⟨_, rfl, (runs_envEval_effect hok Config.machine).2 rfl⟩, fun cfg s hok => ?_⟩
  refine ⟨_, _, rfl, rfl, runs_envEval_effect hok cfg, fun hc => ?_⟩
  have dom := envDomain_of_operandsOk hc hok
  exact ⟨hc.effectEnv_attack _ _ _ _ _ dom, hc.effectEnv_end _ _ _ _ _ dom,
    fun ht hend => (F64.inRange_iff _ _ _).1 (hc.effectEnv_range _ _ _ _ _ dom ht hend)⟩

end Machine
end Sys2Proof
end

section
/-! SUPPORT. The statement of 42_oscillator.md: OSC_GEN of each wave kind with its operands in domain (R272 to R274,
R281, R282). -/

namespace Sys2Proof
namespace Machine
open Claims

theorem checkedOffsets_oscGen :
    ∀ sel, checkedOffsets (.oscGen sel) = (oscOperands (.ofBits sel)).map PReg.offset := by decide

theorem oscGen_firstBad {sel : BitVec 2} {s : State} (hok : operandsOk (.oscGen sel) s) :
    s.operands.firstBad (oscOperands (.ofBits sel)) = none :=
  (operandsOk_iff (checkedOffsets_oscGen sel) s).1 hok

/-- Settles O43: the selector fixes the wave kind, and with its registers in domain the complete step answers that
kind's value. -/
theorem oscGenValue : Obligations.OscGenValue := by
  intro sel s hok
  have hdom := oscGen_firstBad hok
  rw [exec_eq_next, completeIn, F64.lit_two]
  refine ⟨_, rfl, ?square, ?sawtooth, ?sine, ?noise⟩ <;> rintro rfl
  case square => exact congrArg _ (oscGenStep_square hdom)
  case sawtooth => exact congrArg _ (oscGenStep_sawtooth hdom)
  case sine => exact congrArg _ (oscGenStep_sine hdom)
  case noise => exact congrArg _ (oscGenStep_noise hdom)

end Machine
end Sys2Proof
end

section
/-! SUPPORT. The statements of 47_renderers.md: the length of a render (R381, R383, R391), the samples of a tone (R384,
R385), an effect against the spec's loop (R388, R389, R391 to R394), and what each render reads (R387, R398). -/

namespace Sys2Proof

namespace F64
open Claims Config

/-! ## Literals of the rules -/

theorem rate_eq_sampleRate : rate = sampleRate := by decide +kernel
theorem lit_fullScale : lit 32767 1 = fullScale := by decide +kernel

/-- Adding +0.0 takes no value past another. -/
theorem lt_add_zero {x y : F64} (h : x.lt y = true) : (x.add zero).lt y = true := by
  rw [lt, Bool.and_eq_true, Bool.and_eq_true, Bool.not_eq_true', Bool.not_eq_true', decide_eq_true_eq] at h
  obtain ⟨⟨hx, hy⟩, hlt⟩ := h
  cases hinf : x.isInf with
  | true =>
    have hadd : x.add zero = x := by
      simp [add, hx, hinf, not_isNaN_of_isFinite zero_isFinite, not_isInf_of_isFinite zero_isFinite]
    simp [hadd, lt, hx, hy, hlt]
  | false =>
    have hfin : x.magBits < infMag := by
      have hnan := mt (isNaN_iff x).2 (by rw [hx]; exact Bool.false_ne_true)
      have hninf := mt (isInf_iff x).2 (by rw [hinf]; exact Bool.false_ne_true)
      omega
    have hunits := (units_roundUnits_exact (x.signBit && zero.signBit) (z := x.units) hfin
      (by rw [← magUnits_natAbs, magUnits_eq])).2
    have hadd : x.add zero = roundUnits (x.signBit && zero.signBit) x.units := by
      rw [add_finite ((isFinite_iff x).2 hfin) zero_isFinite, units_zero, Int.add_zero]
    rw [orderKey_lt_iff, ← hunits, ← orderKey_lt_iff] at hlt
    simp [hadd, lt, not_isNaN_roundUnits, hy, hlt]

end F64

namespace Machine
open Claims

/-! ## The length of a render (R381, R383, R391) -/

theorem renderLength_fits {cfg : Config} {x : F64} (hfin : (x.mul F64.sampleRate).isFinite = true)
    (hcap : (x.mul F64.sampleRate).ceil.toNat ≤ cfg.pcmCap) :
    renderLength cfg x = some (x.mul F64.sampleRate).ceil.toNat :=
  if_pos (by rw [hfin, Bool.true_and]; exact decide_eq_true hcap)

theorem renderLength_exceeds {cfg : Config} {x y : F64} (hy : y = x.mul F64.sampleRate)
    (h : (y.isFinite = true ∧ cfg.pcmCap < y.ceil.toNat) ∨ y.isFinite = false) : renderLength cfg x = none := by
  subst hy
  refine if_neg ?_
  rw [Bool.and_eq_true, decide_eq_true_eq]
  rintro ⟨hfin, hcap⟩
  rcases h with ⟨-, h⟩ | h
  · omega
  · rw [h] at hfin; nomatch hfin

/-! ## The complete step of a render, by the check of its operands and by its length -/

/-- What the two renders have in common: the domain check, then CAPACITY_EXCEEDED for a length that does not fit (R381),
else the render of that length. -/
def State.render (s : State) (regs : List PReg) (len : Option Nat) (done : Nat → State) : State :=
  s.checked regs (len.elim (s.raiseError .capacityExceeded 0) done)

theorem renderToneStep_eq_render (cfg : Config) (s : State) : renderToneStep cfg s =
    s.render toneOperands (renderLength cfg (toneSpan s.operands.params)) fun n =>
      s.finishRender (toneSamples cfg s.tbl s.operands.params (s.operands.params.pitchHz.div F64.sampleRate) n 0
        F64.zero) .envelope := by
  refine congrArg (s.checked toneOperands) ?_
  rw [toneSpan, ← toneEnd]
  cases renderLength cfg (toneEnd s.operands.params.tAttack s.operands.params.tDecay s.operands.params.tSustain
    s.operands.params.tRelease) <;> rfl

theorem renderEffectStep_eq_render (cfg : Config) (s : State) : renderEffectStep cfg s =
    s.render effectRegs (renderLength cfg (effectSpan cfg s.operands.params)) fun n =>
      s.finishEffect (effectRender cfg s.operands n) := by
  refine congrArg (s.checked effectRegs) ?_
  rw [effectSpan, ← Config.envEnd, ← effectEnd]
  cases renderLength cfg (effectEnd cfg s.operands.params) <;> rfl

section
variable {s : State} {regs : List PReg} (hok : s.operands.firstBad regs = none) (done : Nat → State)
include hok

theorem State.render_fits (n : Nat) : s.render regs (some n) done = done n := State.checked_of_ok hok _

theorem State.render_exceeds : s.render regs none done = failed s .capacityExceeded 0 := State.checked_of_ok hok _

end

theorem renderTone_firstBad {s : State} (hok : operandsOk .renderTone s) : s.operands.firstBad toneOperands = none :=
  (operandsOk_iff rfl s).1 hok

theorem renderEffect_firstBad {s : State} (hok : operandsOk .renderEffect s) : s.operands.firstBad effectRegs = none :=
  (operandsOk_iff rfl s).1 hok

/-- An effect whose length fits ends with its render. -/
theorem completeIn_renderEffect {cfg : Config} {s : State} (hok : operandsOk .renderEffect s) {y : F64}
    (hy : y = (effectSpan cfg s.operands.params).mul rate) (hfin : y.isFinite = true)
    (hcap : y.ceil.toNat ≤ cfg.pcmCap) :
    completeIn cfg s .renderEffect = s.finishEffect (effectRender cfg s.operands y.ceil.toNat) := by
  rw [F64.rate_eq_sampleRate] at hy
  subst hy
  rw [completeIn, renderEffectStep_eq_render, renderLength_fits hfin hcap,
    State.render_fits (renderEffect_firstBad hok)]

/-- Settles O51: a length that does not fit is none to `renderLength`. -/
theorem renderCapacity : Obligations.RenderCapacity := by
  unfold Obligations.RenderCapacity
  rw [F64.rate_eq_sampleRate]
  refine ⟨fun s hok y hy hlen => ?_, fun cfg s hok y hy hlen => ?_⟩
  · rw [exec_eq_next, completeIn, renderToneStep_eq_render, renderLength_exceeds hy hlen,
      State.render_exceeds (renderTone_firstBad hok)]
  · have hstep : completeIn cfg s .renderEffect = failed s .capacityExceeded 0 := by
      rw [completeIn, renderEffectStep_eq_render, renderLength_exceeds hy hlen,
        State.render_exceeds (renderEffect_firstBad hok)]
    exact hstep ▸ runs_completeIn cfg .renderEffect s

/-! ## The samples a render writes (R380) -/

/-- A render sets LEN, DURATION and the status, puts each sample at its index and touches no other register and no
other byte. -/
theorem finishRender_written (s : State) (vs : List Sample) (reason : EndReason) :
    s.finishRender vs reason = { succeeded s reason with
      mem := (s.finishRender vs reason).mem
      len := BitVec.ofNat 32 vs.length
      duration := (F64.ofNat vs.length).div F64.sampleRate } ∧
    (∀ n v, vs[n]? = some v → (s.finishRender vs reason).pcm n = v) ∧
    sameBytesOutside s (s.finishRender vs reason) 0x100000 (2 * vs.length) := by
  refine ⟨rfl, s.pcm_storePcm vs, fun a ha => ?_⟩
  exact State.byteAt_writeBlock_outside s _ pcmBase _ a rfl rfl (by rwa [samplesBytes_length])

/-- The samples up to LEN of two blocks that wrote the same ones are the same. -/
theorem finishRender_pcm_alike (s s' : State) {vs : List Sample} {reason : EndReason} {n : Nat}
    (hn : n < (s.finishRender vs reason).len.toNat) :
    (s.finishRender vs reason).pcm n = (s'.finishRender vs reason).pcm n := by
  have hlt : n < vs.length := lt_of_lt_of_le hn (by
    rw [State.finishRender_len, BitVec.toNat_ofNat]; exact Nat.mod_le _ _)
  have hv := List.getElem?_eq_getElem hlt
  exact (s.pcm_storePcm vs n _ hv).trans (s'.pcm_storePcm vs n _ hv).symm

/-! ## RENDER_TONE (R383 to R385, R387) -/

/-- The sample `n` further on reads the running wrapped phase of R385. -/
theorem toneSamples_get (tbl : Nat → Sample) (p : Params) (inc : F64) {k n : Nat} (h : n < k) (i : Nat) :
    (toneSamples Config.machine tbl p inc k i (tonePhase inc i))[n]? =
      some ((lookupAt Config.machine tbl (tonePhase inc (i + n))).mul
        (toneEnv Config.machine p (sampleTime (i + n)))).quant := by
  induction k generalizing n i with
  | zero => omega
  | succ k ih =>
    rw [toneSamples]
    cases n with
    | zero => rfl
    | succ n => exact Nat.succ_add_eq_add_succ i n ▸ ih (Nat.lt_of_succ_lt_succ h) (i + 1)

/-- Settles O50: the render of the length that fits writes the samples of `toneSamples_get`. -/
theorem renderToneSamples : Obligations.RenderToneSamples := by
  unfold Obligations.RenderToneSamples
  rw [F64.rate_eq_sampleRate]
  intro s hok y hy hfin hcap
  subst hy
  refine ⟨_, _, rfl, exec_eq_next .renderTone s, ?_⟩
  rw [completeIn, renderToneStep_eq_render, renderLength_fits hfin hcap, State.render_fits (renderTone_firstBad hok)]
  generalize ((toneSpan s.operands.params).mul F64.sampleRate).ceil.toNat = len
  have hwritten := finishRender_written s (toneSamples Config.machine s.tbl s.operands.params
    (s.operands.params.pitchHz.div F64.sampleRate) len 0 F64.zero) .envelope
  rw [toneSamples_length] at hwritten
  obtain ⟨hframe, hpcm, hbytes⟩ := hwritten
  refine ⟨hframe, fun n hn => ?_, hbytes⟩
  rw [hpcm n _ (toneSamples_get s.tbl s.operands.params _ hn 0), Nat.zero_add, lookupAt_eq_lookupFormula,
    toneEnvelope_eq_toneEnv]
  rfl

/-- The two entries that a lookup reads are entries of the table, whatever the phase. -/
theorem lookupAt_congr (cfg : Config) {tbl tbl' : Nat → Sample} (h : ∀ k < 1024, tbl k = tbl' k) (phase : F64) :
    lookupAt cfg tbl phase = lookupAt cfg tbl' phase := by
  have hk : (min ((phase.wrap cfg).mul F64.tableSpan).floor 1022).toNat ≤ 1022 := by omega
  rw [lookupAt, lookupAt, h _ (by omega), h _ (by omega)]

theorem toneSamples_congr (cfg : Config) {tbl tbl' : Nat → Sample} {p p' : Params}
    (htbl : ∀ k < 1024, tbl k = tbl' k) (henv : ∀ t, toneEnv cfg p t = toneEnv cfg p' t) (inc : F64) (k i : Nat)
    (phase : F64) : toneSamples cfg tbl p inc k i phase = toneSamples cfg tbl' p' inc k i phase := by
  induction k generalizing i phase with
  | zero => rfl
  | succ k ih => rw [toneSamples, toneSamples, lookupAt_congr cfg htbl, henv, ih]

/-! ## What a render reads (R387, R398) -/

theorem Snapshot.firstBad_congr {o o' : Snapshot} {regs : List PReg}
    (h : ∀ r ∈ regs, o.params.get r = o'.params.get r) : o.firstBad regs = o'.firstBad regs :=
  List.find?_congr fun r hr => by rw [Snapshot.inDomain, Snapshot.inDomain, h r hr]

/-- Two renders with the same check and the same length end alike: both with one error, or both with the render of that
length. -/
theorem State.render_alike {s s' : State} {regs : List PReg}
    (h : s.operands.firstBad regs = s'.operands.firstBad regs) (len : Option Nat) (done done' : Nat → State) :
    (∃ c a, s.render regs len done = s.raiseError c a ∧ s'.render regs len done' = s'.raiseError c a) ∨
    ∃ n, s.render regs len done = done n ∧ s'.render regs len done' = done' n := by
  cases hbad : s.operands.firstBad regs with
  | some r => exact .inl ⟨_, _, State.checked_of_bad hbad _, State.checked_of_bad (h ▸ hbad) _⟩
  | none =>
    cases len with
    | none => exact .inl ⟨_, _, State.checked_of_ok hbad _, State.checked_of_ok (h ▸ hbad) _⟩
    | some n => exact .inr ⟨n, State.render_fits hbad done n, State.render_fits (h ▸ hbad) done' n⟩

/-- Two tones with the same operands and the same table fail alike or write the same samples. -/
theorem renderToneStep_alike (cfg : Config) {s s' : State}
    (hregs : ∀ r ∈ toneOperands, s.operands.params.get r = s'.operands.params.get r)
    (htbl : ∀ k < 1024, s.tbl k = s'.tbl k) :
    (∃ c a, renderToneStep cfg s = s.raiseError c a ∧ renderToneStep cfg s' = s'.raiseError c a) ∨
    ∃ vs, renderToneStep cfg s = s.finishRender vs .envelope ∧
      renderToneStep cfg s' = s'.finishRender vs .envelope := by
  have hpitch : s.operands.params.pitchHz = s'.operands.params.pitchHz := hregs .pitchHz (by decide)
  have hattack : s.operands.params.tAttack = s'.operands.params.tAttack := hregs .tAttack (by decide)
  have hdecay : s.operands.params.tDecay = s'.operands.params.tDecay := hregs .tDecay (by decide)
  have hsustain : s.operands.params.tSustain = s'.operands.params.tSustain := hregs .tSustain (by decide)
  have hrelease : s.operands.params.tRelease = s'.operands.params.tRelease := hregs .tRelease (by decide)
  have hlevel : s.operands.params.tSustainLevel = s'.operands.params.tSustainLevel := hregs .tSustainLevel (by decide)
  have hspan : toneSpan s.operands.params = toneSpan s'.operands.params := by
    rw [toneSpan, toneSpan, hattack, hdecay, hsustain, hrelease]
  have henv : ∀ t, toneEnv cfg s.operands.params t = toneEnv cfg s'.operands.params t := fun t => by
    simp only [toneEnv, hattack, hdecay, hsustain, hrelease, hlevel]
  rw [renderToneStep_eq_render, renderToneStep_eq_render, hspan, hpitch]
  rcases State.render_alike (Snapshot.firstBad_congr hregs) _ _ _ with herr | ⟨n, hs, hs'⟩
  · exact .inl herr
  · exact .inr ⟨_, hs.trans (by rw [toneSamples_congr cfg htbl henv]), hs'⟩

/-- Settles O55: the two runs fail alike or write the same samples. -/
theorem toneReadsOnlyItsOperands : Obligations.ToneReadsOnlyItsOperands := by
  intro s s' t t' hregs htbl ht ht'
  obtain rfl := (exec_next_iff _ _ _).1 ht
  obtain rfl := (exec_next_iff _ _ _).1 ht'
  rw [completeIn, completeIn]
  rcases renderToneStep_alike Config.machine hregs htbl with ⟨c, a, hs, hs'⟩ | ⟨vs, hs, hs'⟩ <;> rw [hs, hs']
  · exact ⟨rfl, rfl, rfl, fun herr => nomatch herr⟩
  · exact ⟨rfl, rfl, rfl, fun _ => ⟨rfl, rfl, fun n => finishRender_pcm_alike s s'⟩⟩

/-! ## RENDER_EFFECT (R388, R389, R394, R398) -/

theorem effectRender_zero (cfg : Config) (o : Snapshot) :
    effectRender cfg o 0 = { samples := [], reason := .envelope, rng := o.rng } := rfl

/-- A start frequency below the limit ends the render before its first sample. -/
theorem effectRender_limit {cfg : Config} {o : Snapshot} {nEnv : Nat} (hpos : 0 < nEnv)
    (h : (cfg.freqMap o.params.baseFreq).lt (cfg.limitMap o.params.freqLimit) = true) :
    effectRender cfg o nEnv = { samples := [], reason := .limit, rng := o.rng } := by
  obtain ⟨k, rfl⟩ := Nat.exists_eq_succ_of_ne_zero hpos.ne'
  exact if_pos (F64.lt_add_zero h)

/-- Settles O53: both ends are tests before the first sample. -/
theorem effectEndsAtOnce : Obligations.EffectEndsAtOnce := by
  intro cfg s hok y hy hfin hcap
  refine ⟨fun hzero => ?_, fun hpos hlimit => ?_⟩ <;> refine ⟨_, runs_completeIn cfg .renderEffect s, ?_⟩ <;>
    rw [completeIn_renderEffect hok hy hfin hcap]
  · rw [hzero, effectRender_zero]; exact ⟨rfl, rfl⟩
  · rw [effectRender_limit hpos hlimit]; exact ⟨rfl, rfl, rfl⟩

/-- The effect registers alone, the tone registers cleared. -/
def Params.effectPart (p : Params) : Params :=
  { p with
    pitchHz := F64.zero, tAttack := F64.zero, tDecay := F64.zero, tSustain := F64.zero, tRelease := F64.zero
    tSustainLevel := F64.zero, tblDuty := F64.zero, uPhase := F64.zero, uTime := F64.zero, uDuty := F64.zero }

theorem Params.effectPart_congr {p p' : Params} (h : ∀ r ∈ effectRegs, p.get r = p'.get r) :
    p.effectPart = p'.effectPart := by
  simp only [effectRegs, List.forall_mem_cons, Params.get] at h
  simp only [Params.effectPart, h]

/-- The plan without the tone registers. -/
def EffectPlan.effectPart (pl : EffectPlan) : EffectPlan := { pl with regs := pl.regs.effectPart }

/-- No sample depends on the tone registers. -/
theorem Render.sample_effectPart (cfg : Config) (pl : EffectPlan) (n : Nat) (r : Render) :
    r.sample cfg pl.effectPart n = r.sample cfg pl n := rfl

theorem effectSamples_effectPart (cfg : Config) (pl : EffectPlan) (k n : Nat) (r : Render) :
    effectSamples cfg pl.effectPart k n r = effectSamples cfg pl k n r := by
  induction k generalizing n r with
  | zero => rfl
  | succ k ih => simp only [effectSamples, Render.sample_effectPart, ih]; rfl

/-- The operands of an effect: the effect registers, WAVE_TYPE and RNG, everything else cleared. -/
def Snapshot.effectPart (o : Snapshot) : Snapshot :=
  { params := o.params.effectPart, waveType := o.waveType, note := 0, rng := o.rng, stgCount := 0 }

theorem effectRender_effectPart (cfg : Config) (o : Snapshot) (nEnv : Nat) :
    effectRender cfg o.effectPart nEnv = effectRender cfg o nEnv :=
  effectSamples_effectPart cfg (effectPlan cfg o nEnv) nEnv 0 _

theorem effectSpan_effectPart (cfg : Config) (p : Params) : effectSpan cfg p.effectPart = effectSpan cfg p := rfl

/-- Two effects with the same operands fail alike or end with the same render. -/
theorem renderEffectStep_alike (cfg : Config) {s s' : State}
    (hregs : ∀ r ∈ effectRegs, s.operands.params.get r = s'.operands.params.get r)
    (hwave : s.operands.waveType = s'.operands.waveType) (hrng : s.operands.rng = s'.operands.rng) :
    (∃ c a, renderEffectStep cfg s = s.raiseError c a ∧ renderEffectStep cfg s' = s'.raiseError c a) ∨
    ∃ e, renderEffectStep cfg s = s.finishEffect e ∧ renderEffectStep cfg s' = s'.finishEffect e := by
  have hparams := Params.effectPart_congr hregs
  have hspan : effectSpan cfg s.operands.params = effectSpan cfg s'.operands.params := by
    rw [← effectSpan_effectPart, hparams, effectSpan_effectPart]
  have hpart : s.operands.effectPart = s'.operands.effectPart := by
    rw [Snapshot.effectPart, hparams, hwave, hrng, Snapshot.effectPart]
  have hrender : effectRender cfg s.operands = effectRender cfg s'.operands := funext fun n => by
    rw [← effectRender_effectPart, hpart, effectRender_effectPart]
  rw [renderEffectStep_eq_render, renderEffectStep_eq_render, hspan, hrender]
  rcases State.render_alike (Snapshot.firstBad_congr hregs) _ _ _ with herr | ⟨n, hs, hs'⟩
  · exact .inl herr
  · exact .inr ⟨_, hs, hs'⟩

theorem effectRegs_eq_rows : effectRegs = effectRows.map RegRow.reg := rfl

/-- Settles O54: the two runs fail alike or end with the same render. -/
theorem effectReadsOnlyItsOperands : Obligations.EffectReadsOnlyItsOperands := by
  rintro cfg s s' t t' hrows hwave hrng ⟨ht, -⟩ ⟨ht', -⟩
  obtain rfl := Host.Outcome.next.inj ht
  obtain rfl := Host.Outcome.next.inj ht'
  have hregs : ∀ r ∈ effectRegs, s.operands.params.get r = s'.operands.params.get r := by
    rw [effectRegs_eq_rows, List.forall_mem_map]; exact hrows
  rw [completeIn, completeIn]
  rcases renderEffectStep_alike cfg hregs hwave hrng with ⟨c, a, hs, hs'⟩ | ⟨e, hs, hs'⟩ <;> rw [hs, hs']
  · exact ⟨rfl, rfl, rfl, rfl, fun herr => nomatch herr⟩
  · exact ⟨rfl, rfl, rfl, rfl, fun _ => ⟨rfl, rfl, rfl, fun _ =>
      finishRender_pcm_alike (reason := e.reason) s s'⟩⟩

/-! ## RENDER_EFFECT against the spec's loop (R388, R389, R391 to R393) -/

/-- The loop variables of R389 that the internal state of a render stands for. -/
def Render.vars (r : Render) : LoopVars where
  phase := r.phase
  fofs := r.fofs
  slide := r.slide
  dutyC := r.dutyC
  arpM := r.arpM
  lpY := r.lpY
  lpV := r.lpV
  hpZ := r.hpZ
  buf := fun i => r.buf.getD i F64.zero
  w := r.w
  nzSeg := r.noise.seg
  nzVal := r.noise.val
  rng := r.noise.rng
  repCtr := r.repCtr

/-- The phaser buffer has its length, and the write index lies in it. -/
def Render.BufferOk (cfg : Config) (r : Render) : Prop := r.buf.length = cfg.phaserLen ∧ r.w < cfg.phaserLen

theorem getD_set_eq_update (buf : List F64) {w : Nat} (hw : w < buf.length) (x : F64) :
    (fun i => (buf.set w x).getD i F64.zero) = Function.update (fun i => buf.getD i F64.zero) w x := by
  funext i
  by_cases hi : i = w
  · subst hi; simp [hw]
  · simp [List.getD_eq_getElem?_getD, List.getElem?_set_ne (Ne.symm hi), hi]

/-! ### The pass of the loop, stage by stage -/

/-- The lines of a pass up to the raw sample (42_oscillator.md R275 to R277, 43_modulation.md R306 to R308). -/
def loopSource (cfg : Config) (o : Snapshot) (nEnv n : Nat) (t : F64) (v : LoopVars) : F64 × LoopVars :=
  let p := o.params
  let facc := (cfg.freqMap p.baseFreq).add v.fofs
  let arpAt := ((cfg.arpFrac p.arpSpeed).mul (.ofNat nEnv)).floor
  let arpM := if (n : Int) = arpAt then F64.one.add p.arpMod else v.arpM
  let vib := F64.one.add (p.vibStrength.mul (cfg.sin ((F64.twoPi.mul p.vibSpeed).mul t)))
  let phase := (v.phase.add (((facc.mul vib).mul arpM).div rate)).wrap cfg
  let seg := (phase.mul (.ofNat cfg.noiseSegs)).floor
  let draw := o.waveType = 3 ∧ v.nzSeg ≠ some seg
  let nzVal := if draw then (cfg.rngNext v.rng).1 else v.nzVal
  let raw :=
    if o.waveType = 0 then (if phase.lt v.dutyC then F64.one else F64.minusOne)
    else if o.waveType = 1 then ((F64.lit 2 1).mul phase).sub F64.one
    else if o.waveType = 2 then cfg.sin (F64.twoPi.mul phase)
    else nzVal
  (raw, { v with
    phase := phase
    arpM := arpM
    nzSeg := if draw then some seg else v.nzSeg
    nzVal := nzVal
    rng := if draw then (cfg.rngNext v.rng).2 else v.rng })

/-- The low-pass lines of a pass (44_filter.md R330 to R333). -/
def loopLowpass (cfg : Config) (p : Params) (t x : F64) (v : LoopVars) : F64 × LoopVars :=
  let on := p.lpfFreq.ne F64.one
  let alpha := cfg.lpfAlpha (p.lpfFreq.add (p.lpfRamp.mul t)).clamp01
  let lpV := if on then ((cfg.resFb p.lpfResonance).mul v.lpV).add (alpha.mul (x.sub v.lpY)) else v.lpV
  let lpY := if on then v.lpY.add lpV else v.lpY
  (if on then lpY else x, { v with lpV := lpV, lpY := lpY })

/-- The high-pass lines of a pass (44_filter.md R335, R336). -/
def loopHighpass (cfg : Config) (p : Params) (t x : F64) (v : LoopVars) : F64 × LoopVars :=
  let on := p.hpfFreq.ne F64.zero
  let beta := cfg.hpfAlpha (p.hpfFreq.add (p.hpfRamp.mul t)).clamp01
  let hpZ := if on then v.hpZ.add (beta.mul (x.sub v.hpZ)) else v.hpZ
  (if on then x.sub hpZ else x, { v with hpZ := hpZ })

/-- The phaser lines of a pass (45_phaser.md R350 to R353). -/
def loopPhaser (cfg : Config) (p : Params) (t x : F64) (v : LoopVars) : F64 × LoopVars :=
  let on := !(p.phaOffset.eq F64.zero && p.phaRamp.eq F64.zero)
  let d := (cfg.phaScale.mul (p.phaOffset.add (p.phaRamp.mul t))).clamp F64.zero (.ofNat (cfg.phaserLen - 1))
  let buf := if on then Function.update v.buf v.w x else v.buf
  let di := d.floor
  let fr := d.sub (.ofInt di)
  let a0 := buf (((v.w : Int) - di) % (cfg.phaserLen : Int)).toNat
  let a1 := buf (((v.w : Int) - di - 1) % (cfg.phaserLen : Int)).toNat
  let dl := if fr.eq F64.zero then a0 else a0.add (fr.mul (a1.sub a0))
  (if on then x.add (cfg.phaWet.mul dl) else x,
   { v with buf := buf, w := if on then (v.w + 1) % cfg.phaserLen else v.w })

/-- The lines of a pass after the sample: ramps, duty and repeat step (43_modulation.md R303, R309, 46_repeat.md R371,
R372). -/
def loopRamps (cfg : Config) (p : Params) (v : LoopVars) : LoopVars :=
  let repOn := p.repeatSpeed.ne F64.zero
  let bound := repOn = true ∧ cfg.repeatSeg p.repeatSpeed ≤ v.repCtr + 1
  { v with
    fofs := if bound then F64.zero else v.fofs.add (v.slide.div rate)
    slide := if bound then cfg.frampMap p.freqRamp else v.slide.add ((cfg.fdrampMap p.freqDramp).div rate)
    dutyC := if bound then p.duty else (v.dutyC.add (p.dutyRamp.div rate)).clamp01
    repCtr := if bound then 0 else if repOn then v.repCtr + 1 else v.repCtr }

/-- A pass of the loop is its stages in order. -/
theorem loopPass_eq_stages (cfg : Config) (o : Snapshot) (nEnv n : Nat) (v : LoopVars) :
    loopPass cfg o nEnv n v =
      let t := (F64.ofNat n).div rate
      let src := loopSource cfg o nEnv n t v
      let lp := loopLowpass cfg o.params t src.1 src.2
      let hp := loopHighpass cfg o.params t lp.1 lp.2
      let ph := loopPhaser cfg o.params t hp.1 hp.2
      ((((ph.1.mul (effectEnv cfg o.params t)).mul cfg.masterGain).mul (.lit 32767 1)).quant,
        loopRamps cfg o.params ph.2) := rfl

/-! ### Each stage of the render does its lines of the pass -/

/-- The noise hold after a sample of any wave kind: only noise draws, and only in a new sub-interval (R276). -/
theorem generate_noise_eq (cfg : Config) (b : BitVec 2) (phase duty : F64) (h : NoiseHold) :
    (generate cfg (.ofBits b) phase duty h).2 =
      let seg := (phase.mul (.ofNat cfg.noiseSegs)).floor
      let draw := b = 3 ∧ h.seg ≠ some seg
      { seg := if draw then some seg else h.seg
        val := if draw then (cfg.rngNext h.rng).1 else h.val
        rng := if draw then (cfg.rngNext h.rng).2 else h.rng } := by
  have hold : ¬(b = 3 ∧ h.seg ≠ some (phase.mul (.ofNat cfg.noiseSegs)).floor) →
      (generate cfg (.ofBits b) phase duty h).2 = h := fun hdraw => by
    by_cases hb : b = 3
    · subst hb; exact if_pos (by_contra fun hseg => hdraw ⟨rfl, hseg⟩)
    · exact generate_hold (mt (Wave.ofBits_eq_noise_iff b).1 hb) _ _ _ _
  by_cases hdraw : b = 3 ∧ h.seg ≠ some (phase.mul (.ofNat cfg.noiseSegs)).floor
  · simp only [↓if_pos hdraw]
    obtain ⟨rfl, hseg⟩ := hdraw
    exact if_neg hseg
  · simp only [↓if_neg hdraw, hold hdraw]

/-- The raw sample of each wave kind (R277). -/
theorem generate_sample_eq (cfg : Config) (b : BitVec 2) (phase duty : F64) (h : NoiseHold) :
    (generate cfg (.ofBits b) phase duty h).1 =
      if b = 0 then (if phase.lt duty then F64.one else F64.minusOne)
      else if b = 1 then (F64.two.mul phase).sub F64.one
      else if b = 2 then cfg.sin (F64.twoPi.mul phase)
      else (generate cfg (.ofBits b) phase duty h).2.val := by
  rcases selector_cases b with rfl | rfl | rfl | rfl <;> rfl

theorem Render.arpeggio_eq (pl : EffectPlan) (n : Nat) (r : Render) :
    r.arpeggio pl n = { r with arpM := if (n : Int) = pl.arpAt then F64.one.add pl.regs.arpMod else r.arpM } := by
  unfold Render.arpeggio; split <;> rfl

section
variable (cfg : Config) (o : Snapshot) (nEnv : Nat) (t x : F64) (r : Render)

theorem loopSource_eq_oscillate (n : Nat) : loopSource cfg o nEnv n t r.vars =
    ((r.oscillate cfg (effectPlan cfg o nEnv) n t).1, (r.oscillate cfg (effectPlan cfg o nEnv) n t).2.vars) := by
  rw [Render.oscillate, Render.arpeggio_eq, show (effectPlan cfg o nEnv).wave = .ofBits o.waveType from rfl,
    loopSource, F64.rate_eq_sampleRate, F64.lit_two]
  dsimp only
  rw [generate_sample_eq, generate_noise_eq]
  rfl

theorem loopLowpass_eq_lowpassStage : loopLowpass cfg o.params t x r.vars =
    ((r.lowpassStage cfg (effectPlan cfg o nEnv) t x).1, (r.lowpassStage cfg (effectPlan cfg o nEnv) t x).2.vars) := by
  cases hon : o.params.lpfFreq.ne F64.one
  · simp only [loopLowpass, Render.lowpassStage, effectPlan, hon, Bool.false_eq_true, if_false]
  · simp only [loopLowpass, Render.lowpassStage, effectPlan, hon, if_true]; rfl

theorem loopHighpass_eq_highpassStage : loopHighpass cfg o.params t x r.vars =
    ((r.highpassStage cfg (effectPlan cfg o nEnv) t x).1,
      (r.highpassStage cfg (effectPlan cfg o nEnv) t x).2.vars) := by
  cases hon : o.params.hpfFreq.ne F64.zero
  · simp only [loopHighpass, Render.highpassStage, effectPlan, hon, Bool.false_eq_true, if_false]
  · simp only [loopHighpass, Render.highpassStage, effectPlan, hon, if_true]; rfl

/-- The buffer is a list in the render and a function in the loop. -/
theorem loopPhaser_eq_phaserStage (hbuf : r.BufferOk cfg) : loopPhaser cfg o.params t x r.vars =
    ((r.phaserStage cfg (effectPlan cfg o nEnv) t x).1, (r.phaserStage cfg (effectPlan cfg o nEnv) t x).2.vars) := by
  obtain ⟨hlen, hw⟩ := hbuf
  have hupdate := getD_set_eq_update r.buf (hlen ▸ hw) x
  cases hon : !(o.params.phaOffset.eq F64.zero && o.params.phaRamp.eq F64.zero)
  · simp only [loopPhaser, Render.phaserStage, effectPlan, hon, Bool.false_eq_true, if_false]
  · simp only [loopPhaser, Render.phaserStage, effectPlan, hon, if_true, Render.phaser, delayed, tapAt, ← Int.sub_sub,
      Render.vars, ← hupdate]
    rfl

theorem loopRamps_eq_repeatStep : loopRamps cfg o.params r.vars =
    ((r.modulate (effectPlan cfg o nEnv)).repeatStep (effectPlan cfg o nEnv)).vars := by
  rw [loopRamps, F64.rate_eq_sampleRate]
  cases hon : o.params.repeatSpeed.ne F64.zero
  · simp only [Render.repeatStep, effectPlan, hon, Bool.false_eq_true, false_and, if_false]; rfl
  · by_cases hseg : cfg.repeatSeg o.params.repeatSpeed ≤ r.repCtr + 1
    · simp only [Render.repeatStep, Render.retrigger, Render.modulate, Render.vars, effectPlan, hon, hseg, and_self,
        if_true]
    · simp only [Render.repeatStep, Render.modulate, Render.vars, effectPlan, hon, hseg, and_false, if_false, if_true]

end

/-! ### The phaser buffer -/

section
variable {cfg : Config} {r : Render} (h : r.BufferOk cfg) (pl : EffectPlan) (t x : F64)
include h

theorem Render.BufferOk.oscillate (n : Nat) : (r.oscillate cfg pl n t).2.BufferOk cfg := by
  rw [Render.oscillate, Render.arpeggio_eq]; exact h

theorem Render.BufferOk.lowpassStage : (r.lowpassStage cfg pl t x).2.BufferOk cfg := by
  unfold Render.lowpassStage; split <;> exact h

theorem Render.BufferOk.highpassStage : (r.highpassStage cfg pl t x).2.BufferOk cfg := by
  unfold Render.highpassStage; split <;> exact h

theorem Render.BufferOk.phaserStage : (r.phaserStage cfg pl t x).2.BufferOk cfg := by
  obtain ⟨hlen, hw⟩ := h
  unfold Render.phaserStage
  split
  · exact ⟨List.length_set.trans hlen, Nat.mod_lt _ (Nat.zero_lt_of_lt hw)⟩
  · exact ⟨hlen, hw⟩

theorem Render.BufferOk.repeatStep_modulate : ((r.modulate pl).repeatStep pl).BufferOk cfg := by
  unfold Render.repeatStep
  split
  · split <;> exact h
  · exact h

theorem Render.BufferOk.sample (n : Nat) : (r.sample cfg pl n).2.BufferOk cfg :=
  ((((h.oscillate pl _ n).lowpassStage pl _ _).highpassStage pl _ _).phaserStage pl _ _).repeatStep_modulate pl

end

/-! ### The whole loop -/

/-- One pass of the loop is one sample of the render. -/
theorem loopPass_eq_sample {cfg : Config} {r : Render} (hbuf : r.BufferOk cfg) (o : Snapshot) (nEnv n : Nat) :
    loopPass cfg o nEnv n r.vars =
      ((r.sample cfg (effectPlan cfg o nEnv) n).1, (r.sample cfg (effectPlan cfg o nEnv) n).2.vars) := by
  rw [loopPass_eq_stages, F64.rate_eq_sampleRate, ← sampleTime, F64.lit_fullScale]
  dsimp only
  rw [loopSource_eq_oscillate, loopLowpass_eq_lowpassStage cfg o nEnv, loopHighpass_eq_highpassStage cfg o nEnv,
    loopPhaser_eq_phaserStage cfg o nEnv _ _ _
      (((hbuf.oscillate _ _ n).lowpassStage _ _ _).highpassStage _ _ _), loopRamps_eq_repeatStep cfg o nEnv]
  rfl

theorem loopStart_eq_start (cfg : Config) (o : Snapshot) (nEnv : Nat) :
    loopStart cfg o = (Render.start cfg (effectPlan cfg o nEnv) o.rng).vars := by
  have hbuf : (fun i => (List.replicate cfg.phaserLen F64.zero).getD i F64.zero) = fun _ => F64.zero := by
    funext i; simp
  simp only [Render.vars, Render.start, hbuf]
  rfl

/-- From sample `n` on, with `k` passes left and fuel for one more, the loop yields what the render does. -/
theorem loop_eq_effectSamples {cfg : Config} (o : Snapshot) {nEnv k n : Nat} (hk : n + k = nEnv) {r : Render}
    (hbuf : r.BufferOk cfg) : loop cfg o nEnv (k + 1) n r.vars =
      let e := effectSamples cfg (effectPlan cfg o nEnv) k n r
      (e.samples, e.reason, e.rng) := by
  induction k generalizing n r with
  | zero => exact if_pos hk.ge
  | succ k ih =>
    rw [loop, if_neg (by omega), effectSamples]
    by_cases hlimit : (r.facc (effectPlan cfg o nEnv)).lt (effectPlan cfg o nEnv).fl = true
    · rw [if_pos hlimit]; exact if_pos hlimit
    · rw [if_neg hlimit]
      refine (if_neg hlimit).trans ?_
      rw [loopPass_eq_sample hbuf]
      dsimp only
      rw [ih (by omega) (hbuf.sample _ n)]

/-- The loop of R388 from its start yields the render. -/
theorem loop_eq_effectRender {cfg : Config} (hlen : 2 ≤ cfg.phaserLen) (o : Snapshot) (nEnv : Nat) :
    loop cfg o nEnv (nEnv + 1) 0 (loopStart cfg o) =
      ((effectRender cfg o nEnv).samples, (effectRender cfg o nEnv).reason, (effectRender cfg o nEnv).rng) := by
  rw [loopStart_eq_start cfg o nEnv]
  exact loop_eq_effectSamples o (Nat.zero_add _) ⟨List.length_replicate, lt_of_lt_of_le Nat.zero_lt_two hlen⟩

/-- Settles O52: the render is the loop, and ends with what `finishRender_written` writes. -/
theorem renderEffectFollowsLoop : Obligations.RenderEffectFollowsLoop := by
  intro cfg s hok y hy hfin hcap hlen
  refine ⟨_, _, rfl, runs_completeIn cfg .renderEffect s, ?_⟩
  rw [completeIn_renderEffect hok hy hfin hcap, loop_eq_effectRender hlen, F64.rate_eq_sampleRate]
  obtain ⟨-, hpcm, hbytes⟩ := finishRender_written s (effectRender cfg s.operands y.ceil.toNat).samples
    (effectRender cfg s.operands y.ceil.toNat).reason
  exact ⟨rfl, hpcm, (effectSamples_bound cfg _ _ 0 _).1, hbytes⟩

end Machine
end Sys2Proof
end

section
/-! SUPPORT. The statements of 48_note_and_control.md: NOP (R421), the names NOTE_RESOLVE accepts (R420, R422, R423),
its outcome and its exact notes (R424). -/

namespace Sys2Proof

namespace F64
open Claims Config

theorem lit_concertA : lit 440 1 = concertA := by decide +kernel
theorem lit_twelve : lit 12 1 = twelve := by decide +kernel

end F64

namespace Machine
open Claims Config

/-! ## NOP (R421) -/

theorem statusWord_succeeded (s : State) (reason : EndReason) :
    (succeeded s reason).statusWord = statusBits false true false s.status.ovr ErrCode.none.code reason.code := rfl

/-- Settles O34: the state is the meaning of the command, and the STATUS word shows DONE alone. -/
theorem nopCompletes : Obligations.NopCompletes := by
  intro s
  refine ⟨exec_eq_next .nop s, fun hovr => ?_⟩
  rw [statusWord_succeeded, hovr]
  decide

/-! ## Note names (R420, R422, R423) -/

theorem letterOffset_eq_some_iff (b : Byte) (x : Int) : letterOffset b = some x ↔ (b, x) ∈ noteLetters := by
  unfold letterOffset noteLetters
  split_ifs <;> simp_all [eq_comm]

theorem accidentalOffset_eq_some_iff (b : Byte) (y : Int) : accidentalOffset b = some y ↔ (b, y) ∈ noteAccidentals := by
  unfold accidentalOffset noteAccidentals
  split_ifs <;> simp_all [eq_comm]

theorem octaveOffset_eq_some_iff (b : Byte) (z : Int) :
    octaveOffset b = some z ↔ ∃ o : Nat, o ≤ 8 ∧ b = BitVec.ofNat 8 (0x30 + o) ∧ z = 12 * ((o : Int) - 4) := by
  unfold octaveOffset
  constructor
  · intro h
    obtain ⟨hb, hz⟩ := Option.ite_none_right_eq_some.mp h
    rw [Option.some.injEq] at hz
    exact ⟨b.toNat - 0x30, by omega, by bv_omega, by omega⟩
  · rintro ⟨o, ho, rfl, rfl⟩
    have hb : (BitVec.ofNat 8 (0x30 + o)).toNat = 0x30 + o := Nat.mod_eq_of_lt (by omega)
    rw [hb, if_pos (by omega)]
    congr 1; omega

theorem letterOffset_nul : letterOffset 0#8 = none := by decide
theorem accidentalOffset_nul : accidentalOffset 0#8 = none := by decide
theorem octaveOffset_nul : octaveOffset 0#8 = none := by decide

/-- A name is a letter and an octave digit, with or without an accidental between them. -/
theorem noteOffset_eq_some_iff (bs : List Byte) (k : Int) : noteOffset bs = some k ↔
    ∃ l x o z, letterOffset l = some x ∧ octaveOffset o = some z ∧
      ((bs = [l, o] ∧ k = x + z) ∨ ∃ a y, accidentalOffset a = some y ∧ bs = [l, a, o] ∧ k = x + y + z) := by
  constructor
  · intro h
    unfold noteOffset at h
    split at h
    · split at h <;> simp_all
    · split at h <;> simp_all
    · simp at h
  · rintro ⟨l, x, o, z, hl, ho, ⟨rfl, rfl⟩ | ⟨a, y, ha, rfl, rfl⟩⟩
    · simp [noteOffset, hl, ho]
    · simp [noteOffset, hl, ho, ha]

/-- A string of two characters ends at a zero third byte; the fourth byte is free (R420). -/
theorem noteString_eq_two_iff (w : Word) {l o : Byte} (hl : l ≠ 0#8) (ho : o ≠ 0#8) : noteString w = [l, o] ↔
    w.extractLsb' 0 8 = l ∧ w.extractLsb' 8 8 = o ∧ w.extractLsb' 16 8 = 0#8 := by
  unfold noteString noteBytes
  constructor
  · intro h
    simp only [List.takeWhile_cons] at h
    split_ifs at h <;> simp_all
  · rintro ⟨rfl, rfl, hend⟩
    simp [hl, ho, hend]

/-- A string of three characters ends at a zero fourth byte (R420). -/
theorem noteString_eq_three_iff (w : Word) {l a o : Byte} (hl : l ≠ 0#8) (ha : a ≠ 0#8) (ho : o ≠ 0#8) :
    noteString w = [l, a, o] ↔ w.extractLsb' 0 8 = l ∧ w.extractLsb' 8 8 = a ∧ w.extractLsb' 16 8 = o ∧
      w.extractLsb' 24 8 = 0#8 := by
  unfold noteString noteBytes
  constructor
  · intro h
    simp only [List.takeWhile_cons] at h
    split_ifs at h <;> simp_all
  · rintro ⟨rfl, rfl, rfl, hend⟩
    simp [hl, ha, ho, hend]

/-- The parser accepts exactly the words that spell a name, with the offset they spell: no letter, accidental or digit
is the zero byte that ends the string. -/
theorem noteOffset_noteString_iff (w : Word) (k : Int) : noteOffset (noteString w) = some k ↔ spells w k := by
  have ne_zero {f : Byte → Option Int} {b : Byte} {x : Int} (h0 : f 0#8 = none) (h : f b = some x) : b ≠ 0#8 := by
    rintro rfl; simp [h0] at h
  rw [noteOffset_eq_some_iff]
  constructor
  · rintro ⟨l, x, o, z, hl, ho, h⟩
    have hl0 := ne_zero letterOffset_nul hl
    have ho0 := ne_zero octaveOffset_nul ho
    obtain ⟨d, hd, rfl, rfl⟩ := (octaveOffset_eq_some_iff o z).mp ho
    obtain ⟨hw, rfl⟩ | ⟨a, y, ha, hw, rfl⟩ := h
    · obtain ⟨h0, h1, h2⟩ := (noteString_eq_two_iff w hl0 ho0).mp hw
      exact ⟨(l, x), (letterOffset_eq_some_iff l x).mp hl, d, hd, h0, .inl ⟨h1, h2, rfl⟩⟩
    · obtain ⟨h0, h1, h2, h3⟩ := (noteString_eq_three_iff w hl0 (ne_zero accidentalOffset_nul ha) ho0).mp hw
      exact ⟨(l, x), (letterOffset_eq_some_iff l x).mp hl, d, hd, h0,
        .inr ⟨(a, y), (accidentalOffset_eq_some_iff a y).mp ha, h1, h2, h3, rfl⟩⟩
  · rintro ⟨⟨l, x⟩, hl, d, hd, h0, h⟩
    have hl := (letterOffset_eq_some_iff l x).mpr hl
    have ho := (octaveOffset_eq_some_iff _ _).mpr ⟨d, hd, rfl, rfl⟩
    have hl0 := ne_zero letterOffset_nul hl
    have ho0 := ne_zero octaveOffset_nul ho
    refine ⟨l, x, _, _, hl, ho, ?_⟩
    obtain ⟨h1, h2, rfl⟩ | ⟨⟨a, y⟩, ha, h1, h2, h3, rfl⟩ := h
    · exact .inl ⟨(noteString_eq_two_iff w hl0 ho0).mpr ⟨h0, h1, h2⟩, rfl⟩
    · have ha := (accidentalOffset_eq_some_iff a y).mpr ha
      exact .inr ⟨a, y, ha,
        (noteString_eq_three_iff w hl0 (ne_zero accidentalOffset_nul ha) ho0).mpr ⟨h0, h1, h2, h3⟩, rfl⟩

/-! ## NOTE_RESOLVE (R424) -/

/-- The outcome for a word that spells a name. -/
theorem exec_noteResolve_of_spells {s : State} {k : Int} (h : spells s.operands.note k) : exec .noteResolve s =
    .next { succeeded s .none with
      result := noteFrequency machine k, params := { s.params with pitchHz := noteFrequency machine k } } := by
  rw [exec_eq_next, completeIn, noteResolveStep, (noteOffset_noteString_iff _ k).mpr h]
  rfl

theorem exec_noteResolve_of_not_spells {s : State} (h : ¬ ∃ k, spells s.operands.note k) :
    exec .noteResolve s = .next (failed s .invalidNote 0) := by
  have hnone : noteOffset (noteString s.operands.note) = none :=
    Option.eq_none_iff_forall_ne_some.mpr fun k hk => h ⟨k, (noteOffset_noteString_iff _ k).mp hk⟩
  rw [exec_eq_next, completeIn, noteResolveStep, hnone]
  rfl

/-- Settles O48: the parser is the grammar, and each outcome is the one of R424. -/
theorem noteResolveValue : Obligations.NoteResolveValue := by
  intro s
  rw [F64.lit_concertA, F64.lit_twelve]
  exact ⟨fun _ hk => ⟨_, rfl, exec_noteResolve_of_spells hk⟩, exec_noteResolve_of_not_spells⟩

/-- Where the offset is a whole number of octaves, `POW2` is exact (log entry 13). -/
theorem noteFrequency_octaves {k : Int} (hdom : pow2Domain ((F64.ofInt k).div F64.twelve) = true)
    (hint : isIntegral ((F64.ofInt k).div F64.twelve) = true) : noteFrequency machine k =
      F64.concertA.mul (exactPow2 ((F64.ofInt k).div F64.twelve).floor) := by
  rw [noteFrequency, machine_legal.pow2_integral _ hdom hint]

theorem noteFrequency_a4 : noteFrequency machine 0 = .lit 440 1 := by
  rw [noteFrequency_octaves] <;> decide +kernel

theorem noteFrequency_a0 : noteFrequency machine (-48) = .lit 275 10 := by
  rw [noteFrequency_octaves] <;> decide +kernel

theorem noteFrequency_a8 : noteFrequency machine 48 = .lit 7040 1 := by
  rw [noteFrequency_octaves] <;> decide +kernel

/-- A word spells `A` and the octave `o`. -/
theorem spells_a {w : Word} {o : Nat} (ho : o ≤ 8) (hw : w.extractLsb' 0 8 = 0x41 ∧
    w.extractLsb' 8 8 = BitVec.ofNat 8 (0x30 + o) ∧ w.extractLsb' 16 8 = 0) : spells w (0 + 12 * ((o : Int) - 4)) := by
  obtain ⟨hletter, hdigit, hend⟩ := hw
  exact ⟨(0x41, 0), by decide, o, ho, hletter, .inl ⟨hdigit, hend, rfl⟩⟩

/-- Settles O49: the three names are whole octaves from A4. -/
theorem concertPitchExact : Obligations.ConcertPitchExact := by
  intro s x hx hnote
  have hname : ∃ k, spells x.1 k ∧ noteFrequency machine k = x.2 := by
    simp only [List.mem_cons, List.not_mem_nil, or_false] at hx
    obtain rfl | rfl | rfl := hx
    · exact ⟨_, spells_a (o := 4) (by decide) (by decide), noteFrequency_a4⟩
    · exact ⟨_, spells_a (o := 0) (by decide) (by decide), noteFrequency_a0⟩
    · exact ⟨_, spells_a (o := 8) (by decide) (by decide), noteFrequency_a8⟩
  obtain ⟨k, hk, hfreq⟩ := hname
  rw [exec_noteResolve_of_spells (hnote ▸ hk), hfreq]

end Machine
end Sys2Proof
end

section
/-! SUPPORT. The statements of 60_exceptions.md: misaligned accesses (R452), writes dropped while BUSY (R451), the
interrupt level (R450), what a host event does to the completion flags and to an idle block (R448, R460), illegal words
(R441), the domain check (R443), and what a failed and a successful command write (R442). -/

namespace Sys2Proof
namespace Machine
open Claims

/-! ## Misaligned accesses (R452) -/

theorem after_read_misaligned (s : State) {a : Offset} (ha : a.toNat % 4 ≠ 0) :
    after s (.read a) = { s with response := .readError } := hostEvent_read_misaligned ha

theorem after_write_misaligned (s : State) {a : Offset} (ha : a.toNat % 4 ≠ 0) (v : Word) :
    after s (.write a v) = { s with response := .writeError } := hostEvent_write_misaligned ha

theorem write_response_aligned (s : State) {a : Offset} (ha : a.toNat % 4 = 0) (v : Word) :
    (after s (.write a v)).response = .writeOk := by
  rw [after, hostEvent_write ha]

/-- Settles O16: only the two misaligned shapes of an access answer with an error, and they set the response alone. -/
theorem misalignedAccess : Obligations.MisalignedAccess := by
  refine fun s a v => ⟨fun ha => ?_, fun ha => ?_⟩
  · rw [after_read_misaligned s ha, after_write_misaligned s ha]
    exact ⟨⟨rfl, rfl, rfl⟩, rfl, rfl⟩
  · rw [read_response_aligned s ha, write_response_aligned s ha]
    exact ⟨rfl, rfl⟩

/-! ## Writes dropped while BUSY (R451) -/

/-- The writable registers that take a write only while idle. -/
theorem idleOnly_registers : ∀ k ∈ [0x04, 0x24, 0x28, 0x2C, 0x18, 0x1C],
    ∃ l, RegisterAt k l ∧ ∀ s v, ∃ t, State.writeLoc s v l = s.whenIdle t := by
  simp only [List.forall_mem_cons, List.not_mem_nil, false_imp_iff, implies_true, and_true]
  exact ⟨⟨.cmd, by decide, fun _ _ => ⟨_, rfl⟩⟩, ⟨.smpIn, by decide, fun _ _ => ⟨_, rfl⟩⟩,
    ⟨.fnInLo, by decide, fun _ _ => ⟨_, rfl⟩⟩, ⟨.fnInHi, by decide, fun _ _ => ⟨_, rfl⟩⟩,
    ⟨.rngLo, by decide, fun _ _ => ⟨_, rfl⟩⟩, ⟨.rngHi, by decide, fun _ _ => ⟨_, rfl⟩⟩⟩

/-- Settles O22: each of the six is written through `whenIdle`. -/
theorem busyDropsWrites : Obligations.BusyDropsWrites := by
  intro s v hs k hk
  obtain ⟨l, hl, hw⟩ := idleOnly_registers k hk
  obtain ⟨t, ht⟩ := hw s v
  rw [hl.after_write_busy ht hs]
  exact ⟨rfl, rfl⟩

/-! ## The interrupt level (R450) -/

theorem State.irq_iff (s : State) : s.irq = true ↔
    (s.status.done = true ∧ s.irqEn.getLsbD 0 = true) ∨ (s.status.err = true ∧ s.irqEn.getLsbD 1 = true) ∨
      (s.status.ovr = true ∧ s.irqEn.getLsbD 2 = true) := by
  simp only [State.irq, Bool.or_eq_true, Bool.and_eq_true, or_assoc]

/-- Settles O29: a write to IRQ_EN keeps its three low bits, which are the enables. -/
theorem interruptLevel : Obligations.InterruptLevel := by
  refine ⟨State.irq_iff, fun s v => ?_, rfl⟩
  have irqEn : RegisterAt 0x10 .irqEn := by decide
  rw [irqEn.after_write]
  simp [State.writeLoc, State.irq]

/-! ## The completion flags and the host (R448, R460) -/

/-- The sequencer stays, DONE and ERR stay, and OVR is at most set. -/
structure KeepsFlags (s t : State) : Prop where
  seq : t.seq = s.seq
  done : t.status.done = s.status.done
  err : t.status.err = s.status.err
  ovr : s.status.ovr = true → t.status.ovr = true

theorem keepsFlags_of_eq {s t : State} (hseq : t.seq = s.seq) (hst : t.status = s.status) : KeepsFlags s t := by
  constructor <;> simp [hseq, hst]

theorem keepsFlags_dropWrite (s : State) : KeepsFlags s s.dropWrite := ⟨rfl, rfl, rfl, fun _ => rfl⟩

theorem whenIdle_keepsFlags {s t : State} (h : KeepsFlags s t) : KeepsFlags s (s.whenIdle t) := by
  unfold State.whenIdle
  split
  · exact keepsFlags_dropWrite s
  · exact h

/-- A write that is no reset issues a command, acknowledges, or keeps the flags. -/
theorem writeLoc_flags (s : State) (v : Word) (l : Loc) (h : l = .ctrl → v.getLsbD 0 = false) :
    (l = .cmd ∧ s.busy = false) ∨ l = .status ∨ KeepsFlags s (s.writeLoc v l) := by
  cases l with
  | cmd =>
    cases hb : s.busy with
    | false => exact .inl ⟨rfl, rfl⟩
    | true =>
      have hdrop : s.writeLoc v .cmd = s.dropWrite := if_pos hb
      exact .inr (.inr (hdrop ▸ keepsFlags_dropWrite s))
  | status => exact .inr (.inl rfl)
  | ctrl => rw [writeLoc_ctrl_off s v (h rfl)]; exact .inr (.inr (keepsFlags_of_eq rfl rfl))
  | rngLo | rngHi | smpIn | fnInLo | fnInHi => exact .inr (.inr (whenIdle_keepsFlags (keepsFlags_of_eq rfl rfl)))
  | _ => exact .inr (.inr (keepsFlags_of_eq rfl rfl))

/-- What a host event other than a reset is to the completion flags. -/
inductive FlagEvent (s : State) (e : HostEvent) : Prop where
  | command (v : Word) (hidle : s.busy = false) (he : e = .write (at22 0x04) v)
  | acknowledge (v : Word) (he : e = .write (at22 0x08) v)
  | keeps (hk : KeepsFlags s (after s e))

theorem flagEvent_of_not_resets (s : State) (e : HostEvent) (h : e.resets = false) : FlagEvent s e := by
  cases e with
  | presetn => nomatch h
  | read a =>
    obtain ⟨r, free, hread⟩ := after_read_eq s a
    exact .keeps (hread ▸ keepsFlags_of_eq rfl rfl)
  | write a v =>
    by_cases ha : a.toNat % 4 = 0
    · rcases writeLoc_flags s v _ (not_srst h) with ⟨hcmd, hidle⟩ | hstatus | ⟨hseq, hdone, herr, hovr⟩
      · obtain rfl : a = at22 0x04 := BitVec.eq_of_toNat_eq (offset_of_cmd hcmd)
        exact .command v hidle rfl
      · obtain rfl : a = at22 0x08 := BitVec.eq_of_toNat_eq (offset_of_status hstatus)
        exact .acknowledge v rfl
      · exact .keeps (by rw [after, hostEvent_write ha]; exact ⟨hseq, hdone, herr, hovr⟩)
    · exact .keeps (after_write_misaligned s ha v ▸ keepsFlags_of_eq rfl rfl)

theorem busy_of_seq_eq {s t : State} (h : t.seq = s.seq) : t.busy = s.busy := by simp only [State.busy, h]

theorem busy_after_of_resets (s : State) {e : HostEvent} (h : e.resets = true) : (after s e).busy = false := by
  obtain ⟨r, he⟩ := hostEvent_of_resets Config.machine s h
  rw [after, he]; rfl

/-- An event that wakes an idle block writes CMD. -/
theorem write_cmd_of_wakes {s : State} {e : HostEvent} (hs : s.busy = false) (h : (after s e).busy = true) :
    ∃ v, e = .write (at22 0x04) v := by
  have moved : (after s e).seq ≠ s.seq := fun hseq =>
    nomatch hs.symm.trans ((busy_of_seq_eq hseq).symm.trans h)
  cases hr : e.resets with
  | true => rw [busy_after_of_resets s hr] at h; nomatch h
  | false =>
    cases flagEvent_of_not_resets s e hr with
    | command v _ he => exact ⟨v, he⟩
    | acknowledge v he => exact absurd (by rw [he, statusWriteOneToClear s v]) moved
    | keeps hk => exact absurd hk.seq moved

/-- Settles O12: with no event to come only the latency would pass, and an idle block has none; of the events neither a
reset nor one that keeps the sequencer wakes it. -/
theorem idleBlockWakesOnlyByCommand : Obligations.IdleBlockWakesOnlyByCommand := by
  refine fun s hseq => ⟨fun hin => ?_, fun e => write_cmd_of_wakes (State.busy_of_idle hseq)⟩
  have htick : s.seq.tick = s.seq := by rw [hseq]; rfl
  rw [step_of_not_ready (s.ready_none_iff.2 (.inl hseq)), elapse_nil _ hin, htick]

/-- A flag that an acknowledgement clears was written with 1. -/
theorem written_of_cleared {flag bit : Bool} (h : flag = true) (h' : (if bit then false else flag) = false) :
    bit = true := by
  cases bit with
  | true => rfl
  | false => nomatch h.symm.trans h'

theorem CommandEnds.done {cfg : Config} {i : Instr} {s t : State} (h : CommandEnds cfg s i t) :
    t.status.done = true := by
  cases h <;> rfl

/-- Settles O30: of the three kinds of event an accept clears DONE and ERR, an acknowledgement what is written with 1,
and the others clear nothing. -/
theorem statusBitsClearedOnlyBy : Obligations.StatusBitsClearedOnlyBy := by
  refine ⟨fun s e hr => ?_, fun i s t hexec => ?_⟩
  · cases flagEvent_of_not_resets s e hr with
    | command v hidle he =>
      refine ⟨fun _ _ => .inr ⟨hidle, v, he⟩, fun _ _ => .inr ⟨hidle, v, he⟩, fun hs ht => ?_⟩
      obtain ⟨n, free, hacc⟩ := cmdWriteAccepts s v hidle
      rw [he, hacc] at ht
      nomatch hs.symm.trans ht
    | acknowledge v he =>
      subst he
      rw [statusWriteOneToClear s v]
      exact ⟨fun hs ht => .inl ⟨v, rfl, written_of_cleared hs ht⟩, fun hs ht => .inl ⟨v, rfl, written_of_cleared hs ht⟩,
        fun hs ht => ⟨v, rfl, written_of_cleared hs ht⟩⟩
    | keeps hk =>
      exact ⟨fun hs ht => (nomatch hs.symm.trans (hk.done.symm.trans ht)),
        fun hs ht => (nomatch hs.symm.trans (hk.err.symm.trans ht)), fun hs ht => (nomatch (hk.ovr hs).symm.trans ht)⟩
  · have hends := exec_commandEnds hexec
    obtain ⟨-, -, -, -, -, hovr, -⟩ := hends.hostRegisters
    exact ⟨hends.done, hovr⟩

/-! ## Illegal words (R441) -/

theorem raiseError_eq_failed (s : State) (c : ErrCode) (a : Word) : s.raiseError c a = failed s c a := rfl

/-- Settles O5: a word that decodes matches the row of its command, so this one decodes to no command. -/
theorem illegalWordCompletes : Obligations.IllegalWordCompletes := by
  intro s w o hseq hno
  have hready : s.ready? = some w := (s.ready_iff w).2 ⟨o, hseq⟩
  cases hdec : decode w with
  | ok i =>
    obtain ⟨hrows, -⟩ := opcodeMapDecidesLegality w
    obtain ⟨row, hrow, -, hmatch⟩ := hrows i hdec
    exact absurd hmatch (hno row hrow)
  | error e => simp only [step, hready, hdec, raiseError_eq_failed]

/-! ## The domain check of every command (R443) -/

/-- The registers a command checks, in the order of the check. -/
def operandRegs : Instr → List PReg
  | .tblPreset sel => presetOperands (.ofBits sel)
  | .lookup => [.uPhase]
  | .oscGen sel => oscOperands (.ofBits sel)
  | .envEval sel => envOperands (sel.getLsbD 0)
  | .renderTone => toneOperands
  | .renderEffect => effectRegs
  | .nop | .tblCommit | .stgClear | .noteResolve => []

theorem envSel_of_wellFormed {sel : BitVec 2} (h : (Instr.envEval sel).wellFormed = true) : sel.getLsbD 1 = false := by
  simpa [Instr.wellFormed, envSelOk] using h

/-- The check follows the table of R443. -/
theorem checkedOffsets_eq_operandRegs {i : Instr} (h : i.wellFormed = true) :
    checkedOffsets i = (operandRegs i).map PReg.offset := by
  cases i with
  | tblPreset sel => exact checkedOffsets_tblPreset sel
  | oscGen sel => exact checkedOffsets_oscGen sel
  | envEval sel => exact checkedOffsets_envEval sel (envSel_of_wellFormed h)
  | _ => rfl

/-- The check goes from the lowest offset to the highest. -/
theorem operandRegs_ascending (i : Instr) : (operandRegs i).Pairwise (fun r q => r.offset < q.offset) := by
  cases i with
  | tblPreset sel => revert sel; decide
  | oscGen sel => revert sel; decide
  | envEval sel => revert sel; decide
  | _ => decide

/-- A complete step is the domain check of the command's registers and then a rest that raises no
INVALID_PARAMETER. -/
theorem completeIn_eq_checked (cfg : Config) (s : State) {i : Instr} (h : i.wellFormed = true) :
    ∃ t, completeIn cfg s i = s.checked (operandRegs i) t ∧ t.status.errCode ≠ .invalidParameter := by
  cases i with
  | nop | stgClear | tblPreset | lookup => exact ⟨_, rfl, nofun⟩
  | tblCommit =>
    refine ⟨_, rfl, ?_⟩
    rcases tblCommitStep_cases cfg s with ⟨c, -, hc, -, hstep⟩ | ⟨vs, -, -, hstep⟩
    · rw [hstep]; exact hc
    · rw [hstep]; nofun
  | noteResolve =>
    refine ⟨_, rfl, ?_⟩
    rcases noteResolveStep_cases cfg s with ⟨-, hstep⟩ | ⟨k, -, hstep⟩
    · rw [hstep]; nofun
    · rw [hstep]; nofun
  | oscGen sel =>
    refine ⟨_, rfl, ?_⟩
    cases Wave.ofBits sel <;> nofun
  | envEval sel =>
    exact ⟨_, if_neg (by rw [envSel_of_wellFormed h]; decide), nofun⟩
  | renderTone =>
    refine ⟨_, renderToneStep_eq_render cfg s, ?_⟩
    cases renderLength cfg (toneSpan s.operands.params) <;> nofun
  | renderEffect =>
    refine ⟨_, renderEffectStep_eq_render cfg s, ?_⟩
    cases renderLength cfg (effectSpan cfg s.operands.params) <;> nofun

theorem rowOk_eq_inDomain (s : State) {row : RegRow} (h : row ∈ regTable) :
    rowOk s row = s.operands.inDomain row.reg := regTable_admits _ row h

/-- Of registers in ascending order the check finds the lowest one out of its domain. -/
theorem Snapshot.firstBad_of_lowest {o : Snapshot} {regs : List PReg} {r : PReg}
    (hasc : regs.Pairwise (fun r q => r.offset < q.offset)) (hr : r ∈ regs) (hbad : o.inDomain r = false)
    (hlow : ∀ q ∈ regs, q.offset < r.offset → o.inDomain q = true) : o.firstBad regs = some r := by
  obtain ⟨before, rest, rfl⟩ := List.append_of_mem hr
  obtain ⟨-, -, hlt⟩ := List.pairwise_append.1 hasc
  refine List.find?_eq_some_iff_append.2 ⟨by rw [hbad]; rfl, before, rest, rfl, fun q hq => ?_⟩
  rw [hlow q (List.mem_append_left _ hq) (hlt q hq r List.mem_cons_self)]; rfl

theorem mem_operandRegs_iff {i : Instr} (hwf : i.wellFormed = true) (r : PReg) :
    r ∈ operandRegs i ↔ r.offset ∈ checkedOffsets i := by
  rw [checkedOffsets_eq_operandRegs hwf, List.mem_map_of_injective fun _ _ => PReg.offset_injective]

/-- The lowest checked register out of its domain is the one the check finds. -/
theorem firstBad_of_lowest_row {i : Instr} (hwf : i.wellFormed = true) {s : State} {row : RegRow} (hrow : row ∈ regTable)
    (hoff : row.offset ∈ checkedOffsets i) (hbad : rowOk s row = false)
    (hlow : ∀ row' ∈ regTable, row'.offset ∈ checkedOffsets i → row'.offset < row.offset → rowOk s row' = true) :
    s.operands.firstBad (operandRegs i) = some row.reg := by
  rw [regTable_offset row hrow] at hoff hlow
  refine Snapshot.firstBad_of_lowest (operandRegs_ascending i) ((mem_operandRegs_iff hwf _).2 hoff)
    (rowOk_eq_inDomain s hrow ▸ hbad) fun q hq hlt => ?_
  obtain ⟨row', hrow', rfl⟩ := exists_row q
  rw [← rowOk_eq_inDomain s hrow']
  rw [mem_operandRegs_iff hwf] at hq
  rw [← regTable_offset row' hrow'] at hq hlt
  exact hlow row' hrow' hq hlt

theorem completeIn_of_firstBad (cfg : Config) {s : State} {i : Instr} (hwf : i.wellFormed = true) {r : PReg}
    (h : s.operands.firstBad (operandRegs i) = some r) :
    completeIn cfg s i = failed s .invalidParameter (BitVec.ofNat 32 r.offset) := by
  obtain ⟨t, hstep, -⟩ := completeIn_eq_checked cfg s hwf
  rw [hstep, State.checked_of_bad h, raiseError_eq_failed]

theorem completeIn_no_invalidParameter (cfg : Config) {s : State} {i : Instr} (hwf : i.wellFormed = true)
    (h : s.operands.firstBad (operandRegs i) = none) : (completeIn cfg s i).status.errCode ≠ .invalidParameter := by
  obtain ⟨t, hstep, hcode⟩ := completeIn_eq_checked cfg s hwf
  rwa [hstep, State.checked_of_ok h]

/-- Settles O57: the check goes through the command's registers in ascending order, and the write of a parameter word
has none. -/
theorem domainCheckReportsLowest : Obligations.DomainCheckReportsLowest := by
  refine ⟨fun i s hwf => ⟨fun row hrow hoff hbad hlow => ?_, fun hok t hexec => ?_⟩, fun row hrow s v => ?_⟩
  · rw [exec_eq_next, completeIn_of_firstBad _ hwf (firstBad_of_lowest_row hwf hrow hoff hbad hlow),
      regTable_offset row hrow]
  · rw [(exec_next_iff i s t).1 hexec]
    exact completeIn_no_invalidParameter _ hwf ((operandsOk_iff (checkedOffsets_eq_operandRegs hwf) s).1 hok)
  · rw [regTable_offset row hrow, (registerAt_low row.reg).after_write]
    exact ⟨Params.get_set_same _ _ _, rfl⟩

/-! ## What a failed and a successful command write (R442) -/

/-- A term that no word encodes is an illegal command (log entry 24). -/
theorem completeIn_of_not_wellFormed (cfg : Config) (s : State) {i : Instr} (h : i.wellFormed = false) :
    completeIn cfg s i = failed s .illegalCommand 0 := by
  cases i with
  | envEval sel => exact if_pos (by simpa [Instr.wellFormed, envSelOk] using h)
  | _ => nomatch h

/-- INVALID_PARAMETER names a checked register out of its domain. -/
theorem exists_row_of_invalidParameter {cfg : Config} {s : State} {i : Instr}
    (h : (completeIn cfg s i).status.errCode = .invalidParameter) : ∃ row ∈ regTable,
      row.offset ∈ checkedOffsets i ∧ rowOk s row = false ∧
        (completeIn cfg s i).errAddr = BitVec.ofNat 32 row.offset := by
  cases hwf : i.wellFormed with
  | false => rw [completeIn_of_not_wellFormed cfg s hwf] at h; nomatch h
  | true =>
    cases hbad : s.operands.firstBad (operandRegs i) with
    | none => exact absurd h (completeIn_no_invalidParameter cfg hwf hbad)
    | some r =>
      obtain ⟨hr, hdom⟩ := Snapshot.firstBad_some hbad
      obtain ⟨row, hrow, rfl⟩ := exists_row r
      refine ⟨row, hrow, ?_, (rowOk_eq_inDomain s hrow).trans hdom, ?_⟩
      · rw [regTable_offset row hrow]; exact (mem_operandRegs_iff hwf _).1 hr
      · rw [completeIn_of_firstBad cfg hwf hbad, regTable_offset row hrow]; rfl

/-- Settles O56: a complete step ends in an error that writes STATUS, ERR_ADDR and the sequencer, or in success. -/
theorem failureChangesOnlyStatus : Obligations.FailureChangesOnlyStatus := by
  intro i s t hexec
  obtain rfl := (exec_next_iff i s t).1 hexec
  have hrow := exists_row_of_invalidParameter (cfg := Config.machine) (s := s) (i := i)
  rcases completeIn_ends Config.machine s i with ⟨c, a, hstep, hc, haddr⟩ | ⟨hseq, haddr, reason, hst⟩
  · rw [hstep] at hrow ⊢
    refine ⟨fun _ => ⟨rfl, hc, hrow, fun hcode => ?_⟩, fun herr => (nomatch herr)⟩
    obtain ⟨hinv, -⟩ | ⟨-, hzero⟩ := haddr
    · exact absurd hinv hcode
    · exact hzero
  · rw [hst]
    exact ⟨fun herr => (nomatch herr), fun _ => ⟨hseq, rfl, rfl, haddr⟩⟩

end Machine
end Sys2Proof
end

section
/-! SUPPORT. The statements of 70_reset_and_hazards.md: an accepted command completes (R497, R498), the two resets and
the state they reach (R480 to R482, R484), and the reads that show current values while BUSY (R490). -/

namespace Sys2Proof
namespace Machine
open Claims

/-! ## An accepted command completes (R498) -/

theorem completeIn_idle_done (cfg : Config) (s : State) (i : Instr) :
    (completeIn cfg s i).seq = .idle ∧ (completeIn cfg s i).status.done = true := by
  rcases completeIn_ends cfg s i with ⟨c, a, hstep, -⟩ | ⟨hseq, -, reason, hst⟩
  · rw [hstep]; exact ⟨rfl, rfl⟩
  · exact ⟨hseq, by rw [hst]⟩

/-- Once its latency is over the word completes, legal or not. -/
theorem step_of_latency_over {s : State} {w : Word} {o : Snapshot} (hseq : s.seq = .busy w o 0) :
    ∃ t, step s = .next t ∧ t.seq = .idle ∧ t.status.done = true := by
  rcases step_cases s with ⟨-, i, -, -, hstep⟩ | ⟨-, -, -, -, hstep⟩ | ⟨hready, -⟩
  · exact ⟨_, hstep, completeIn_idle_done _ s i⟩
  · exact ⟨_, hstep, rfl, rfl⟩
  · rw [(s.ready_iff w).2 ⟨o, hseq⟩] at hready; nomatch hready

/-- While latency is left, a step with no reset takes one from it and leaves the command as it is. -/
theorem step_of_latency_left {s : State} {w : Word} {o : Snapshot} {n : Nat} (hseq : s.seq = .busy w o (n + 1))
    (hin : ∀ e ∈ s.inputs.take (n + 1), e.resets = false) :
    ∃ t, step s = .next t ∧ t.seq = .busy w o n ∧ ∀ e ∈ t.inputs.take n, e.resets = false := by
  obtain ⟨hevent, htime⟩ := (stepTakesHostEvent s).2 w o n hseq
  cases hes : s.inputs with
  | nil => exact ⟨_, htime hes, rfl, by simp [hes]⟩
  | cons e es =>
    rw [hes, List.take_succ_cons, List.forall_mem_cons] at hin
    obtain ⟨he, hrest⟩ := hin
    obtain ⟨hkept, -⟩ := noHostAccessChangesAcceptedCommand { s with inputs := es, seq := .busy w o n } e rfl he
    obtain ⟨-, -, -, -, -, -, hinputs⟩ :=
      hostEvent_frame Config.machine { s with inputs := es, seq := .busy w o n } e he
    exact ⟨_, hevent e es hes, hkept, by rw [after, hinputs]; exact hrest⟩

/-- Settles O11, by induction on the latency that is left. -/
theorem acceptedCommandCompletes : Obligations.AcceptedCommandCompletes := by
  intro s w o n
  induction n generalizing s with
  | zero =>
    intro hseq _
    obtain ⟨t, hstep, hdone⟩ := step_of_latency_over hseq
    exact ⟨t, run_succ hstep 0, hdone⟩
  | succ n ih =>
    intro hseq hin
    obtain ⟨t, hstep, hseq', hin'⟩ := step_of_latency_left hseq hin
    rw [run_succ hstep]
    exact ih t hseq' hin'

/-- Settles O8: a complete step, the completion of an illegal word and the passing of time each have a next state. -/
theorem stepNeverStops : Obligations.StepNeverStops := by
  intro s
  rcases step_cases s with ⟨-, i, -, -, hstep⟩ | ⟨-, -, -, -, hstep⟩ | ⟨-, hstep⟩
  · exact ⟨_, hstep⟩
  · exact ⟨_, hstep⟩
  · exact ⟨_, hstep⟩

/-! ## The resets (R480, R481) -/

theorem writeLoc_ctrl_on (s : State) {v : Word} (h : v.getLsbD 0 = true) : s.writeLoc v .ctrl = s.toReset := by
  simp only [State.writeLoc, h, if_true]

/-- Settles O14: both are `State.toReset`, which is the reset state but for the events to come and the two counters. -/
theorem bothResetsReachResetState : Obligations.BothResetsReachResetState := by
  intro s
  have ctrl : RegisterAt 0x14 .ctrl := by decide
  refine ⟨fun v hv => ⟨s.pcmEpoch + 1, s.free + 1, ?_, ctrl.read_current (by decide) _⟩, fun v hv => ?_, _, _, rfl⟩
  · rw [ctrl.after_write, writeLoc_ctrl_on s hv]; rfl
  · rw [ctrl.after_write, writeLoc_ctrl_off s v hv]

/-! ## The reset state (R482, R484) -/

/-- Settles O10: the invariant does not see the two counters, in which alone `State.toReset` moves the reset state. -/
theorem resetMeetsInvariant : Obligations.ResetMeetsInvariant := { inv_toReset State.reset with }

/-- The column "reset" of the tables of 10_state.md R47, R49, R50. -/
theorem params_get_reset : ∀ row ∈ regTable, State.reset.params.get row.reg = row.reset := by decide +kernel

/-- A table byte that nothing has written since the reset is 0. -/
theorem byteAt_reset {a : Nat} (hlo : tblBase ≤ a) (hhi : a < tblBase + 2048) : State.reset.byteAt a = 0 := by
  have hread : Memory.read State.reset.mem a = some 0 := if_pos ⟨hlo, hhi⟩
  rw [State.byteAt, hread, Option.getD_some]

theorem tbl_reset {k : Nat} (h : k < 1024) : State.reset.tbl k = 0 := by
  rw [State.tbl, State.sampleAt, byteAt_reset (by omega) (by omega), byteAt_reset (by omega) (by omega)]; rfl

/-- Right after reset the block is idle, so every register reads its contents. -/
theorem read_reset (k : Nat) (l : Loc) (h : RegisterAt k l) :
    (after State.reset (.read (at22 k))).response = .readOk (State.reset.readLoc Config.machine l) := h.read_idle rfl

/-- Settles O13: the contents of each location, which the bus reads, the table's entries and the parameter registers. -/
theorem resetStateValues : Obligations.ResetStateValues := by
  refine ⟨rfl, ?_, rfl, fun row hrow => ?_, fun k hk => tbl_reset hk, rfl⟩
  · simp only [List.forall_mem_cons, List.not_mem_nil, false_imp_iff, implies_true, and_true]
    exact ⟨read_reset 0x00 .id (by decide), read_reset 0x44 .sampleRate (by decide),
      read_reset 0x4C .caps (by decide), read_reset 0x08 .status (by decide), read_reset 0x0C .len (by decide),
      read_reset 0x10 .irqEn (by decide), read_reset 0x14 .ctrl (by decide), read_reset 0x20 .stgCount (by decide),
      read_reset 0x48 .errAddr (by decide), read_reset 0x40 .note (by decide), read_reset 0x18 .rngLo (by decide),
      read_reset 0x1C .rngHi (by decide), read_reset 0x30 .durationLo (by decide),
      read_reset 0x34 .durationHi (by decide), read_reset 0x38 .resultLo (by decide),
      read_reset 0x3C .resultHi (by decide), read_reset 0x1B0 .waveType (by decide)⟩
  · obtain ⟨-, -, hread⟩ := parameterWordsIndependent row hrow State.reset 0
    rw [← params_get_reset row hrow]
    exact ⟨rfl, hread rfl⟩

/-- The column "reset" is within the column "range" or "domain" of the tables of 10_state.md R47, R49, R50. -/
theorem rowOk_reset : ∀ row ∈ regTable, rowOk State.reset row = true := by decide +kernel

/-- Settles O15: every reset value is in its domain, and then no check fails (R443). -/
theorem resetParametersInDomain : Obligations.ResetParametersInDomain := by
  intro i hwf
  have hok : operandsOk i State.reset := fun row hrow _ => rowOk_reset row hrow
  obtain ⟨hcheck, -⟩ := domainCheckReportsLowest
  exact ⟨hok, (hcheck i State.reset hwf).2 hok⟩

/-! ## Current values while BUSY (R490) -/

/-- Only PITCH_HZ, which NOTE_RESOLVE writes, is a result among the parameter registers. -/
theorem isResult_param {r : PReg} (h : r ≠ .pitchHz) :
    (Loc.paramLo r).isResult = false ∧ (Loc.paramHi r).isResult = false := by
  cases r with
  | pitchHz => exact absurd rfl h
  | _ => exact ⟨rfl, rfl⟩

/-- Settles O24: STATUS shows BUSY and OVR at all times, and a register that is no result reads its contents. -/
theorem busyReadsOfUnwrittenRegisters : Obligations.BusyReadsOfUnwrittenRegisters := by
  intro s hs
  have note : RegisterAt 0x40 .note := by decide
  have irqEn : RegisterAt 0x10 .irqEn := by decide
  have waveType : RegisterAt 0x1B0 .waveType := by decide
  obtain ⟨v, hread, hbusy, hovr, -⟩ := statusWord s
  refine ⟨⟨v, hread, hbusy.trans hs, hovr⟩, note.read_current (by decide) s, irqEn.read_current (by decide) s,
    waveType.read_current (by decide) s, fun row hrow hne => ?_⟩
  obtain ⟨hlo, hhi⟩ := isResult_param hne
  rw [regTable_offset row hrow]
  exact ⟨(registerAt_low row.reg).read_current ⟨nofun, hlo⟩ s, (registerAt_high row.reg).read_current ⟨nofun, hhi⟩ s⟩

end Machine
end Sys2Proof
end
